-- ==== Sys2Proof/Word.lean ====
section
/-! DEFINITION. The word types of the block: bytes of the wire and of every buffer, the 16-bit host
registers, the 9-bit length registers (00_scope.md R6, R7; 10_state.md Table 10-1). -/

namespace Sys2Proof

/-- A byte: the unit of the wire and of every buffer (R6, BYTE = 8 bits). -/
abbrev Byte := BitVec 8

/-- A host register, and a 16-bit device value (R6, REGW = 16 bits). -/
abbrev Word := BitVec 16

/-- A 9-bit length or buffer index (Table 10-1: XLEN, XEXP, RXLEN, BUFIDX). -/
abbrev Len := BitVec 9

/-- The number of a host register, 0 to 15 (R20). -/
abbrev RegNo := BitVec 4

end Sys2Proof
end

