-- ==== Sys2Proof/Config.lean ====
section
/-! DEFINITION. The parameters of 00_scope.md R6 (Table 00-1), and the free values: what the spec
leaves open, as constants without a body. -/

namespace Sys2Proof

/-- The implementation parameters of Table 00-1 (R6), each a field. State carries one, so that a claim may
quantify over it; times are in microseconds, BAUD in bits a second. No rule depends on `tRdto` and `baud`,
which the transport owns, and no result depends on `tTurn` and `tBackoff` (70_reset_and_hazards.md R300).
The types Byte, Word and RegNo stand at the table's BYTE, REGW and NREG, which `Config.legal` demands
(log 8). -/
structure Config where
  /-- BYTE: bits of the unit of the wire and of every buffer (R6). -/
  byteBits : Nat
  /-- REGW: bits of a host register (decision D2). -/
  regw : Nat
  /-- NREG: number of host registers (decision D2). -/
  nreg : Nat
  /-- NADDR: entries of the LASTERR file (decision D6). -/
  naddr : Nat
  /-- BCAST: the broadcast address (R6; 20_memory.md R63). -/
  bcast : Byte
  /-- MARK, first byte of the packet marker (R6; 30_encoding.md Table 30-1, MARK0). -/
  mark0 : Byte
  /-- MARK, second byte of the packet marker (R6; Table 30-1, MARK1). -/
  mark1 : Byte
  /-- OVH: fixed overhead of a packet in bytes (R6). -/
  ovh : Nat
  /-- PMAX: largest request payload, and the size of PBUF (decision D8). -/
  pmax : Nat
  /-- EMAX: largest expected response payload (decision D8). -/
  emax : Nat
  /-- XMAX: capacity of TXF and of RXBUF (decision D8). -/
  xmax : Nat
  /-- RXCK: whether the status packet's checksum is verified (decision D9, conflict C1). -/
  rxck : Bool
  /-- T_TURN: the turnaround delay (decision D14). -/
  tTurn : Nat
  /-- T_BACKOFF: the delay before the second attempt (decision D14). -/
  tBackoff : Nat
  /-- T_RDTO: the transport's read timeout. -/
  tRdto : Nat
  /-- BAUD: the line rate. -/
  baud : Nat
  /-- NO_ERROR: the "no error" sentinel (R6; 30_encoding.md R96). -/
  noError : Byte
  /-- NO_STATUS: the "no status yet" sentinel (R6; 30_encoding.md R96). -/
  noStatus : Byte
  deriving DecidableEq, Repr

/-- Table 00-1: the values at which the parameters are fixed for this hardware. -/
def Config.hdx : Config :=
  { byteBits := 8, regw := 16, nreg := 16
    naddr := 255, bcast := 0xFE, mark0 := 0xFF, mark1 := 0xFF, ovh := 6
    pmax := 253, emax := 253, xmax := 259, rxck := true
    tTurn := 1000, tBackoff := 5000, tRdto := 100000, baud := 1000000
    noError := 0x00, noStatus := 0x80 }

/-- The parameters that the source fixes, and those the types of this text fix, at their table values
(R6: "the constants 6, 2, 0xFF, 0xFE, 0x80"). -/
def Config.wire (c : Config) : Bool :=
  c.byteBits == 8 && c.regw == 16 && c.nreg == 16 && c.naddr == 255 && c.bcast == 0xFE &&
    c.mark0 == 0xFF && c.mark1 == 0xFF && c.ovh == 6 && c.noError == 0x00 && c.noStatus == 0x80

/-- The parameter values under which the rules hold (R6; decision D8: "the rules hold with any
PMAX <= 253"): payload bounds that fit the length byte (30_encoding.md R91), buffers that hold a whole
frame and a whole response, T_BACKOFF = 5 × T_TURN. DESIGN CHOICE, log 8: PMAX + OVH and EMAX + OVH within
XMAX when these are made smaller. -/
def Config.legal (c : Config) : Bool :=
  c.wire && c.pmax ≤ 253 && c.emax ≤ 253 && c.xmax ≤ 259 &&
    c.pmax + c.ovh ≤ c.xmax && c.emax + c.ovh ≤ c.xmax && c.tBackoff == 5 * c.tTurn

/-- Free value: the byte that the k-th read of an unwritten buffer entry gives, any value, possibly
different on each read (10_state.md R50). Log 2. -/
opaque Config.freeByte : Nat → Byte

/-- Free value: the word from which the k-th read made while BUSY = 1 of a register that then reads as
any value takes its bits (10_state.md R22, R29, R38). Log 3. -/
opaque Config.freeWord : Nat → Word

end Sys2Proof
end

