-- ==== Sys2Proof/Machine/Bytes.lean ====
section
/-! DEFINITION. Byte arithmetic of the block: the checksum function and the frame
(40_checksum_frame.md R134 to R136), and 16-bit operands (30_encoding.md R99). -/

namespace Sys2Proof

/-- `sum(s)`: the natural-number sum of a byte sequence (00_scope.md R7). -/
def sumBytes : List Byte → Nat
  | [] => 0
  | b :: s => b.toNat + sumBytes s

/-- `Cks8(s)` = 255 - (sum(s) mod 256) (R134). -/
def cks8 (s : List Byte) : Byte := BitVec.ofNat 8 (255 - sumBytes s % 256)

/-- `Verify8(s, c)`: c is the checksum of s (R135). -/
def verify8 (s : List Byte) (c : Byte) : Bool := c == cks8 s

/-- The LEN byte of a packet with n payload bytes, `u8(n + 2)` (30_encoding.md R98). -/
def lenByte (n : Nat) : Byte := BitVec.ofNat 8 (n + 2)

/-- The bytes a packet's checksum covers: ADDR, LEN, INSTR or ERROR, payload (30_encoding.md R97). -/
def covered (a i : Byte) (p : List Byte) : List Byte := a :: lenByte p.length :: i :: p

/-- `Frame(a, i, p)` (R136), with the marker bytes of the parameters `c`. -/
def framed (c : Config) (a i : Byte) (p : List Byte) : List Byte :=
  c.mark0 :: c.mark1 :: (covered a i p ++ [cks8 (covered a i p)])

/-- `Frame(a, i, p)` (R136): the request packet of 30_encoding.md R90. -/
def frame (a i : Byte) (p : List Byte) : List Byte := framed Config.hdx a i p

/-- The status packet of 30_encoding.md R92: address a, error byte e, payload q. "Same formula,
substituting error code for instruction". -/
def statusPacket (a e : Byte) (q : List Byte) : List Byte := frame a e q

/-- `V[7:0]` (30_encoding.md R99). -/
def lowByte (v : Word) : Byte := v.extractLsb' 0 8

/-- `V[15:8]` (30_encoding.md R99). -/
def highByte (v : Word) : Byte := v.extractLsb' 8 8

/-- `low | (high << 8)` (30_encoding.md R99). -/
def join16 (low high : Byte) : Word := high ++ low

end Sys2Proof
end

