-- ==== Sys2Proof/Syntax.lean ====
section
/-! DEFINITION. The instructions: one constructor per row of spec/opcode_table.json, in the table's
order, with the operands the row's encoding carries (30_encoding.md Tables 30-3, 30-5, 30-6). -/

namespace Sys2Proof

/-- The instructions of the block. Host operations carry the NORESP bit of the CMD word (R100); CK8
micro-operations carry the data byte on `ck_din`, and CK.CLR its don't-care `ck_en` bit (R102); bus
instructions carry the fields of their packets (R90). -/
inductive Instr where
  /-- XCHG, 41_exchange.md R150; NORESP is ignored. -/
  | xchg (noresp : Bool)
  /-- CMD, 42_command.md R170. -/
  | cmd (noresp : Bool)
  /-- CMDR, 42_command.md R171. -/
  | cmdr (noresp : Bool)
  /-- CKS, 40_checksum_frame.md R138. -/
  | cks (noresp : Bool)
  /-- CK.CLR, 40_checksum_frame.md R130. -/
  | ckClr (en : Bool) (din : Byte)
  /-- CK.ADD, 40_checksum_frame.md R131. -/
  | ckAdd (din : Byte)
  /-- CK.HOLD, 40_checksum_frame.md R132. -/
  | ckHold (din : Byte)
  /-- PING to address a, 43_bus_instructions.md R200, R210. -/
  | ping (a : Byte)
  /-- READ of n bytes from register r of device a, R201, R211. -/
  | read (a r n : Byte)
  /-- WRITE of the bytes ds from register r of device a, R202, R212. -/
  | write (a r : Byte) (ds : List Byte)
  /-- WRITE1: WRITE of the one byte v, R203, R215. -/
  | write1 (a r v : Byte)
  /-- WRITE2: WRITE of the 16-bit value v, low byte first, R204, R216. -/
  | write2 (a r : Byte) (v : Word)
  /-- REG_WRITE, named and unimplemented, R205; its payload has no shape in the spec. -/
  | regWrite (a : Byte) (payload : List Byte)
  /-- ACTION, named and unimplemented, R205. -/
  | action (a : Byte) (payload : List Byte)
  /-- RESET (of a device), named and unimplemented, R205. -/
  | resetDevice (a : Byte) (payload : List Byte)
  /-- SYNC_WRITE, named and unimplemented, R205. -/
  | syncWrite (a : Byte) (payload : List Byte)
  deriving DecidableEq, Repr

end Sys2Proof
end

