-- ==== Sys2Proof/WellFormed.lean ====
section
/-! DEFINITION. Which instruction terms have an encoding (30_encoding.md R90, R91, R100, R102;
43_bus_instructions.md R200 to R205, R219). -/

namespace Sys2Proof

/-- A device address of an instruction that needs an answer: 0 to 253 (R219). -/
def answeringAddress (a : Byte) : Bool := a.toNat ≤ 253

/-- A device address or the broadcast address: 0 to 254 (20_memory.md R63, R219). -/
def busAddress (a : Byte) : Bool := a.toNat ≤ 254

/-- A payload whose length byte N + 2 fits one byte (R91). -/
def payloadFits (p : List Byte) : Bool := p.length ≤ 253

/-- An instruction that its row of the opcode table encodes. A WRITE of one or two data bytes has the
words of WRITE1 and WRITE2, and is written as those (log 12). -/
def Instr.wellFormed : Instr → Bool
  | .xchg _ => true
  | .cmd _ => true
  | .cmdr _ => true
  | .cks _ => true
  | .ckClr _ _ => true
  | .ckAdd _ => true
  | .ckHold _ => true
  | .ping a => answeringAddress a
  | .read a _ _ => answeringAddress a
  | .write a _ ds => busAddress a && 3 ≤ ds.length && ds.length ≤ 252
  | .write1 a _ _ => busAddress a
  | .write2 a _ _ => busAddress a
  | .regWrite a p => busAddress a && payloadFits p
  | .action a p => busAddress a && payloadFits p
  | .resetDevice a p => busAddress a && payloadFits p
  | .syncWrite a p => busAddress a && payloadFits p

end Sys2Proof
end

