-- ==== Sys2Proof/Decode.lean ====
section
/-! DEFINITION. Decoding and encoding (30_encoding.md). The block has three places where an instruction
is presented, each with its own format: the CMD register (HOSTCMD, Table 30-5), the CK8 control port
(CK8PORT, Table 30-6) and the packet of a bus instruction (BUSPKT, Tables 30-1 and 30-3). -/

namespace Sys2Proof

/-- What is presented to be decoded: a word written to CMD, the two control bits of the CK8 port with
`ck_din`, or the bytes of a request packet in transmission order. -/
inductive Fetch where
  | cmdWord (w : Word)
  | ckCtl (ctl : BitVec 2) (din : Byte)
  | packet (bytes : List Byte)
  deriving DecidableEq, Repr

/-- Why a presented value is no instruction of the opcode table. -/
inductive Reject where
  /-- A CMD word with GO = 0: no operation (R101). -/
  | notGo
  /-- A CMD word with GO = 1 and a bit of 14:3 set (R100, R103 a). -/
  | reservedBits
  /-- Fewer bytes than the fixed fields of a packet (R90). -/
  | shortPacket
  /-- The packet does not open with FF FF (R90). -/
  | badMarker
  /-- LEN is not the payload length plus 2 (R90, R91). -/
  | badLen
  /-- The last byte is not the checksum (R90). -/
  | badChecksum
  /-- An address the instruction does not take (20_memory.md R63, 43_bus_instructions.md R219). -/
  | badAddress
  /-- The payload does not have the instruction's shape (43_bus_instructions.md R200 to R204). -/
  | badShape
  /-- An instruction byte without a name in Table 30-3 (R95). -/
  | unnamedCode
  deriving DecidableEq, Repr

/-- The decoder's answer. -/
inductive Decoded where
  | instr (i : Instr)
  | reject (r : Reject)
  deriving DecidableEq, Repr

/-- The instruction of a decoder's answer, if it is one. -/
def Decoded.toOption : Decoded → Option Instr
  | .instr i => some i
  | .reject _ => none

/-- Bit 15 of a CMD word, GO (Table 30-5). -/
def cmdGo (w : Word) : Bool := w.getLsbD 15

/-- Whether a reserved bit, 14:3, of a CMD word is set (Table 30-5). -/
def cmdReserved (w : Word) : Bool := w.extractLsb' 3 12 != 0

/-- Bits 2:0 of a CMD word: NORESP and OP, what OPL latches (10_state.md R40). -/
def cmdOpl (w : Word) : BitVec 3 := w.extractLsb' 0 3

/-- The NORESP bit of OPL (Table 30-5). -/
def oplNoresp (o : BitVec 3) : Bool := o.getLsbD 2

/-- The OP field of OPL (Table 30-5). -/
def oplOp (o : BitVec 3) : BitVec 2 := o.extractLsb' 0 2

/-- Table 30-5: the host operation of a CMD word. -/
def decodeCmd (w : Word) : Decoded :=
  if cmdGo w = false then .reject .notGo
  else if cmdReserved w then .reject .reservedBits
  else
    let n := oplNoresp (cmdOpl w)
    if oplOp (cmdOpl w) = 0 then .instr (.xchg n)
    else if oplOp (cmdOpl w) = 1 then .instr (.cmd n)
    else if oplOp (cmdOpl w) = 2 then .instr (.cmdr n)
    else .instr (.cks n)

/-- Table 30-6: bit 1 is `ck_clr`, bit 0 `ck_en`; `ck_clr` wins. -/
def decodeCk (ctl : BitVec 2) (din : Byte) : Decoded :=
  if ctl.getLsbD 1 then .instr (.ckClr (ctl.getLsbD 0) din)
  else if ctl.getLsbD 0 then .instr (.ckAdd din)
  else .instr (.ckHold din)

/-- PING has no payload (43_bus_instructions.md R200). -/
def decodePing (a : Byte) : List Byte → Decoded
  | [] => if answeringAddress a then .instr (.ping a) else .reject .badAddress
  | _ :: _ => .reject .badShape

/-- The payload of READ is [r, n] (R201). -/
def decodeRead (a : Byte) : List Byte → Decoded
  | [r, n] => if answeringAddress a then .instr (.read a r n) else .reject .badAddress
  | [] => .reject .badShape
  | [_] => .reject .badShape
  | _ :: _ :: _ :: _ => .reject .badShape

/-- The payload of WRITE is [r] ++ d, with at least one data byte (R202 to R204). -/
def decodeWrite (a : Byte) : List Byte → Decoded
  | [] => .reject .badShape
  | [_] => .reject .badShape
  | [r, v] => .instr (.write1 a r v)
  | [r, v, w] => .instr (.write2 a r (join16 v w))
  | r :: d0 :: d1 :: d2 :: ds => .instr (.write a r (d0 :: d1 :: d2 :: ds))

/-- The instruction codes of Table 30-3 (R95), for an address 0 to 254. -/
def decodeBody (a i : Byte) (p : List Byte) : Decoded :=
  if i = 0x01 then decodePing a p
  else if i = 0x02 then decodeRead a p
  else if i = 0x03 then decodeWrite a p
  else if i = 0x04 then .instr (.regWrite a p)
  else if i = 0x05 then .instr (.action a p)
  else if i = 0x06 then .instr (.resetDevice a p)
  else if i = 0x83 then .instr (.syncWrite a p)
  else .reject .unnamedCode

/-- A request packet, bytes in transmission order (Table 30-1): markers, ADDR, LEN, INSTR, and then the
payload with the checksum byte behind it. -/
def decodePacket (bs : List Byte) : Decoded :=
  match bs with
  | m0 :: m1 :: a :: l :: i :: c :: body =>
    if m0 ≠ Config.hdx.mark0 ∨ m1 ≠ Config.hdx.mark1 then .reject .badMarker
    else if l.toNat ≠ body.length + 2 then .reject .badLen
    else if verify8 (a :: l :: i :: (c :: body).dropLast) ((c :: body).getLastD 0) = false then
      .reject .badChecksum
    else if busAddress a = false then .reject .badAddress
    else decodeBody a i (c :: body).dropLast
  | _ => .reject .shortPacket

/-- The decoder, total. -/
def decode : Fetch → Decoded
  | .cmdWord w => decodeCmd w
  | .ckCtl ctl din => decodeCk ctl din
  | .packet bs => decodePacket bs

/-- A CMD word from its OP and NORESP fields (Table 30-5). -/
def encodeCmd (op : BitVec 2) (noresp : Bool) : Word :=
  (1#1) ++ (0#12) ++ BitVec.ofBool noresp ++ op

/-- The control bits of the CK8 port (Table 30-6). -/
def encodeCk (clr en : Bool) : BitVec 2 := BitVec.ofBool clr ++ BitVec.ofBool en

/-- The encoder: what is presented for a well-formed instruction. -/
def encode : Instr → Fetch
  | .xchg n => .cmdWord (encodeCmd 0 n)
  | .cmd n => .cmdWord (encodeCmd 1 n)
  | .cmdr n => .cmdWord (encodeCmd 2 n)
  | .cks n => .cmdWord (encodeCmd 3 n)
  | .ckClr en din => .ckCtl (encodeCk true en) din
  | .ckAdd din => .ckCtl (encodeCk false true) din
  | .ckHold din => .ckCtl (encodeCk false false) din
  | .ping a => .packet (frame a 0x01 [])
  | .read a r n => .packet (frame a 0x02 [r, n])
  | .write a r ds => .packet (frame a 0x03 (r :: ds))
  | .write1 a r v => .packet (frame a 0x03 [r, v])
  | .write2 a r v => .packet (frame a 0x03 [r, lowByte v, highByte v])
  | .regWrite a p => .packet (frame a 0x04 p)
  | .action a p => .packet (frame a 0x05 p)
  | .resetDevice a p => .packet (frame a 0x06 p)
  | .syncWrite a p => .packet (frame a 0x83 p)

/-- Byte k of a number, byte 0 its least significant. -/
def byteOfNat (w k : Nat) : Byte := BitVec.ofNat 8 (w >>> (8 * k))

/-- The n bytes of a number, the least significant first. -/
def bytesLsbFirst (n w : Nat) : List Byte := (List.range n).map (byteOfNat w)

/-- The n bytes of a number, the most significant first: how a BUSPKT row numbers its packet ("first
transmitted byte is the most significant byte of match/mask"). -/
def bytesMsbFirst (n w : Nat) : List Byte := (bytesLsbFirst n w).reverse

/-- The packet that opens a byte sequence whose bytes from its end on are 0: LEN + 4 bytes (R94). -/
def cutPacket (bs : List Byte) : List Byte :=
  (bs ++ List.replicate 259 0).take ((bs.getD 3 0).toNat + 4)

/-- The LEN byte of a table word whose row leaves it open and whose word holds 0 there: the shortest packet
of the row, for WRITE the shortest that is not WRITE1 or WRITE2 (log 14). -/
def tableLen (l i : Byte) : Byte :=
  if l ≠ 0 then l
  else if i = 0x02 then 4
  else if i = 0x03 then 6
  else 2

/-- The packet of the fields a table word holds: LEN and the checksum are computed fields, not operands, and
a row's mask leaves them open (log 14). -/
def completePacket (bs : List Byte) : List Byte :=
  let i := bs.getD 4 0
  let l := tableLen (bs.getD 3 0) i
  frame (bs.getD 2 0) i (((bs.drop 5) ++ List.replicate 253 0).take (l.toNat - 2))

/-- The first of some byte sequences that is a packet. -/
def firstPacket : List (List Byte) → List Byte
  | [] => []
  | bs :: rest =>
    match decodePacket bs with
    | .instr _ => bs
    | .reject _ => firstPacket rest

/-- MARK (Table 30-1). -/
def marker : List Byte := [Config.hdx.mark0, Config.hdx.mark1]

/-- The packet of a table word of n bytes, in the row's own order or in the order that counts bits on from
the first byte; a word that is no packet as it stands, with its computed fields filled in (log 14). -/
def packetOfWord (n w : Nat) : List Byte :=
  let msb := bytesMsbFirst n w
  let lsb := bytesLsbFirst n w
  firstPacket
    ([cutPacket msb, cutPacket lsb] ++
      (if msb.take 2 = marker then [completePacket msb] else []) ++
      (if lsb.take 2 = marker then [completePacket lsb] else []))

/-- What a word of the opcode table presents: rows of up to 8 bits are CK8PORT, rows of up to 16 bits
HOSTCMD, longer rows BUSPKT (log 14). -/
def fetchOfWord (nbits w : Nat) : Fetch :=
  if nbits ≤ 8 then
    if w < 4 then .ckCtl (BitVec.ofNat 2 w) 0 else .packet [BitVec.ofNat 8 w]
  else if nbits ≤ 16 then .cmdWord (BitVec.ofNat 16 w)
  else .packet (packetOfWord ((nbits + 7) / 8) w)

/-- The instruction the decoder reads from a word of the opcode table. -/
def decodeTableWord (nbits w : Nat) : Option Instr := (decode (fetchOfWord nbits w)).toOption

end Sys2Proof
end

