-- ==== Sys2Proof/Machine/State.lean ====
section
/-! DEFINITION. The state of the block and of its surroundings as plain data, its value after reset, and
the reasons a step can stop (10_state.md; INVENTORY.md, State). -/

namespace Sys2Proof.Machine

/-- PHASE, the sequencer's position (10_state.md R40). -/
inductive Phase where
  | idle | build | tx | echo | turn | resp | check | backoff
  deriving DecidableEq, Repr

/-- A transport event, in the order of 20_memory.md R75. -/
inductive Event where
  /-- One completed `TxWrite(s)` (20_memory.md R68). -/
  | txWrite (s : List Byte)
  /-- One `RxRead(n)` and what it returned (20_memory.md R69). -/
  | rxRead (n : Nat) (got : List Byte)
  /-- One `Delay(T)` (20_memory.md R71). -/
  | delay (t : Nat)
  deriving DecidableEq, Repr

/-- What the outside presents to the block in one step: the statements of 30_encoding.md R104, a drive of
the CK8 control port (R102), or a bus instruction for the toolchain to expand (R105). -/
inductive Input where
  /-- `wr REG, v`: a host write of a register. -/
  | write (r : RegNo) (v : Word)
  /-- `rd REG`: a host read of a register. -/
  | read (r : RegNo)
  /-- `wait`: `rd STATUS` until DONE reads 1. -/
  | wait
  /-- `rxb i`, done only if the operation before ended with CODE = 0 (43_bus_instructions.md R211). -/
  | rxbOk (i : Nat)
  /-- The control bits and the data byte at the CK8 port. -/
  | ck (ctl : BitVec 2) (din : Byte)
  /-- A bus instruction, as the bytes of its packet. -/
  | packet (bytes : List Byte)
  deriving DecidableEq, Repr

/-- The host registers that store something (10_state.md Table 10-1). -/
structure Regs where
  /-- DEVADDR (R23). -/
  devaddr : Byte
  /-- INSTR (R24). -/
  instr : Byte
  /-- PLEN (R25). -/
  plen : Byte
  /-- EXPLEN (R26). -/
  explen : Byte
  /-- XLEN (R27). -/
  xlen : Len
  /-- XEXP (R28). -/
  xexp : Len
  /-- RXLEN (R29). -/
  rxlen : Len
  /-- CKOUT (R30). -/
  ckout : Byte
  /-- BUFIDX (R32). -/
  bufidx : Len
  deriving DecidableEq, Repr

/-- The fields of STATUS (10_state.md R22). -/
structure Status where
  /-- BUSY (R33). -/
  busy : Bool
  /-- DONE (R33). -/
  done : Bool
  /-- ANOM (R34). -/
  anom : Bool
  /-- RETRIED (R35). -/
  retried : Bool
  /-- CODE (R36). -/
  code : BitVec 4
  deriving DecidableEq, Repr

/-- The sequencer (10_state.md R40), its timers (60_exceptions.md R261) and the transfer in progress. -/
structure Seq where
  /-- PHASE (R40). -/
  phase : Phase
  /-- ATT: false in the first attempt, true in the second (R40). -/
  att : Bool
  /-- OPL: bits 2:0 of the accepted CMD word (R40). -/
  opl : BitVec 3
  /-- Whether the accepted CMD word had a bit of 14:3 set (60_exceptions.md R245 a). Log 6. -/
  rsvd : Bool
  /-- The sequence tx of the running exchange (41_exchange.md R151). Log 6. -/
  txSeq : List Byte
  /-- Byte counter of TX: bytes of tx handed over (R40). Log 19. -/
  txCnt : Nat
  /-- Byte counter of ECHO: bytes the echo read returned (R40). Log 19. -/
  echoCnt : Nat
  /-- Byte counter of RESP: bytes the response read returned (R40). Log 19. -/
  respCnt : Nat
  /-- The turnaround timer: what it was started with, 0 when it does not run (R261). Log 7. -/
  turnTimer : Nat
  /-- The backoff timer, likewise (R261). Log 7. -/
  backoffTimer : Nat
  deriving DecidableEq, Repr

/-- The byte files (10_state.md R43 to R46), each a list of (index, byte) in canonical form. -/
structure Buffers where
  /-- LASTERR[0..254]; an unlisted entry is 0x80 (R43). -/
  lasterr : List Host.Cell
  /-- PBUF[0..252]; an unlisted entry is unwritten (R44, R50). -/
  pbuf : List Host.Cell
  /-- TXF[0..258]; an unlisted entry is unwritten (R45, R50). -/
  txf : List Host.Cell
  /-- RXBUF[0..258]; an unlisted entry is unwritten (R46, R50). -/
  rxbuf : List Host.Cell
  deriving DecidableEq, Repr

/-- The transport: environment, not state of the block (10_state.md R49). -/
structure Bus where
  /-- The receive queue: bytes that arrived and were not read, oldest first (R49). -/
  rxq : List Byte
  /-- The draws of 20_memory.md R69: what arrives from one read attempt's end to the next one's; when the
  list ends nothing more arrives. Log 1. -/
  arrivals : List (List Byte)
  /-- How many bytes the transport takes at each coming visit of TX; when the list ends it takes all, or,
  with `txHung`, none (20_memory.md R68). Log 5. -/
  takes : List Nat
  /-- After `takes`, the transport never takes another byte (60_exceptions.md R253). Log 5. -/
  txHung : Bool
  /-- Record: the bytes handed to the transport, oldest first. Log 20. -/
  wire : List Byte
  /-- Record: the transport events, oldest first (20_memory.md R75). Log 20. -/
  trace : List Event
  deriving DecidableEq, Repr

/-- The host side of the register port and the reset input. -/
structure HostSide where
  /-- The pending inputs, the next one first. Log 15. -/
  inputs : List Input
  /-- Record: the values of the host reads, oldest first (30_encoding.md R104). Log 20. -/
  reads : List Word
  /-- Schedule: how many transitions the running operation makes before each coming host access; when the
  list ends it runs to its end (10_state.md R38, R42). Log 4. -/
  pace : List Nat
  /-- The coming samples of `rst`; when the list ends it stays low (70_reset_and_hazards.md R280). Log 16. -/
  rstPin : List Bool
  deriving DecidableEq, Repr

/-- The state: the block (`regs`, `status`, `seq`, `buf`, `acc`), its parameters, its surroundings (`bus`,
`io`), and the counter of the free values drawn so far. -/
structure State where
  /-- The parameters of 00_scope.md R6. Log 8. -/
  cfg : Config
  /-- The host registers. -/
  regs : Regs
  /-- STATUS. -/
  status : Status
  /-- The sequencer. -/
  seq : Seq
  /-- The byte files. -/
  buf : Buffers
  /-- CK8.ACC (10_state.md R47). -/
  acc : Byte
  /-- The transport. -/
  bus : Bus
  /-- The host side. -/
  io : HostSide
  /-- The model's own counter: how many free values were drawn. Log 2. -/
  draws : Nat
  deriving DecidableEq, Repr

/-- Why the machine stops with a fault: never. The failures of the block are result codes
(60_exceptions.md R240), and none makes it stop for good (R253), so the type has no constructor. -/
inductive Fault where
  deriving DecidableEq, Repr

/-- Why an instruction or a presented value is refused. -/
inductive Refusal where
  /-- Raised by `exec` for an instruction without a meaning; no arm raises it. Safe. -/
  | notModelled (mnemonic : String)
  /-- Raised by REG_WRITE, ACTION, RESET and SYNC_WRITE: "This block gives them no pseudo-operation ... A
  model should refuse these four at the pseudo-operation layer" (43_bus_instructions.md R205). Safe. Log 11. -/
  | noPseudoOperation (code : Byte)
  /-- Raised by a bus instruction for an address "the toolchain refuses" (43_bus_instructions.md R219).
  Safe. Log 10. -/
  | toolchainAddress (a : Byte)
  /-- Raised by WRITE for a number of data bytes outside 1 to 252 (43_bus_instructions.md R202, R212), which
  has no packet (30_encoding.md R91). Safe. Log 10. -/
  | toolchainLength (k : Nat)
  /-- Raised by `step` for a presented packet that is no bus instruction of the opcode table
  (30_encoding.md R90, R95). Safe. Log 10. -/
  | noInstruction (why : Reject)
  deriving DecidableEq, Repr

/-- Table 10-2: the registers after reset (10_state.md R50). -/
def Regs.reset : Regs :=
  { devaddr := 0, instr := 0, plen := 0, explen := 0, xlen := 0, xexp := 0, rxlen := 0, ckout := 0
    bufidx := 0 }

/-- Table 10-2: STATUS after reset. -/
def Status.reset : Status :=
  { busy := false, done := false, anom := false, retried := false, code := 0 }

/-- Table 10-2: PHASE, ATT, OPL and the byte counters after reset; the rest DESIGN CHOICE (log 6, log 7). -/
def Seq.reset : Seq :=
  { phase := .idle, att := false, opl := 0, rsvd := false, txSeq := [], txCnt := 0, echoCnt := 0
    respCnt := 0, turnTimer := 0, backoffTimer := 0 }

/-- Table 10-2: every LASTERR entry 0x80 (nothing listed), the three buffers unspecified (nothing listed). -/
def Buffers.reset : Buffers := { lasterr := [], pbuf := [], txf := [], rxbuf := [] }

/-- The state right after reset (10_state.md R50, Table 10-2), with the parameters of Table 00-1 and with
surroundings in which nothing is pending (DESIGN CHOICE, log 1, 4, 5, 15, 16, 20). -/
def State.reset : State :=
  { cfg := Config.hdx, regs := Regs.reset, status := Status.reset, seq := Seq.reset
    buf := Buffers.reset, acc := 0
    bus := { rxq := [], arrivals := [], takes := [], txHung := false, wire := [], trace := [] }
    io := { inputs := [], reads := [], pace := [], rstPin := [] }
    draws := 0 }

end Sys2Proof.Machine
end

