-- ==== Sys2Proof/Machine/Ops.lean ====
section
/-! DEFINITION. The named operations over the byte files, the transport and the end of an operation: the
primitives of 00_scope.md R8. -/

namespace Sys2Proof.Machine

/-! ## Byte files: lists of (index, byte) in canonical form -/

/-- The listed byte at index a. -/
def Memory.find : List Host.Cell → Nat → Option Byte
  | [], _ => none
  | (b, v) :: m, a => if a = b then some v else Memory.find m a

/-- Lists v at index a, in rising order of index. -/
def Memory.put : List Host.Cell → Nat → Byte → List Host.Cell
  | [], a, v => [(a, v)]
  | (b, w) :: m, a, v =>
    if a < b then (a, v) :: (b, w) :: m
    else if a = b then (a, v) :: m
    else (b, w) :: Memory.put m a v

/-- Unlists index a. -/
def Memory.erase : List Host.Cell → Nat → List Host.Cell
  | [], _ => []
  | (b, w) :: m, a => if a = b then m else (b, w) :: Memory.erase m a

/-- Writes v at index a, where an unlisted index reads as `d` (`none`: as no value). -/
def Memory.write (d : Option Byte) (m : List Host.Cell) (a : Nat) (v : Byte) : List Host.Cell :=
  if d = some v then Memory.erase m a else Memory.put m a v

/-- Whether every listed index is at least `lo` and they rise strictly. -/
def Memory.rising : Nat → List Host.Cell → Bool
  | _, [] => true
  | lo, (b, _) :: m => lo ≤ b && Memory.rising (b + 1) m

/-- The canonical form of a byte file of `size` entries whose unlisted entries read as `d`: indexes rising
strictly and below `size`, no entry equal to `d`. -/
def Memory.wf (d : Option Byte) (size : Nat) (m : List Host.Cell) : Bool :=
  Memory.rising 0 m && m.all (fun c => c.1 < size) && m.all (fun c => d != some c.2)

/-- `MemWrite(S:i, |s|, s)` on a buffer (00_scope.md R8). -/
def Memory.writeSeq (m : List Host.Cell) (i : Nat) : List Byte → List Host.Cell
  | [] => m
  | v :: s => Memory.writeSeq (Memory.put m i v) (i + 1) s

/-- The byte of a buffer entry, with the counter of free values: an unwritten entry reads as a fresh free
value (10_state.md R50). -/
def drawEntry (e : Option Byte) (k : Nat) : Byte × Nat :=
  match e with
  | some v => (v, k)
  | none => (Config.freeByte k, k + 1)

/-- `MemRead(S:i, n)` on a buffer (00_scope.md R8), with the counter of free values. -/
def Memory.readSeq (m : List Host.Cell) (i : Nat) : Nat → Nat → List Byte × Nat
  | 0, k => ([], k)
  | n + 1, k =>
    let e := drawEntry (Memory.find m i) k
    let rest := Memory.readSeq m (i + 1) n e.2
    (e.1 :: rest.1, rest.2)

/-! ## The LASTERR file -/

/-- `LASTERR[a]` (10_state.md R43); an address without an entry reads as NO_STATUS (R31). -/
def lastErr (s : State) (a : Nat) : Byte :=
  if a < s.cfg.naddr then (Memory.find s.buf.lasterr a).getD s.cfg.noStatus
  else s.cfg.noStatus

/-- `LASTERR[a] <- e` (10_state.md R43); an address without an entry keeps none. -/
def setLastErr (s : State) (a : Nat) (e : Byte) : State :=
  if a < s.cfg.naddr then
    { s with buf.lasterr := Memory.write (some s.cfg.noStatus) s.buf.lasterr a e }
  else s

/-! ## The transport -/

/-- Records a transport event (20_memory.md R75). -/
def logEvent (e : Event) (s : State) : State := { s with bus.trace := s.bus.trace ++ [e] }

/-- How many of `rem` bytes the transport takes at this visit of TX, and the visits left. -/
def takeNow (rem : Nat) (takes : List Nat) (hung : Bool) : Nat × List Nat :=
  match rem, takes with
  | 0, ts => (0, ts)
  | _ + 1, k :: ts => (min k rem, ts)
  | _ + 1, [] => (if hung then 0 else rem, [])

/-- `RxRead(n)` (20_memory.md R69): what arrived joins the receive queue, and the first bytes of the queue,
at most n, are returned and removed; `RxRead(0)` removes nothing. -/
def rxRead (n : Nat) (s : State) : List Byte × State :=
  if n = 0 then ([], logEvent (.rxRead 0 []) s)
  else
    let q := s.bus.rxq ++ s.bus.arrivals.headD []
    (q.take n,
      logEvent (.rxRead n (q.take n))
        { s with bus.rxq := q.drop n, bus.arrivals := s.bus.arrivals.tail })

/-! ## Start and end of an operation

What a processor does in taking an exception and in returning from one is here the end of an operation with
a result code and the next accepted GO (60_exceptions.md R240, R251, R252). -/

/-- Result codes (60_exceptions.md Table 60-1). -/
def codeOk : BitVec 4 := 0
/-- NO_RESP (R241). -/
def codeNoResp : BitVec 4 := 1
/-- DEV_ERR (R242). -/
def codeDevErr : BitVec 4 := 2
/-- BAD_CKSUM (R243). -/
def codeBadCksum : BitVec 4 := 3
/-- BAD_CMD (R245). -/
def codeBadCmd : BitVec 4 := 4

/-- The end of an operation (10_state.md R42): CODE is written, BUSY falls, DONE rises, PHASE is IDLE. The
one way a failure reaches the host (60_exceptions.md R240, R251). -/
def endOperation (code : BitVec 4) (s : State) : State :=
  { s with status.code := code, status.busy := false, status.done := true, seq.phase := .idle }

/-- An accepted GO (10_state.md R21, R41): BUSY is set, DONE, ANOM, RETRIED and CODE are cleared, the word
is latched, ATT is 0, the sequencer leaves IDLE. -/
def acceptGo (opl : BitVec 3) (rsvd : Bool) (s : State) : State :=
  { s with
    status := { busy := true, done := false, anom := false, retried := false, code := 0 }
    seq.phase := .build, seq.att := false, seq.opl := opl, seq.rsvd := rsvd }

/-- Reset (70_reset_and_hazards.md R280): the whole block takes the values of Table 10-2. Its parameters, and
everything outside it (R281), stay. -/
def resetBlock (s : State) : State :=
  { s with
    regs := Regs.reset, status := Status.reset, seq := Seq.reset, buf := Buffers.reset, acc := 0 }

end Sys2Proof.Machine
end

