-- ==== Sys2Proof/Machine/Flags.lean ====
section
/-! DEFINITION. The status bits: the STATUS word, the anomaly flag, the levels of the output pins
(10_state.md R22, R33 to R39). The block has no arithmetic flag (R37). -/

namespace Sys2Proof.Machine

/-- A bit as a word with that bit in place 0. -/
def bitWord (b : Bool) : Word := (BitVec.ofBool b).setWidth 16

/-- STATUS (R22): CODE in 11:8, RETRIED 3, ANOM 2, DONE 1, BUSY 0; reserved bits 0. -/
def statusWord (t : Status) : Word :=
  (t.code.setWidth 16 <<< 8) ||| (bitWord t.retried <<< 3) ||| (bitWord t.anom <<< 2) |||
    (bitWord t.done <<< 1) ||| bitWord t.busy

/-- STATUS while BUSY = 1 (R22): CODE, RETRIED and ANOM from the free word `f`, BUSY and DONE exact. -/
def statusWordBusy (t : Status) (f : Word) : Word :=
  (f &&& 0x0F0C) ||| (bitWord t.done <<< 1) ||| bitWord t.busy

/-- The anomaly condition (41_exchange.md R154): the echo read back is not the sequence written. -/
def anomaly (tx echo : List Byte) : Bool := echo != tx

/-- ANOM after an echo read: set by an anomaly, never cleared during an operation (10_state.md R34). -/
def markAnomaly (tx echo : List Byte) (s : State) : State :=
  { s with status.anom := s.status.anom || anomaly tx echo }

/-- The pin `busy` (60_exceptions.md R249). -/
def busyPin (s : State) : Bool := s.status.busy
/-- The pin `done` (60_exceptions.md R249). -/
def donePin (s : State) : Bool := s.status.done
/-- The pin `tx_valid` (10_state.md R39, informative): a byte is offered to the transport. -/
def txValidPin (s : State) : Bool :=
  decide (s.seq.phase = .tx) && decide (s.seq.txCnt < s.seq.txSeq.length)
/-- The pin `rd_req` (10_state.md R39, informative): a read attempt of at least one byte is asked for. -/
def rdReqPin (s : State) : Bool :=
  (decide (s.seq.phase = .echo) && decide (s.seq.txSeq ≠ [])) || decide (s.seq.phase = .resp)
/-- The pin `rx_ready` (10_state.md R39, informative): the block takes received bytes. -/
def rxReadyPin (s : State) : Bool := decide (s.seq.phase = .echo) || decide (s.seq.phase = .resp)

end Sys2Proof.Machine
end

