-- ==== Sys2Proof/Machine/Operands.lean ====
section
/-! DEFINITION. Operands: the latched CMD word, the legality of a descriptor, lengths (30_encoding.md R97 to
R100, 60_exceptions.md R245), and the host register port (10_state.md R20 to R32, R38). -/

namespace Sys2Proof.Machine

/-- The four host operations (30_encoding.md Table 30-5). -/
inductive HostOp where
  | xchg | cmd | cmdr | cks
  deriving DecidableEq, Repr

/-- The OP field of an operation (Table 30-5). -/
def HostOp.bits : HostOp → BitVec 2
  | .xchg => 0
  | .cmd => 1
  | .cmdr => 2
  | .cks => 3

/-- The operation of an OP field; all four values are assigned (R100). -/
def HostOp.ofBits (b : BitVec 2) : HostOp :=
  if b = 0 then .xchg else if b = 1 then .cmd else if b = 2 then .cmdr else .cks

/-- The running operation, from OPL. -/
def curOp (s : State) : HostOp := HostOp.ofBits (oplOp s.seq.opl)

/-- The NORESP bit of the running operation, from OPL. -/
def curNoresp (s : State) : Bool := oplNoresp s.seq.opl

/-- The conditions (b), (c), (d) of R245 for CMD, CMDR and CKS. -/
def badDescriptor (noresp : Bool) (s : State) : Bool :=
  s.regs.devaddr == 0xFF || decide (s.cfg.pmax < s.regs.plen.toNat) ||
    (!noresp && decide (s.cfg.emax < s.regs.explen.toNat))

/-- The condition (e) of R245 for XCHG. -/
def badLengths (s : State) : Bool :=
  decide (s.cfg.xmax < s.regs.xlen.toNat) || decide (s.cfg.xmax < s.regs.xexp.toNat)

/-- BAD_CMD: whether the accepted operation cannot be carried out (R245). -/
def badCmd (s : State) : Bool :=
  s.seq.rsvd ||
    match curOp s with
    | .xchg => badLengths s
    | .cmd => badDescriptor (curNoresp s) s
    | .cmdr => badDescriptor (curNoresp s) s
    | .cks => badDescriptor (curNoresp s) s

/-- XLEN of a frame with n payload bytes, n + OVH (R98). -/
def frameLen (c : Config) (n : Nat) : Len := BitVec.ofNat 9 (n + c.ovh)

/-- XEXP: 0 with NORESP, else OVH + EXPLEN (R98). -/
def respLen (c : Config) (noresp : Bool) (explen : Byte) : Len :=
  if noresp then 0 else BitVec.ofNat 9 (c.ovh + explen.toNat)

/-! ## The host register port -/

/-- The numbers of the host registers (10_state.md Table 10-1). -/
def rCmd : RegNo := 0
/-- STATUS. -/
def rStatus : RegNo := 1
/-- DEVADDR. -/
def rDevaddr : RegNo := 2
/-- INSTR. -/
def rInstr : RegNo := 3
/-- PLEN. -/
def rPlen : RegNo := 4
/-- EXPLEN. -/
def rExplen : RegNo := 5
/-- XLEN. -/
def rXlen : RegNo := 6
/-- XEXP. -/
def rXexp : RegNo := 7
/-- RXLEN. -/
def rRxlen : RegNo := 8
/-- CKOUT. -/
def rCkout : RegNo := 9
/-- LASTERR. -/
def rLasterr : RegNo := 10
/-- BUFIDX. -/
def rBufidx : RegNo := 11
/-- PAYDATA. -/
def rPaydata : RegNo := 12
/-- TXDATA. -/
def rTxdata : RegNo := 13
/-- RXDATA. -/
def rRxdata : RegNo := 14

/-- A write through a data port: ignored beyond the buffer (10_state.md R32). -/
def portWrite (size : Nat) (m : List Host.Cell) (i : Nat) (v : Byte) : List Host.Cell :=
  if i < size then Memory.put m i v else m

/-- A read through a data port: 0 beyond the buffer (10_state.md R32). -/
def portRead (size : Nat) (m : List Host.Cell) (i : Nat) (k : Nat) : Byte × Nat :=
  if i < size then drawEntry (Memory.find m i) k else (0, k)

/-- A host write of a register other than CMD: truncated to the field (10_state.md R20), ignored while
BUSY = 1 (R38) and by read-only registers. -/
def writeReg (r : RegNo) (v : Word) (s : State) : State :=
  if s.status.busy then s
  else if r = rDevaddr then { s with regs.devaddr := v.setWidth 8 }
  else if r = rInstr then { s with regs.instr := v.setWidth 8 }
  else if r = rPlen then { s with regs.plen := v.setWidth 8 }
  else if r = rExplen then { s with regs.explen := v.setWidth 8 }
  else if r = rXlen then { s with regs.xlen := v.setWidth 9 }
  else if r = rXexp then { s with regs.xexp := v.setWidth 9 }
  else if r = rBufidx then { s with regs.bufidx := v.setWidth 9 }
  else if r = rPaydata then
    { s with buf.pbuf := portWrite s.cfg.pmax s.buf.pbuf s.regs.bufidx.toNat (v.setWidth 8) }
  else if r = rTxdata then
    { s with buf.txf := portWrite s.cfg.xmax s.buf.txf s.regs.bufidx.toNat (v.setWidth 8) }
  else s

/-- The value of a register read while BUSY = 1 (10_state.md R38), from the free word `f`: DEVADDR, INSTR,
PLEN, EXPLEN and BUFIDX their stored values, STATUS as R22 says, CMD and register 15 zero (R20, R21), every
other field any value (log 3). -/
def readRegBusy (r : RegNo) (f : Word) (s : State) : Word :=
  if r = rStatus then statusWordBusy s.status f
  else if r = rDevaddr then s.regs.devaddr.setWidth 16
  else if r = rInstr then s.regs.instr.setWidth 16
  else if r = rPlen then s.regs.plen.setWidth 16
  else if r = rExplen then s.regs.explen.setWidth 16
  else if r = rBufidx then s.regs.bufidx.setWidth 16
  else if r = rXlen ∨ r = rXexp ∨ r = rRxlen then f &&& 0x01FF
  else if r = rCkout ∨ r = rLasterr ∨ r = rPaydata ∨ r = rTxdata ∨ r = rRxdata then f &&& 0x00FF
  else 0

/-- The value of a register read while BUSY = 0 (10_state.md R20 to R32), with the counter of free values. -/
def readRegIdle (r : RegNo) (s : State) : Word × Nat :=
  if r = rStatus then (statusWord s.status, s.draws)
  else if r = rDevaddr then (s.regs.devaddr.setWidth 16, s.draws)
  else if r = rInstr then (s.regs.instr.setWidth 16, s.draws)
  else if r = rPlen then (s.regs.plen.setWidth 16, s.draws)
  else if r = rExplen then (s.regs.explen.setWidth 16, s.draws)
  else if r = rXlen then (s.regs.xlen.setWidth 16, s.draws)
  else if r = rXexp then (s.regs.xexp.setWidth 16, s.draws)
  else if r = rRxlen then (s.regs.rxlen.setWidth 16, s.draws)
  else if r = rCkout then (s.regs.ckout.setWidth 16, s.draws)
  else if r = rLasterr then ((lastErr s s.regs.devaddr.toNat).setWidth 16, s.draws)
  else if r = rBufidx then (s.regs.bufidx.setWidth 16, s.draws)
  else if r = rPaydata then
    let e := portRead s.cfg.pmax s.buf.pbuf s.regs.bufidx.toNat s.draws
    (e.1.setWidth 16, e.2)
  else if r = rTxdata then
    let e := portRead s.cfg.xmax s.buf.txf s.regs.bufidx.toNat s.draws
    (e.1.setWidth 16, e.2)
  else if r = rRxdata then
    let e := portRead s.cfg.xmax s.buf.rxbuf s.regs.bufidx.toNat s.draws
    (e.1.setWidth 16, e.2)
  else (0, s.draws)

/-- The value of a register as the host reads it, with the counter of free values. -/
def readReg (r : RegNo) (s : State) : Word × Nat :=
  if s.status.busy then (readRegBusy r (Config.freeWord s.draws) s, s.draws + 1) else readRegIdle r s

/-- `rd REG`: the value is recorded as the statement's result; nothing else changes (10_state.md R20). -/
def recordRead (r : RegNo) (s : State) : State :=
  { s with io.reads := s.io.reads ++ [(readReg r s).1], draws := (readReg r s).2 }

end Sys2Proof.Machine
end

