-- ==== Sys2Proof/Machine/Sequencer.lean ====
section
/-! DEFINITION. The sequencer: one definition per phase of 10_state.md R41, the transition function, and
how far it gets between two host accesses. -/

namespace Sys2Proof.Machine

/-- One step of the CK8 unit (30_encoding.md R102; 40_checksum_frame.md R130 to R132). -/
def ckStep (clr en : Bool) (din acc : Byte) : Byte :=
  if clr then 0 else if en then acc + din else acc

/-- `ck_out`, at every step `~ACC` (40_checksum_frame.md R133). -/
def ckOut (acc : Byte) : Byte := ~~~acc

/-- The unit after CK.CLR and then CK.ADD of every byte of s, in order (40_checksum_frame.md R133, R137). -/
def ckRun (acc : Byte) (s : List Byte) : Byte :=
  s.foldl (fun x b => ckStep false true b x) (ckStep true false 0 acc)

/-- BUILD's pseudocode for a legal descriptor (40_checksum_frame.md R137). -/
def buildFrame (s : State) : State :=
  let n := s.regs.plen.toNat
  let p := Memory.readSeq s.buf.pbuf 0 n s.draws
  let f := framed s.cfg s.regs.devaddr s.regs.instr p.1
  { s with
    buf.txf := Memory.writeSeq s.buf.txf 0 f
    regs.xlen := frameLen s.cfg n
    regs.xexp := respLen s.cfg (curNoresp s) s.regs.explen
    regs.ckout := f.getD (n + 5) 0
    acc := ckRun s.acc (covered s.regs.devaddr s.regs.instr p.1)
    draws := p.2 }

/-- The start of an exchange (41_exchange.md R150, R151; 42_command.md R172): RXLEN is 0, the sequence tx is
`MemRead(TXF:0, x[XLEN])`, the byte counters start, PHASE is TX. -/
def startExchange (s : State) : State :=
  let t := Memory.readSeq s.buf.txf 0 s.regs.xlen.toNat s.draws
  { s with
    regs.rxlen := 0
    seq.phase := .tx, seq.txSeq := t.1, seq.txCnt := 0, seq.echoCnt := 0, seq.respCnt := 0
    draws := t.2 }

/-- BUILD (10_state.md R41): BAD_CMD ends the operation before anything else is written (60_exceptions.md
R245); CKS ends it with the frame built (40_checksum_frame.md R138); the others go to TX. -/
def phaseBuild (s : State) : State :=
  if badCmd s then endOperation codeBadCmd s
  else
    match curOp s with
    | .xchg => startExchange s
    | .cmd => startExchange (buildFrame s)
    | .cmdr => startExchange (buildFrame s)
    | .cks => endOperation codeOk { buildFrame s with regs.rxlen := 0 }

/-- TX (41_exchange.md R152): the transport takes bytes of tx in order; when it has taken all of them, the
`TxWrite` is complete. -/
def phaseTx (s : State) : State :=
  let k := takeNow (s.seq.txSeq.length - s.seq.txCnt) s.bus.takes s.bus.txHung
  let s' : State :=
    { s with
      bus.wire := s.bus.wire ++ (s.seq.txSeq.drop s.seq.txCnt).take k.1
      bus.takes := k.2
      seq.txCnt := s.seq.txCnt + k.1 }
  if s.seq.txSeq.length ≤ s.seq.txCnt + k.1 then
    logEvent (.txWrite s.seq.txSeq) { s' with seq.phase := .echo }
  else s'

/-- Where the exchange goes after the echo read (10_state.md R41; 41_exchange.md R155, R156). -/
def afterEcho (s : State) : State :=
  if s.regs.xexp = 0 then
    match curOp s with
    | .xchg => endOperation codeOk s
    | .cmd => { s with seq.phase := .check }
    | .cmdr => { s with seq.phase := .check }
    | .cks => { s with seq.phase := .check }
  else { s with seq.phase := .turn, seq.turnTimer := s.cfg.tTurn }

/-- ECHO (41_exchange.md R153, R154): one `RxRead(|tx|)`, compared with tx and dropped. -/
def phaseEcho (s : State) : State :=
  let r := rxRead s.seq.txSeq.length s
  afterEcho (markAnomaly s.seq.txSeq r.1 { r.2 with seq.echoCnt := r.1.length })

/-- TURN (41_exchange.md R156): `Delay(T_TURN)`. -/
def phaseTurn (s : State) : State :=
  logEvent (.delay s.cfg.tTurn) { s with seq.phase := .resp, seq.turnTimer := 0 }

/-- Stores what the response read returned (41_exchange.md R156, R157). -/
def storeResponse (rx : List Byte) (s : State) : State :=
  { s with
    buf.rxbuf := Memory.writeSeq s.buf.rxbuf 0 rx
    regs.rxlen := BitVec.ofNat 9 rx.length
    seq.respCnt := rx.length }

/-- Where the exchange goes after the response read (10_state.md R41). -/
def afterResponse (s : State) : State :=
  match curOp s with
  | .xchg => endOperation codeOk s
  | .cmd => { s with seq.phase := .check }
  | .cmdr => { s with seq.phase := .check }
  | .cks => { s with seq.phase := .check }

/-- RESP (41_exchange.md R156, R157): exactly one `RxRead(x[XEXP])`. -/
def phaseResp (s : State) : State :=
  let r := rxRead s.regs.xexp.toNat s
  afterResponse (storeResponse r.1 r.2)

/-- The checks of an attempt on the response rx (42_command.md R172): length, checksum, error byte, in this
order (60_exceptions.md R250). -/
def verdict (c : Config) (expn : Nat) (rx : List Byte) : BitVec 4 :=
  if rx.length ≠ expn then codeNoResp
  else if c.rxck && !verify8 ((rx.take (expn - 1)).drop 2) (rx.getD (expn - 1) 0) then codeBadCksum
  else if rx.getD 4 0 ≠ c.noError then codeDevErr
  else codeOk

/-- What a verdict does to the LASTERR entry of the addressed device (42_command.md R174, R175, R180): a
validated response writes its error byte, any other outcome leaves the entry. -/
def noteError (code : BitVec 4) (rx : List Byte) (s : State) : State :=
  if code = codeOk ∨ code = codeDevErr then setLastErr s s.regs.devaddr.toNat (rx.getD 4 0) else s

/-- Where an attempt with result `code` goes (10_state.md R41; 42_command.md R176): the end of the operation,
or BACKOFF for a first attempt of CMDR that failed. -/
def afterAttempt (code : BitVec 4) (s : State) : State :=
  if code = codeOk ∨ curOp s ≠ .cmdr ∨ s.seq.att then endOperation code s
  else { s with seq.phase := .backoff, seq.backoffTimer := s.cfg.tBackoff }

/-- CHECK (10_state.md R41, R46; 42_command.md R172, R173): with NORESP the attempt is OK; else the response
is RXBUF[0 .. RXLEN-1]. -/
def phaseCheck (s : State) : State :=
  if curNoresp s then afterAttempt codeOk s
  else
    let rx := Memory.readSeq s.buf.rxbuf 0 s.regs.rxlen.toNat s.draws
    let code := verdict s.cfg s.regs.xexp.toNat rx.1
    afterAttempt code (noteError code rx.1 { s with draws := rx.2 })

/-- BACKOFF (42_command.md R176): `Delay(T_BACKOFF)`, then the second attempt; RETRIED is set. -/
def phaseBackoff (s : State) : State :=
  startExchange
    (logEvent (.delay s.cfg.tBackoff)
      { s with seq.att := true, seq.backoffTimer := 0, status.retried := true })

/-- One transition of the sequencer (10_state.md R41). -/
def seqStep (s : State) : State :=
  match s.seq.phase with
  | .idle => s
  | .build => phaseBuild s
  | .tx => phaseTx s
  | .echo => phaseEcho s
  | .turn => phaseTurn s
  | .resp => phaseResp s
  | .check => phaseCheck s
  | .backoff => phaseBackoff s

/-- n transitions. -/
def seqRun : Nat → State → State
  | 0, s => s
  | n + 1, s => seqRun n (seqStep s)

/-- The most transitions an operation makes whose `TxWrite`s are each taken in one visit of TX: BUILD; TX,
ECHO, TURN, RESP, CHECK twice; BACKOFF (42_command.md R179). -/
def opTransitions : Nat := 12

/-- The running operation makes as many transitions as it can: to its end, unless the transport never takes
a `TxWrite`'s bytes (60_exceptions.md R253). -/
def seqToEnd (s : State) : State := seqRun (opTransitions + s.bus.takes.length) s

/-- The transitions the running operation makes until the next host access: as many as the schedule says,
and when the schedule has ended, all (log 4). -/
def advance (s : State) : State :=
  if s.status.busy then
    match s.io.pace with
    | [] => seqToEnd s
    | n :: ps => seqRun n { s with io.pace := ps }
  else s

/-- The polls of `wait` (30_encoding.md R104): transitions as the schedule says until BUSY is 0, and after the
schedule's end all that are left. -/
def pollUntilDone : List Nat → State → State
  | [], s => if s.status.busy then seqToEnd { s with io.pace := [] } else { s with io.pace := [] }
  | n :: ps, s =>
    if s.status.busy then pollUntilDone ps (seqRun n s) else { s with io.pace := n :: ps }

/-- A write of CMD (10_state.md R21): nothing without GO or while BUSY = 1, else an accepted GO. -/
def writeCmd (w : Word) (s : State) : State :=
  if s.status.busy ∨ cmdGo w = false then s else acceptGo (cmdOpl w) (cmdReserved w) s

/-- One host operation: its GO, and the sequencer's transitions until the next host access. -/
def operate (op : HostOp) (noresp : Bool) (s : State) : State :=
  advance (writeCmd (encodeCmd op.bits noresp) s)

end Sys2Proof.Machine
end

