-- ==== Sys2Proof/Machine/HostPort.lean ====
section
/-! DEFINITION. The statements of a host program (30_encoding.md R104, Table 30-7) as transitions of the
machine, and a sequence of them. After each host access the running operation advances (log 4). -/

namespace Sys2Proof.Machine

/-- `wr REG, v` (10_state.md R20, R21). -/
def hostWrite (r : RegNo) (v : Word) (s : State) : State :=
  advance (if r = rCmd then writeCmd v s else writeReg r v s)

/-- `rd REG` (10_state.md R20). -/
def hostRead (r : RegNo) (s : State) : State := advance (recordRead r s)

/-- `rxb i`, if the operation before ended with CODE = 0 (43_bus_instructions.md R211, R218). -/
def hostRxbOk (i : Nat) (s : State) : State :=
  if s.status.busy = false ∧ s.status.code = codeOk then
    hostRead rRxdata (hostWrite rBufidx (BitVec.ofNat 16 i) s)
  else s

/-- The `wait` statement as far as it gets: polls until the operation is over. -/
def hostWait (s : State) : State := pollUntilDone s.io.pace s

/-- Puts inputs before the pending ones. -/
def pushInputs (is : List Input) (s : State) : State :=
  { s with io.inputs := is ++ s.io.inputs }

/-- A statement that always completes; the drives of the CK8 port and the packets of other bus instructions
stand in no expansion. -/
def hostStmt (i : Input) (s : State) : State :=
  match i with
  | .write r v => hostWrite r v s
  | .read r => hostRead r s
  | .rxbOk i => hostRxbOk i s
  | .wait => hostWait s
  | .ck _ _ => s
  | .packet _ => s

/-- A sequence of statements. At a `wait` whose operation does not end (60_exceptions.md R253) it stops, and
the rest of the sequence, from that `wait` on, becomes pending again. -/
def runStmts : List Input → State → State
  | [], s => s
  | i :: is, s =>
    let s' := hostStmt i s
    if i = .wait ∧ s'.status.done = false then pushInputs (i :: is) s' else runStmts is s'

/-- `pay i, b`: `wr BUFIDX, i` then `wr PAYDATA, b` (Table 30-7). -/
def stmtPay (i : Nat) (b : Byte) : List Input :=
  [.write rBufidx (BitVec.ofNat 16 i), .write rPaydata (b.setWidth 16)]

/-- `txb i, b`: `wr BUFIDX, i` then `wr TXDATA, b` (Table 30-7). -/
def stmtTxb (i : Nat) (b : Byte) : List Input :=
  [.write rBufidx (BitVec.ofNat 16 i), .write rTxdata (b.setWidth 16)]

/-- `rxb i`: `wr BUFIDX, i` then `rd RXDATA` (Table 30-7). -/
def stmtRxb (i : Nat) : List Input := [.write rBufidx (BitVec.ofNat 16 i), .read rRxdata]

/-- The statements XCHG, CMD, CMDR, CKS and their .NR forms (Table 30-7). -/
def stmtOp (op : HostOp) (noresp : Bool) : Input := .write rCmd (encodeCmd op.bits noresp)

end Sys2Proof.Machine
end

