-- ==== Sys2Proof/Machine/BusInstr.lean ====
section
/-! DEFINITION. Fourth family: the bus instructions (43_bus_instructions.md R200 to R207). The block does
not decode INSTR (R206); a bus instruction's meaning is the host program it expands to (R210 to R212),
carried by CMDR (R222, log 9). -/

namespace Sys2Proof.Machine

/-- `pay 0, p[0]`; `pay 1, p[1]`; and so on from index i. -/
def payloadStmts (i : Nat) : List Byte → List Input
  | [] => []
  | b :: p => stmtPay i b ++ payloadStmts (i + 1) p

/-- The descriptor writes of an expansion, in the order of R210 to R212. -/
def descriptorStmts (a i : Byte) (p : List Byte) (explen : Byte) : List Input :=
  [.write rDevaddr (a.setWidth 16), .write rInstr (i.setWidth 16),
    .write rPlen (BitVec.ofNat 16 p.length)] ++
    payloadStmts 0 p ++ [.write rExplen (explen.setWidth 16)]

/-- The end of every expansion: `CMDR` or `CMDR.NR`, `wait`, `rd STATUS`. -/
def carryStmts (noresp : Bool) : List Input := [stmtOp .cmdr noresp, .wait, .read rStatus]

/-- `PING a` (R210). -/
def pingStmts (a : Byte) : List Input := descriptorStmts a 0x01 [] 0 ++ carryStmts false

/-- `READ a, r, n` (R211): the payload bytes are read only if CODE = 0. -/
def readStmts (a r n : Byte) : List Input :=
  descriptorStmts a 0x02 [r, n] n ++ carryStmts false ++
    (List.range n.toNat).map (fun j => .rxbOk (5 + j))

/-- `WRITE a, r, d0, ...` (R212): `CMDR.NR` exactly for the broadcast address (R219). -/
def writeStmts (c : Config) (a r : Byte) (ds : List Byte) : List Input :=
  descriptorStmts a 0x03 (r :: ds) 0 ++ carryStmts (a == c.bcast)

/-- A pseudo-operation that needs an answer: the toolchain refuses 254 and 255 (R219). -/
def runAnswering (a : Byte) (is : List Input) (s : State) : Host.Outcome State Fault Refusal :=
  if answeringAddress a then .next (runStmts is s) else .refused (.toolchainAddress a)

/-- A pseudo-operation of the WRITE family with k data bytes: the toolchain refuses 255 (R219), and there
is no packet unless 1 <= k <= 252 (R212). -/
def runWriting (a : Byte) (k : Nat) (is : List Input) (s : State) :
    Host.Outcome State Fault Refusal :=
  if busAddress a = false then .refused (.toolchainAddress a)
  else if k = 0 ∨ 252 < k then .refused (.toolchainLength k)
  else .next (runStmts is s)

/-- PING (R200, R210). -/
def execPing (a : Byte) (s : State) : Host.Outcome State Fault Refusal :=
  runAnswering a (pingStmts a) s

/-- READ (R201, R211). An n of 254 or 255 is written to EXPLEN and ends BAD_CMD (60_exceptions.md R245 d,
log 10). DEDUCED: an n of 0 runs and expects a bare status packet, as R201 and R211 say, where decision D23
(92_eei_decisions.md) gives n as 1..253 (log 10). -/
def execRead (a r n : Byte) (s : State) : Host.Outcome State Fault Refusal :=
  runAnswering a (readStmts a r n) s

/-- WRITE (R202, R212). -/
def execWrite (a r : Byte) (ds : List Byte) (s : State) : Host.Outcome State Fault Refusal :=
  runWriting a ds.length (writeStmts s.cfg a r ds) s

/-- WRITE1 (R203, R215): WRITE with one data byte. -/
def execWrite1 (a r v : Byte) (s : State) : Host.Outcome State Fault Refusal :=
  runWriting a 1 (writeStmts s.cfg a r [v]) s

/-- WRITE2 (R204, R216): WRITE with the low and then the high byte of v. -/
def execWrite2 (a r : Byte) (v : Word) (s : State) : Host.Outcome State Fault Refusal :=
  runWriting a 2 (writeStmts s.cfg a r [lowByte v, highByte v]) s

/-- "A model should refuse these four at the pseudo-operation layer" (R205). -/
def refuseUnimplemented (code : Byte) : Host.Outcome State Fault Refusal :=
  .refused (.noPseudoOperation code)

/-- REG_WRITE (R205). -/
def execRegWrite (_a : Byte) (_payload : List Byte) (_s : State) :
    Host.Outcome State Fault Refusal := refuseUnimplemented 0x04

/-- ACTION (R205). -/
def execAction (_a : Byte) (_payload : List Byte) (_s : State) :
    Host.Outcome State Fault Refusal := refuseUnimplemented 0x05

/-- RESET of a device (R205). -/
def execResetDevice (_a : Byte) (_payload : List Byte) (_s : State) :
    Host.Outcome State Fault Refusal := refuseUnimplemented 0x06

/-- SYNC_WRITE (R205). -/
def execSyncWrite (_a : Byte) (_payload : List Byte) (_s : State) :
    Host.Outcome State Fault Refusal := refuseUnimplemented 0x83

end Sys2Proof.Machine
end

