-- ==== Sys2Proof/Machine/Accessors.lean ====
section
/-! DEFINITION. The typed accessors (43_bus_instructions.md R213 to R219, Table 43-1): functions to
instructions, and the values they yield. -/

namespace Sys2Proof.Machine

/-- `RD1 a, r` (R213). -/
def rd1 (a r : Byte) : Instr := .read a r 1

/-- `RD2 a, r` (R214). -/
def rd2 (a r : Byte) : Instr := .read a r 2

/-- `WR1 a, r, v` (R215): a value outside 0..255 is refused by the toolchain. -/
def wr1 (a r : Byte) (v : Nat) : Option Instr :=
  if v < 256 then some (.write1 a r (BitVec.ofNat 8 v)) else none

/-- `WR2 a, r, V` (R216): a value outside 0..65535 is refused by the toolchain. -/
def wr2 (a r : Byte) (v : Nat) : Option Instr :=
  if v < 65536 then some (.write2 a r (BitVec.ofNat 16 v)) else none

/-- The device registers the spec names (20_memory.md R64, Table 20-1). -/
inductive DevReg where
  | torqueEnable | led | goalPosition | movingSpeed | torqueLimit | presentPosition | presentSpeed
  | presentLoad | presentVoltage | presentTemperature | registeredInstruction | moving | punch
  deriving DecidableEq, Repr

/-- Addresses of Table 43-1. -/
def DevReg.addr : DevReg → Byte
  | .torqueEnable => 0x18
  | .led => 0x19
  | .goalPosition => 0x1E
  | .movingSpeed => 0x20
  | .torqueLimit => 0x22
  | .presentPosition => 0x24
  | .presentSpeed => 0x26
  | .presentLoad => 0x28
  | .presentVoltage => 0x2A
  | .presentTemperature => 0x2B
  | .registeredInstruction => 0x2C
  | .moving => 0x2E
  | .punch => 0x30

/-- Whether a register of Table 43-1 has width 2. -/
def DevReg.wide : DevReg → Bool
  | .torqueEnable => false
  | .led => false
  | .goalPosition => true
  | .movingSpeed => true
  | .torqueLimit => true
  | .presentPosition => true
  | .presentSpeed => true
  | .presentLoad => true
  | .presentVoltage => false
  | .presentTemperature => false
  | .registeredInstruction => false
  | .moving => false
  | .punch => true

/-- `GET.<NAME> a` (R217). -/
def getInstr (n : DevReg) (a : Byte) : Instr := if n.wide then rd2 a n.addr else rd1 a n.addr

/-- `SET.<NAME> a, v` (R217). -/
def setInstr (n : DevReg) (a : Byte) (v : Nat) : Option Instr :=
  if n.wide then wr2 a n.addr v else wr1 a n.addr v

/-- Whether an operation has ended: BUSY has fallen and DONE has risen (00_scope.md R13, 10_state.md R33). One
that runs, a hung one among them (60_exceptions.md R253), has no outcome yet. -/
def opEnded (s : State) : Bool := !s.status.busy && s.status.done

/-- The value of RD1: `RXBUF[5]` when the carrying operation ended with CODE = 0, else none (R213, R218). -/
def rd1Value (s : State) : Option Byte :=
  if opEnded s ∧ s.status.code = codeOk then Memory.find s.buf.rxbuf 5 else none

/-- The value of RD2: `RXBUF[5] | (RXBUF[6] << 8)` when the carrying operation ended with CODE = 0, else none
(R214, R218). -/
def rd2Value (s : State) : Option Word :=
  if opEnded s ∧ s.status.code = codeOk then
    match Memory.find s.buf.rxbuf 5, Memory.find s.buf.rxbuf 6 with
    | some lo, some hi => some (join16 lo hi)
    | _, _ => none
  else none

/-- The failure a pseudo-operation yields when the carrying operation ended with CODE ≠ 0: class CODE,
instruction INSTR, device DEVADDR (R218). -/
def pseudoFailure (s : State) : Option (BitVec 4 × Byte × Byte) :=
  if opEnded s ∧ s.status.code ≠ codeOk then some (s.status.code, s.regs.instr, s.regs.devaddr)
  else none

end Sys2Proof.Machine
end

