-- ==== Sys2Proof/Machine/ChecksumUnit.lean ====
section
/-! DEFINITION. First family: the CK8 micro-operations and the operation CKS (40_checksum_frame.md). -/

namespace Sys2Proof.Machine

/-- CK.CLR (R130): ACC is 0; with `ck_en` set in the same step the byte is not added. -/
def execCkClr (en : Bool) (din : Byte) (s : State) : Host.Outcome State Fault Refusal :=
  .next { s with acc := ckStep true en din s.acc }

/-- CK.ADD (R131): ACC is u8(ACC + ck_din). -/
def execCkAdd (din : Byte) (s : State) : Host.Outcome State Fault Refusal :=
  .next { s with acc := ckStep false true din s.acc }

/-- CK.HOLD (R132): ACC is unchanged. -/
def execCkHold (din : Byte) (s : State) : Host.Outcome State Fault Refusal :=
  .next { s with acc := ckStep false false din s.acc }

/-- CKS (R138). -/
def execCks (noresp : Bool) (s : State) : Host.Outcome State Fault Refusal :=
  .next (operate .cks noresp s)

end Sys2Proof.Machine
end

