-- ==== Sys2Proof/Machine/Command.lean ====
section
/-! DEFINITION. Third family: the operations CMD and CMDR (42_command.md R170, R171). -/

namespace Sys2Proof.Machine

/-- CMD (R170): one attempt. -/
def execCmd (noresp : Bool) (s : State) : Host.Outcome State Fault Refusal :=
  .next (operate .cmd noresp s)

/-- CMDR (R171): one attempt, and one more after a failure. -/
def execCmdr (noresp : Bool) (s : State) : Host.Outcome State Fault Refusal :=
  .next (operate .cmdr noresp s)

end Sys2Proof.Machine
end

