-- ==== Sys2Proof/Machine/Exchange.lean ====
section
/-! DEFINITION. Second family: the operation XCHG (41_exchange.md R150). -/

namespace Sys2Proof.Machine

/-- XCHG (R150); NORESP is latched and ignored. -/
def execXchg (noresp : Bool) (s : State) : Host.Outcome State Fault Refusal :=
  .next (operate .xchg noresp s)

end Sys2Proof.Machine
end

