-- ==== Sys2Proof/Machine/Dispatch.lean ====
section
/-! DEFINITION. One arm per instruction. -/

namespace Sys2Proof.Machine

def exec (i : Instr) (s : State) : Host.Outcome State Fault Refusal :=
  match i with
  | .xchg noresp => Sys2Proof.Machine.execXchg noresp s
  | .cmd noresp => Sys2Proof.Machine.execCmd noresp s
  | .cmdr noresp => Sys2Proof.Machine.execCmdr noresp s
  | .cks noresp => Sys2Proof.Machine.execCks noresp s
  | .ckClr en din => Sys2Proof.Machine.execCkClr en din s
  | .ckAdd din => Sys2Proof.Machine.execCkAdd din s
  | .ckHold din => Sys2Proof.Machine.execCkHold din s
  | .ping a => Sys2Proof.Machine.execPing a s
  | .read a r n => Sys2Proof.Machine.execRead a r n s
  | .write a r ds => Sys2Proof.Machine.execWrite a r ds s
  | .write1 a r v => Sys2Proof.Machine.execWrite1 a r v s
  | .write2 a r v => Sys2Proof.Machine.execWrite2 a r v s
  | .regWrite a payload => Sys2Proof.Machine.execRegWrite a payload s
  | .action a payload => Sys2Proof.Machine.execAction a payload s
  | .resetDevice a payload => Sys2Proof.Machine.execResetDevice a payload s
  | .syncWrite a payload => Sys2Proof.Machine.execSyncWrite a payload s

end Sys2Proof.Machine
end

