-- ==== Sys2Proof/Machine/Present.lean ====
section
/-! DEFINITION. What one presented input does: an instruction is decoded and run by `exec`, the other
statements of a host program are transitions of their own. Step.lean only calls these. -/

namespace Sys2Proof.Machine

/-- A next state, with the transitions the running operation makes until the next input. -/
def thenAdvance : Host.Outcome State Fault Refusal → Host.Outcome State Fault Refusal
  | .next s => .next (advance s)
  | .fault r => .fault r
  | .refused r => .refused r

/-- A write of CMD (10_state.md R21; 30_encoding.md R100, R101): a word of Table 30-5 is its operation; a
word without GO does nothing; a word with a reserved bit set starts an operation that ends BAD_CMD. -/
def presentCmd (w : Word) (s : State) : Host.Outcome State Fault Refusal :=
  match decode (.cmdWord w) with
  | .instr i => exec i s
  | .reject _ => .next (hostWrite rCmd w s)

/-- A drive of the CK8 control port (30_encoding.md R102). -/
def presentCk (ctl : BitVec 2) (din : Byte) (s : State) : Host.Outcome State Fault Refusal :=
  match decode (.ckCtl ctl din) with
  | .instr i => thenAdvance (exec i s)
  | .reject r => .refused (.noInstruction r)

/-- A bus instruction for the toolchain (30_encoding.md R105). -/
def presentPacket (bs : List Byte) (s : State) : Host.Outcome State Fault Refusal :=
  match decode (.packet bs) with
  | .instr i => exec i s
  | .reject r => .refused (.noInstruction r)

/-- The `wait` statement (30_encoding.md R104): over when DONE reads 1; as long as it reads 0, which with no
operation running is until an `rst` or for ever, `rd STATUS` repeats in the coming steps (log 17). -/
def presentWait (s : State) : Host.Outcome State Fault Refusal :=
  let s' := hostWait s
  if s'.status.done then .next s' else .next (pushInputs [.wait] s')

/-- One presented input, already taken from the pending ones. -/
def present (i : Input) (s : State) : Host.Outcome State Fault Refusal :=
  match i with
  | .write r v => if r = rCmd then presentCmd v s else .next (hostWrite r v s)
  | .read r => .next (hostRead r s)
  | .rxbOk i => .next (hostRxbOk i s)
  | .wait => presentWait s
  | .ck ctl din => presentCk ctl din s
  | .packet bs => presentPacket bs s

/-- A step in which `rst` is sampled low: the next pending input, or none (60_exceptions.md R265). -/
def clocked (s : State) : Host.Outcome State Fault Refusal :=
  match s.io.inputs with
  | [] => .next (advance s)
  | i :: is => present i { s with io.inputs := is }

/-- One step: `rst` sampled high resets the block (70_reset_and_hazards.md R280, log 16). -/
def stepOnce (s : State) : Host.Outcome State Fault Refusal :=
  match s.io.rstPin with
  | [] => clocked s
  | true :: ps => .next (resetBlock { s with io.rstPin := ps })
  | false :: ps => clocked { s with io.rstPin := ps }

/-- The input that presents a value to be decoded. -/
def inputOf : Fetch → Input
  | .cmdWord w => .write rCmd w
  | .ckCtl ctl din => .ck ctl din
  | .packet bs => .packet bs

/-- Puts a value to be decoded before all pending inputs, with `rst` low in the coming step (log 15). -/
def presentNext (f : Fetch) (s : State) : State :=
  let s' := pushInputs [inputOf f] s
  { s' with io.rstPin := if s.io.rstPin.headD false then false :: s.io.rstPin else s.io.rstPin }

end Sys2Proof.Machine
end

