-- ==== Sys2Proof/Machine/Step.lean ====
section
/-! DEFINITION. One step of the machine. The block fetches no program (20_memory.md R73): a step takes the
next pending input (log 15). -/

namespace Sys2Proof.Machine

/-- One step. -/
def step (s : State) : Host.Outcome State Fault Refusal := stepOnce s

/-- `s` with the instruction of a table word as the next pending input (log 14, log 15). -/
def State.withFetchWord (s : State) (nbits w : Nat) : State := presentNext (fetchOfWord nbits w) s

end Sys2Proof.Machine
end

