-- ==== Sys2Proof/Machine/Pseudocode.lean ====
section
/-! DEFINITION. The pseudocode of the host operations, statement by statement, without phases: what the
sequencer is compared with. CKS 40_checksum_frame.md R138; Exchange 41_exchange.md R151, XCHG R150;
Attempt 42_command.md R172, CMD R170, CMDR R171. -/

namespace Sys2Proof.Machine

/-- The visits of TX left once n bytes are taken. -/
def takesAfter : Nat → List Nat → List Nat
  | 0, ts => ts
  | _ + 1, [] => []
  | n + 1, k :: ts => takesAfter (n + 1 - k) ts

/-- `TxWrite(tx)` (20_memory.md R68). -/
def txWrite (tx : List Byte) (s : State) : State :=
  logEvent (.txWrite tx)
    { s with
      bus.wire := s.bus.wire ++ tx
      bus.takes := takesAfter tx.length s.bus.takes }

/-- `Exchange(tx, expn)` (R151): the response bytes, and the state. -/
def exchange (tx : List Byte) (expn : Nat) (s : State) : List Byte × State :=
  let echo := rxRead tx.length (txWrite tx s)
  let s2 := markAnomaly tx echo.1 echo.2
  if expn = 0 then ([], s2)
  else
    let rx := rxRead expn (logEvent (.delay s.cfg.tTurn) s2)
    (rx.1, { rx.2 with buf.rxbuf := Memory.writeSeq rx.2.buf.rxbuf 0 rx.1 })

/-- `MemRead(TXF:0, x[XLEN])`, with the counter of free values. -/
def readFrame (s : State) : List Byte × Nat :=
  Memory.readSeq s.buf.txf 0 s.regs.xlen.toNat s.draws

/-- The exchange of an operation: `x[RXLEN] <- 0`, Exchange on TXF and XEXP, `x[RXLEN] <- |rx|`. -/
def exchangeFrame (s : State) : List Byte × State :=
  let x := exchange (readFrame s).1 s.regs.xexp.toNat
    { s with regs.rxlen := 0, draws := (readFrame s).2 }
  (x.1, { x.2 with regs.rxlen := BitVec.ofNat 9 x.1.length })

/-- `Attempt()` (R172): the result code, and the state. -/
def attempt (noresp : Bool) (s : State) : BitVec 4 × State :=
  let x := exchangeFrame s
  let rx := x.1
  let expn := s.regs.xexp.toNat
  let a := s.regs.devaddr.toNat
  if noresp then (codeOk, x.2)
  else if rx.length ≠ expn then (codeNoResp, x.2)
  else if s.cfg.rxck && rx.getD (expn - 1) 0 != cks8 ((rx.take (expn - 1)).drop 2) then
    (codeBadCksum, x.2)
  else if rx.getD 4 0 ≠ s.cfg.noError then (codeDevErr, setLastErr x.2 a (rx.getD 4 0))
  else (codeOk, setLastErr x.2 a s.cfg.noError)

/-- The state once the GO of an operation is accepted. -/
def accepted (op : HostOp) (noresp : Bool) (s : State) : State :=
  acceptGo (cmdOpl (encodeCmd op.bits noresp)) false s

/-- CKS (R138). -/
def runCks (noresp : Bool) (s : State) : State :=
  let s0 := accepted .cks noresp s
  if badDescriptor noresp s then endOperation codeBadCmd s0
  else endOperation codeOk { buildFrame s0 with regs.rxlen := 0 }

/-- XCHG (R150). -/
def runXchg (noresp : Bool) (s : State) : State :=
  let s0 := accepted .xchg noresp s
  if badLengths s then endOperation codeBadCmd s0
  else endOperation codeOk (exchangeFrame s0).2

/-- CMD (R170). -/
def runCmd (noresp : Bool) (s : State) : State :=
  let s0 := accepted .cmd noresp s
  if badDescriptor noresp s then endOperation codeBadCmd s0
  else
    let c := attempt noresp (buildFrame s0)
    endOperation c.1 c.2

/-- The retry step of CMDR (R176): the backoff delay, ATT and RETRIED. -/
def retryStep (s : State) : State :=
  logEvent (.delay s.cfg.tBackoff) { s with status.retried := true, seq.att := true }

/-- CMDR (R171). -/
def runCmdr (noresp : Bool) (s : State) : State :=
  let s0 := accepted .cmdr noresp s
  if badDescriptor noresp s then endOperation codeBadCmd s0
  else
    let c := attempt noresp (buildFrame s0)
    if c.1 = codeOk then endOperation c.1 c.2
    else
      let c2 := attempt noresp (retryStep c.2)
      endOperation c2.1 c2.2

/-! ## The descriptor writes of the pseudo-operations, as one state -/

/-- PBUF after `pay i, p[0]`, `pay i + 1, p[1]`, ... -/
def loadPayload (size : Nat) (m : List Host.Cell) (i : Nat) : List Byte → List Host.Cell
  | [] => m
  | b :: p => loadPayload size (portWrite size m i b) (i + 1) p

/-- The state after the descriptor writes of R210 to R212, for an idle block. -/
def loadDescriptor (a i : Byte) (p : List Byte) (explen : Byte) (s : State) : State :=
  { s with
    regs.devaddr := a, regs.instr := i, regs.plen := BitVec.ofNat 8 p.length, regs.explen := explen
    regs.bufidx := if p = [] then s.regs.bufidx else BitVec.ofNat 9 (p.length - 1)
    buf.pbuf := loadPayload s.cfg.pmax s.buf.pbuf 0 p }

/-- `rxb i` ... `rxb i + n - 1` on an idle block. -/
def readBack (i : Nat) : Nat → State → State
  | 0, s => s
  | n + 1, s => readBack (i + 1) n (recordRead rRxdata { s with regs.bufidx := BitVec.ofNat 9 i })

/-- The reads at the end of READ (R211): the n payload bytes, "only if CODE = 0". -/
def readPayload (n : Nat) (s : State) : State :=
  if s.status.code = codeOk then readBack 5 n s else s

end Sys2Proof.Machine
end

