-- ==== Sys2Proof/Machine/IdealBus.lean ====
section
/-! DEFINITION. The ideal bus (20_memory.md R72): the reference environment of the test vectors, a perfect
echo and one simulated device. It works on the bytes of a `TxWrite`, whichever operation sent them. No rule
of the block depends on it (log 24). -/

namespace Sys2Proof.Machine

/-- A simulated device (log 24): only one at 0 to 253 is a device of the bus, and one above answers nothing. -/
structure Device where
  /-- Its bus address (20_memory.md R63): a byte, of which R63 names 0 to 253 as devices (log 24). -/
  addr : Byte
  /-- The error byte of its answers (30_encoding.md Table 30-4). -/
  err : Byte
  /-- Its registers (20_memory.md R64), a byte file; one never written reads as 0. -/
  regs : List Host.Cell
  deriving DecidableEq, Repr

/-- A complete well-formed request (30_encoding.md Table 30-1): its address, instruction byte and payload. -/
def requestOf (bs : List Byte) : Option (Byte × Byte × List Byte) :=
  let a := bs.getD 2 0
  let i := bs.getD 4 0
  let p := (bs.drop 5).dropLast
  if p.length ≤ 253 ∧ bs = frame a i p then some (a, i, p) else none

/-- A device register. -/
def devReg (regs : List Host.Cell) (r : Nat) : Byte := (Memory.find regs r).getD 0

/-- The bytes a READ returns: registers r, r + 1, ... (43_bus_instructions.md R201). -/
def devLoad (regs : List Host.Cell) (r n : Byte) : List Byte :=
  (List.range n.toNat).map (fun k => devReg regs (r.toNat + k))

/-- The registers after a request: the data bytes of a WRITE go to ascending addresses (R202). -/
def devStore (regs : List Host.Cell) (i : Byte) (p : List Byte) : List Host.Cell :=
  match p with
  | [] => regs
  | r :: ds => if i = 0x03 then Memory.writeSeq regs r.toNat ds else regs

/-- The payload of a device's answer: registers for a READ (R201) of as many bytes as a status packet holds,
nothing else (R200, R202). -/
def devPayload (regs : List Host.Cell) (i : Byte) (p : List Byte) : List Byte :=
  match i, p with
  | 0x02, [r, n] => if n.toNat ≤ 253 then devLoad regs r n else []
  | _, _ => []

/-- Whether a request to address a is addressed to the device: a names one device, 0 to 253, and it is this
one (20_memory.md R63). -/
def Device.answersTo (d : Device) (a : Byte) : Bool := a == d.addr && answeringAddress a

/-- What a device appends to the receive queue on a `TxWrite` of tx (R72 b): one status packet
(30_encoding.md R92) for a complete well-formed request addressed to it, and nothing for any other bytes,
a request to another device or to the broadcast address among them. Whatever address it was given, it answers
no request to 254 or 255 (log 24). -/
def devAnswer (d : Device) (tx : List Byte) : List Byte :=
  match requestOf tx with
  | some (a, i, p) => if d.answersTo a then statusPacket d.addr d.err (devPayload d.regs i p) else []
  | none => []

/-- The device after a `TxWrite` of tx: it carries out what is addressed to it or to all devices
(20_memory.md R63). -/
def devAfter (d : Device) (tx : List Byte) : Device :=
  match requestOf tx with
  | some (a, i, p) =>
    if d.answersTo a ∨ a = Config.hdx.bcast then { d with regs := devStore d.regs i p } else d
  | none => d

/-- What the ideal bus delivers to the read attempts of one exchange that sends tx and expects e bytes: the
echo and what the device appends (R72 a, b) before the echo read ends, and nothing more (c). An exchange that
sends nothing has no echo read that waits (20_memory.md R69). -/
def idealArrivals (d : Device) (tx : List Byte) (e : Nat) : List (List Byte) :=
  (if tx = [] then [] else [tx ++ devAnswer d tx]) ++ if e = 0 then [] else [[]]

/-- The ideal bus over any number of exchanges, one after the other: what arrives, and the device. -/
def idealRun (d : Device) : List (List Byte × Nat) → List (List Byte) × Device
  | [] => ([], d)
  | (tx, e) :: xs =>
    (idealArrivals d tx e ++ (idealRun (devAfter d tx) xs).1, (idealRun (devAfter d tx) xs).2)

/-- The bytes of an instruction's packet. -/
def packetBytes (i : Instr) : List Byte :=
  match encode i with
  | .packet bs => bs
  | .cmdWord _ => []
  | .ckCtl _ _ => []

end Sys2Proof.Machine
end

