-- ==== Sys2Proof/Safety.lean ====
section
/-! DEFINITION. What the rules promise of every state the block can be in, in the terms statements use. -/

namespace Sys2Proof.Machine

/-- A phase of an exchange or after one: the operation was found legal in BUILD. -/
def Phase.underWay : Phase → Bool
  | .idle => false
  | .build => false
  | .tx => true
  | .echo => true
  | .turn => true
  | .resp => true
  | .check => true
  | .backoff => true

/-- A phase after the `TxWrite` of the running exchange. -/
def Phase.sent : Phase → Bool
  | .idle => false
  | .build => false
  | .tx => false
  | .echo => true
  | .turn => true
  | .resp => true
  | .check => true
  | .backoff => true

/-- The four byte files are in canonical form and within their sizes (10_state.md R43 to R46). -/
structure FilesWf (s : State) : Prop where
  lasterr : Memory.wf (some s.cfg.noStatus) s.cfg.naddr s.buf.lasterr = true
  pbuf : Memory.wf none s.cfg.pmax s.buf.pbuf = true
  txf : Memory.wf none s.cfg.xmax s.buf.txf = true
  rxbuf : Memory.wf none s.cfg.xmax s.buf.rxbuf = true

/-- The flags (10_state.md R33 to R36). -/
structure FlagsWf (s : State) : Prop where
  /-- An operation runs exactly while PHASE is not IDLE (R41, R42). -/
  busyPhase : s.status.busy = true ↔ s.seq.phase ≠ .idle
  /-- "BUSY = 1 and DONE = 1 never hold together" (R33). -/
  notBoth : ¬ (s.status.busy = true ∧ s.status.done = true)
  /-- CODE 5 to 15 are never produced (R36). -/
  code : s.status.code.toNat ≤ 4
  /-- CODE is 0 from GO to the end of the operation (R21, R36). -/
  codeBusy : s.status.busy = true → s.status.code = 0
  /-- RETRIED is set exactly when the second attempt starts (R35). -/
  retried : s.status.retried = s.seq.att

/-- The sequencer (10_state.md R40, R41; 60_exceptions.md R261). -/
structure SeqWf (s : State) : Prop where
  /-- An exchange is under way only for a legal descriptor, and never for CKS (R41, R245). -/
  legal : s.seq.phase.underWay = true → badCmd s = false ∧ curOp s ≠ .cks
  /-- The sequence sent has XLEN bytes and fits TXF (R27, R62). -/
  txLen : s.seq.phase.underWay = true → s.seq.txSeq.length = s.regs.xlen.toNat ∧ s.regs.xlen.toNat ≤ s.cfg.xmax
  /-- XEXP fits RXBUF (R28, R62). -/
  expLen : s.seq.phase.underWay = true → s.regs.xexp.toNat ≤ s.cfg.xmax
  /-- For CMD and CMDR, XLEN and XEXP are what BUILD wrote (30_encoding.md R98). -/
  built : s.seq.phase.underWay = true → curOp s ≠ .xchg →
    s.regs.xlen = frameLen s.cfg s.regs.plen.toNat ∧
      s.regs.xexp = respLen s.cfg (curNoresp s) s.regs.explen
  /-- The counters stay within what they count. -/
  txCnt : s.seq.txCnt ≤ s.seq.txSeq.length
  echoCnt : s.seq.echoCnt ≤ s.seq.txSeq.length
  respCnt : s.seq.respCnt ≤ s.cfg.xmax
  /-- The whole sequence is sent before anything is read (20_memory.md R76). -/
  sent : s.seq.phase.sent = true → s.seq.txCnt = s.seq.txSeq.length
  /-- A response is waited for only when one is expected (41_exchange.md R155). -/
  waits : s.seq.phase = .turn ∨ s.seq.phase = .resp → s.regs.xexp ≠ 0
  /-- Only CMD and CMDR check a response; only CMDR's failed first attempt backs off (R41). -/
  checks : s.seq.phase = .check → curOp s ≠ .xchg
  backs : s.seq.phase = .backoff → curOp s = .cmdr ∧ s.seq.att = false
  /-- The timers run in their phase only (R261). -/
  turnTimer : s.seq.turnTimer = if s.seq.phase = .turn then s.cfg.tTurn else 0
  backoffTimer : s.seq.backoffTimer = if s.seq.phase = .backoff then s.cfg.tBackoff else 0

/-- RXBUF[0 .. RXLEN-1] is within RXBUF and written (10_state.md R46). -/
structure ResultWf (s : State) : Prop where
  rxlen : s.regs.rxlen.toNat ≤ s.cfg.xmax
  written : ∀ j < s.regs.rxlen.toNat, (Memory.find s.buf.rxbuf j).isSome = true

/-- The invariant of the machine. -/
structure Inv (s : State) : Prop where
  cfg : s.cfg.legal = true
  files : FilesWf s
  flags : FlagsWf s
  seq : SeqWf s
  result : ResultWf s

/-- The block is idle and its surroundings let the next operation run to its end at once: no host access lands
inside it (10_state.md R38) and the transport takes what it is given (20_memory.md R68). -/
structure Ready (s : State) : Prop where
  idle : s.status.busy = false
  pace : s.io.pace = []
  taken : s.bus.txHung = false

/-- The entries PBUF[0 .. n-1] are written (70_reset_and_hazards.md R283). -/
def payloadWritten (n : Nat) (s : State) : Prop :=
  ∀ j < n, (Memory.find s.buf.pbuf j).isSome = true

/-- PBUF[0 .. n-1], an unwritten entry as 0: for statements whose hypothesis is that they are written. -/
def payload (n : Nat) (s : State) : List Byte :=
  (List.range n).map (fun j => (Memory.find s.buf.pbuf j).getD 0)

/-- A descriptor that CMD, CMDR and CKS carry out (60_exceptions.md R245), with its payload written, under
parameters for which the rules hold (00_scope.md R6). -/
structure LegalDescriptor (noresp : Bool) (s : State) : Prop where
  params : s.cfg.legal = true
  good : badDescriptor noresp s = false
  written : payloadWritten s.regs.plen.toNat s

/-- The frame that CMD, CMDR and CKS build (40_checksum_frame.md R137). -/
def builtFrame (s : State) : List Byte :=
  frame s.regs.devaddr s.regs.instr (payload s.regs.plen.toNat s)

/-- What has arrived by the end of the echo read of an exchange that sends n > 0 bytes. -/
def queueAtEcho (s : State) : List Byte := s.bus.rxq ++ s.bus.arrivals.headD []

/-- What the echo read of an exchange that sends n bytes returns (41_exchange.md R153). -/
def echoRead (n : Nat) (s : State) : List Byte := (queueAtEcho s).take n

/-- The receive queue after the echo read of n bytes; `RxRead(0)` takes nothing (20_memory.md R69). -/
def queueAfterEcho (n : Nat) (s : State) : List Byte :=
  if n = 0 then s.bus.rxq else (queueAtEcho s).drop n

/-- The draws left after the echo read of n bytes. -/
def arrivalsAfterEcho (n : Nat) (s : State) : List (List Byte) :=
  if n = 0 then s.bus.arrivals else s.bus.arrivals.tail

/-- What the response read of an exchange that sends n bytes and expects e bytes returns
(41_exchange.md R156): what was queued after the first n bytes (R159). -/
def responseRead (n e : Nat) (s : State) : List Byte :=
  (queueAfterEcho n s ++ (arrivalsAfterEcho n s).headD []).take e

/-- The transport events of an exchange that sends tx and expects e bytes, in order (20_memory.md R76). -/
def exchangeEvents (tx : List Byte) (e : Nat) (s : State) : List Event :=
  [.txWrite tx, .rxRead tx.length (echoRead tx.length s)] ++
    if e = 0 then [] else [.delay s.cfg.tTurn, .rxRead e (responseRead tx.length e s)]

/-- The transport after an exchange that sends tx and expects e bytes. -/
def busAfter (tx : List Byte) (e : Nat) (s : State) : Bus :=
  { s.bus with
    rxq :=
      if e = 0 then queueAfterEcho tx.length s
      else (queueAfterEcho tx.length s ++ (arrivalsAfterEcho tx.length s).headD []).drop e
    arrivals :=
      if e = 0 then arrivalsAfterEcho tx.length s else (arrivalsAfterEcho tx.length s).tail
    takes := takesAfter tx.length s.bus.takes
    wire := s.bus.wire ++ tx
    trace := s.bus.trace ++ exchangeEvents tx e s }

/-! ## What an operation leaves -/

/-- The sequencer after an operation (10_state.md R40, R42): IDLE, the word latched, the last attempt's ATT. -/
structure AtRest (op : HostOp) (noresp att : Bool) (q : Seq) : Prop where
  phase : q.phase = .idle
  opl : q.opl = BitVec.ofBool noresp ++ op.bits
  att : q.att = att

/-- STATUS after an operation (10_state.md R33 to R36). -/
def ended (anom retried : Bool) (code : BitVec 4) : Status :=
  { busy := false, done := true, anom := anom, retried := retried, code := code }

/-- TXF[0 .. n-1], an unwritten entry as 0: for statements whose hypothesis is that they are written. -/
def txfBytes (n : Nat) (s : State) : List Byte :=
  (List.range n).map (fun j => (Memory.find s.buf.txf j).getD 0)

/-- How many response bytes CMD and CMDR expect without NORESP (30_encoding.md R98). -/
def expected (s : State) : Nat := s.regs.explen.toNat + 6

/-- The response that the first attempt of CMD or CMDR without NORESP reads. -/
def response (s : State) : List Byte := responseRead (s.regs.plen.toNat + 6) (expected s) s

/-- The result code that 42_command.md R172 gives the first attempt of CMD or CMDR without NORESP. -/
def firstVerdict (s : State) : BitVec 4 := verdict s.cfg (expected s) (response s)

/-- The surroundings as the second attempt of CMDR meets them (42_command.md R176). -/
def afterFirst (s : State) : State := { s with bus := busAfter (builtFrame s) (expected s) s }

/-- The state as BUILD leaves it for a legal descriptor whose payload is written (40_checksum_frame.md R137),
but for the sequencer and STATUS. -/
def builtState (noresp : Bool) (s : State) : State :=
  { s with
    buf.txf := Memory.writeSeq s.buf.txf 0 (builtFrame s)
    regs.xlen := BitVec.ofNat 9 (s.regs.plen.toNat + 6)
    regs.xexp := if noresp then 0 else BitVec.ofNat 9 (6 + s.regs.explen.toNat)
    regs.ckout := (builtFrame s).getD (s.regs.plen.toNat + 5) 0
    acc := BitVec.ofNat 8 (sumBytes (((builtFrame s).drop 2).take (s.regs.plen.toNat + 3))) }

/-- The end of an operation of one attempt (42_command.md R172) with result `code` that leaves the LASTERR file
`les`. -/
def commandEnd (noresp : Bool) (code : BitVec 4) (les : List Host.Cell) (s : State) (q : Seq) :
    State :=
  let f := builtFrame s
  let e := if noresp then 0 else expected s
  let rx := responseRead f.length e s
  let b := builtState noresp s
  { b with
    regs.rxlen := BitVec.ofNat 9 rx.length
    buf.rxbuf := Memory.writeSeq s.buf.rxbuf 0 rx
    buf.lasterr := les
    status := ended (anomaly f (echoRead f.length s)) false code
    bus := busAfter f e s
    seq := q }

/-- The LASTERR file with e in the entry of the addressed device. -/
def lasterrWith (e : Byte) (s : State) : List Host.Cell :=
  Memory.write (some s.cfg.noStatus) s.buf.lasterr s.regs.devaddr.toNat e

/-- The conditions (a) to (e) of 60_exceptions.md R245 for the CMD word w. -/
def Illegal (w : Word) (s : State) : Prop :=
  w.extractLsb' 3 12 ≠ 0 ∨
    if w.extractLsb' 0 2 = 0 then s.cfg.xmax < s.regs.xlen.toNat ∨ s.cfg.xmax < s.regs.xexp.toNat
    else
      s.regs.devaddr = 255 ∨ s.cfg.pmax < s.regs.plen.toNat ∨
        (w.getLsbD 2 = false ∧ s.cfg.emax < s.regs.explen.toNat)

/-! ## The host's view -/

/-- The bits of a host register that are not reserved (10_state.md Table 10-1); CMD reads as 0. -/
def fieldMask (r : RegNo) : Word :=
  if r = rCmd ∨ r = 15 then 0
  else if r = rStatus then 0x0F0F
  else if r = rXlen ∨ r = rXexp ∨ r = rRxlen ∨ r = rBufidx then 0x01FF
  else 0x00FF

/-- A packet whose last byte is the checksum of the bytes from offset 2 on (30_encoding.md R97). -/
def packetVerifies (bs : List Byte) : Bool := verify8 (bs.drop 2).dropLast (bs.getLastD 0)

/-- Instructions one after the other, up to the first that stops. -/
def runInstrs : List Instr → State → Host.Outcome State Fault Refusal
  | [], s => .next s
  | i :: is, s =>
    match exec i s with
    | .next t => runInstrs is t
    | .fault f => .fault f
    | .refused r => .refused r

/-- How many `TxWrite`s stand in a list of transport events. -/
def countWrites : List Event → Nat
  | [] => 0
  | .txWrite _ :: es => countWrites es + 1
  | .rxRead _ _ :: es => countWrites es
  | .delay _ :: es => countWrites es

/-- How many `RxRead`s stand in a list of transport events. -/
def countReads : List Event → Nat
  | [] => 0
  | .txWrite _ :: es => countReads es
  | .rxRead _ _ :: es => countReads es + 1
  | .delay _ :: es => countReads es

end Sys2Proof.Machine
end

