-- ==== Sys2Proof/Certificates/Slice0/Obligations.lean ====
section
/-! DEFINITION. The statements for the provers. -/

open Sys2Proof Sys2Proof.Machine

/-! ## Encoding -/

/-- Decoding what the encoder writes gives the instruction back, for every well-formed instruction
(30_encoding.md R90, R100, R102). -/
def Obligations.DecodeEncodeRoundTrip : Prop :=
  ∀ i : Instr, i.wellFormed = true → decode (encode i) = .instr i

/-- What decodes to an instruction is that instruction's one encoding, and the instruction is well-formed. -/
def Obligations.DecodedIsEncoded : Prop :=
  ∀ (f : Fetch) (i : Instr), decode f = .instr i → i.wellFormed = true ∧ encode i = f

/-- Words written out from 30_encoding.md Tables 30-1, 30-5, 30-6 and the examples of 43_bus_instructions.md
R200 to R204 decode to the instructions they stand for. The payload order of the READ and WRITE packets is what
the spec presumes (R201, R202; log 21), and that a WRITE packet with one or two data bytes is named WRITE1 or
WRITE2 is the model's choice (log 12). -/
def Obligations.SampleWordsDecode : Prop :=
  decode (.cmdWord 0b1000000000000000) = .instr (.xchg false) ∧
  decode (.cmdWord 0b1000000000000101) = .instr (.cmd true) ∧
  decode (.cmdWord 0b1000000000000010) = .instr (.cmdr false) ∧
  decode (.cmdWord 0b1000000000000111) = .instr (.cks true) ∧
  decode (.ckCtl 0b11 0xAA) = .instr (.ckClr true 0xAA) ∧
  decode (.ckCtl 0b01 0x20) = .instr (.ckAdd 0x20) ∧
  decode (.ckCtl 0b00 0x20) = .instr (.ckHold 0x20) ∧
  decode (.packet [0xFF, 0xFF, 0x01, 0x02, 0x01, 0xFB]) = .instr (.ping 1) ∧
  decode (.packet [0xFF, 0xFF, 0x01, 0x04, 0x02, 0x24, 0x02, 0xD2]) = .instr (.read 1 0x24 2) ∧
  decode (.packet [0xFF, 0xFF, 0x01, 0x04, 0x03, 0x18, 0x01, 0xDE]) = .instr (.write1 1 0x18 1) ∧
  decode (.packet [0xFF, 0xFF, 0x01, 0x05, 0x03, 0x1E, 0x00, 0x02, 0xD6]) =
    .instr (.write2 1 0x1E 0x0200)

/-- Table 30-5, bit by bit: which words of CMD are which operation, and that no other word is one. -/
def Obligations.HostWordsByMask : Prop :=
  ∀ w : Word, decode (.cmdWord w) =
    if w &&& 0xFFFB = 0x8000 then .instr (.xchg (w.getLsbD 2))
    else if w &&& 0xFFFB = 0x8001 then .instr (.cmd (w.getLsbD 2))
    else if w &&& 0xFFFB = 0x8002 then .instr (.cmdr (w.getLsbD 2))
    else if w &&& 0xFFFB = 0x8003 then .instr (.cks (w.getLsbD 2))
    else if w.getLsbD 15 then .reject .reservedBits
    else .reject .notGo

/-- `Frame(a, i, p)` (40_checksum_frame.md R136). -/
def Obligations.FrameLayout : Prop :=
  (∀ (a i : Byte) (p : List Byte), p.length ≤ 253 →
    frame a i p =
      [0xFF, 0xFF, a, BitVec.ofNat 8 (p.length + 2), i] ++ p ++
        [cks8 ([a, BitVec.ofNat 8 (p.length + 2), i] ++ p)] ∧
    (frame a i p).length = p.length + 6) ∧
  frame 1 0x01 [] = [0xFF, 0xFF, 0x01, 0x02, 0x01, 0xFB]

/-- Sixteen-bit operands, low byte first (30_encoding.md R99): the split, its place in a packet, and the join
of two received bytes. That the register address stands first in the packet of WRITE2 is what the spec presumes
(log 21). -/
def Obligations.SixteenBitOperands : Prop :=
  (∀ v : Word, lowByte v = v.extractLsb' 0 8 ∧ highByte v = v.extractLsb' 8 8 ∧
    join16 (lowByte v) (highByte v) = v) ∧
  (∀ low high : Byte, join16 low high = low.setWidth 16 ||| (high.setWidth 16 <<< 8)) ∧
  (∀ (a r : Byte) (v : Word), packetBytes (.write2 a r v) = frame a 0x03 [r, lowByte v, highByte v]) ∧
  (∀ (s : State) (low high : Byte), s.status.busy = false → s.status.done = true →
    s.status.code = 0 → Memory.find s.buf.rxbuf 5 = some low → Memory.find s.buf.rxbuf 6 = some high →
    rd2Value s = some (low.setWidth 16 ||| (high.setWidth 16 <<< 8)))

/-! ## The checksum -/

/-- The checksum function, in both readings of the source (40_checksum_frame.md R134). -/
def Obligations.ChecksumFormula : Prop :=
  (∀ s : List Byte,
    cks8 s = ~~~(BitVec.ofNat 8 (sumBytes s)) ∧
    (cks8 s).toNat = 255 - sumBytes s % 256 ∧
    ((cks8 s).toNat : Int) = (-(sumBytes s : Int) - 1 + 256) % 256 ∧
    (sumBytes s = 255 → cks8 s = 0x00) ∧ (sumBytes s = 511 → cks8 s = 0x00) ∧
    (sumBytes s = 256 → cks8 s = 0xFF)) ∧
  cks8 [] = 0xFF ∧ cks8 [0x01, 0x02, 0x01] = 0xFB

/-- Verification, as a function and in the unit (40_checksum_frame.md R135). -/
def Obligations.VerifyIff : Prop :=
  (∀ (s : List Byte) (c : Byte),
    (verify8 s c = true ↔ c = cks8 s) ∧
    (verify8 s c = true ↔ BitVec.ofNat 8 (sumBytes s + c.toNat) = 0xFF) ∧
    (∀ (st : State) (en : Bool) (d : Byte), ∃ t,
      runInstrs (.ckClr en d :: (s ++ [c]).map .ckAdd) st = .next t ∧
      (verify8 s c = true ↔ t.acc = 0xFF) ∧ (verify8 s c = true ↔ ckOut t.acc = 0x00))) ∧
  verify8 [0x01, 0x02, 0x00] 0xFC = true

/-- The unit computes the checksum, whatever the order of the bytes (40_checksum_frame.md R133). -/
def Obligations.UnitComputesCks8 : Prop :=
  (∀ acc : Byte, ckOut acc = ~~~acc ∧ (ckOut acc).toNat = 255 - acc.toNat ∧
    ckOut acc = acc ^^^ 0xFF) ∧
  (∀ (s : State) (en : Bool) (d : Byte) (bs cs : List Byte), cs.Perm bs → ∃ t,
    runInstrs (.ckClr en d :: cs.map .ckAdd) s = .next t ∧ ckOut t.acc = cks8 bs ∧
    t = { s with acc := t.acc })

/-- What the checksum detects and what it does not (40_checksum_frame.md R140). -/
def Obligations.DetectionPower : Prop :=
  ∀ bs : List Byte, 6 ≤ bs.length → packetVerifies bs = true →
    (∀ (k : Nat) (v : Byte), 2 ≤ k → k < bs.length → v ≠ bs.getD k 0 →
      packetVerifies (bs.set k v) = false) ∧
    (∀ (j k : Nat) (v w : Byte), 2 ≤ j → j < k → k < bs.length →
      v + w = bs.getD j 0 + bs.getD k 0 → packetVerifies ((bs.set j v).set k w) = true) ∧
    (∀ m0 m1 : Byte, packetVerifies (m0 :: m1 :: bs.drop 2) = true) ∧
    (∀ cs : List Byte, cs.Perm (bs.drop 2) → packetVerifies (bs.take 2 ++ cs) = true)

/-- CK.CLR (40_checksum_frame.md R130). -/
def Obligations.CkClrResult : Prop :=
  ∀ (en : Bool) (d : Byte) (s : State), exec (.ckClr en d) s = .next { s with acc := 0x00 } ∧
    ckOut 0x00 = 0xFF ∧ decode (.ckCtl (1#1 ++ BitVec.ofBool en) d) = .instr (.ckClr en d)

/-- CK.ADD (40_checksum_frame.md R131). -/
def Obligations.CkAddResult : Prop :=
  (∀ (d : Byte) (s : State),
    exec (.ckAdd d) s = .next { s with acc := BitVec.ofNat 8 (s.acc.toNat + d.toNat) }) ∧
  (∀ (b c : Byte) (s : State), runInstrs [.ckAdd b, .ckAdd c] s = runInstrs [.ckAdd c, .ckAdd b] s) ∧
  (∀ s : State, s.acc = 0xFF → exec (.ckAdd 0x01) s = .next { s with acc := 0x00 }) ∧
  (∀ s : State, exec (.ckAdd 0x00) s = .next s) ∧
  (∀ s : State, s.acc = 0xF0 → exec (.ckAdd 0x20) s = .next { s with acc := 0x10 }) ∧
  ckOut 0x10 = 0xEF ∧ (∀ d : Byte, decode (.ckCtl 0b01 d) = .instr (.ckAdd d))

/-- CK.HOLD (40_checksum_frame.md R132). -/
def Obligations.CkHoldResult : Prop :=
  ∀ (d : Byte) (s : State), exec (.ckHold d) s = .next s ∧ decode (.ckCtl 0b00 d) = .instr (.ckHold d)

/-! ## The host register port -/

/-- CMD (10_state.md R21): a write without GO, and any write while BUSY = 1, does what no write at all would
do; an accepted GO starts an operation; the register reads as 0. The third clause looks at the step of the
GO itself: its schedule lets no transition follow in that step (log 4). That the register reads as 0 while
BUSY = 1 too is the model's choice (log 3). -/
def Obligations.CmdRegister : Prop :=
  ∀ (w : Word) (s : State),
    (cmdGo w = false ∨ s.status.busy = true → present (.write rCmd w) s = .next (advance s)) ∧
    (s.status.busy = false → advance s = s) ∧
    (∀ ps : List Nat, w.getLsbD 15 = true → s.status.busy = false → s.io.pace = 0 :: ps →
      present (.write rCmd w) s =
        .next
          { s with
            status := { busy := true, done := false, anom := false, retried := false, code := 0 }
            seq := { s.seq with
              phase := .build, att := false, opl := w.extractLsb' 0 3
              rsvd := w.extractLsb' 3 12 != 0 }
            io.pace := ps }) ∧
    (readReg rCmd s).1 = 0

/-- STATUS (10_state.md R22). -/
def Obligations.StatusRegister : Prop :=
  ∀ s : State,
    (s.status.busy = false →
      (readReg rStatus s).1.getLsbD 0 = s.status.busy ∧
      (readReg rStatus s).1.getLsbD 1 = s.status.done ∧
      (readReg rStatus s).1.getLsbD 2 = s.status.anom ∧
      (readReg rStatus s).1.getLsbD 3 = s.status.retried ∧
      (readReg rStatus s).1.extractLsb' 8 4 = s.status.code) ∧
    (s.status.busy = true →
      (readReg rStatus s).1.getLsbD 0 = s.status.busy ∧
      (readReg rStatus s).1.getLsbD 1 = s.status.done ∧
      (readReg rStatus s).1 &&& 0x0F0C = Config.freeWord s.draws &&& 0x0F0C) ∧
    (∀ v : Word, present (.write rStatus v) s = .next (advance s))

/-- Reads change nothing but the record of what was read and the counter of free values, reserved bits read
as 0, and a write takes the bits of the register's field (10_state.md R20, Table 10-1). While BUSY = 0 a read of
a register with a field of its own returns its current value (R23 to R30, R32) and register 15 reads 0; STATUS,
LASTERR and the data ports have statements of their own. While BUSY = 1 the running operation goes on after the
read; that reserved bits read as 0 then too is the model's choice (log 3). -/
def Obligations.RegisterPort : Prop :=
  ∀ (r : RegNo) (s : State),
    (s.status.busy = false →
      present (.read r) s =
        .next { s with io.reads := s.io.reads ++ [(readReg r s).1], draws := (readReg r s).2 }) ∧
    (s.status.busy = true →
      present (.read r) s =
        .next (advance
          { s with io.reads := s.io.reads ++ [(readReg r s).1], draws := s.draws + 1 })) ∧
    (s.status.busy = false →
      (readReg rDevaddr s).1 = s.regs.devaddr.setWidth 16 ∧
      (readReg rInstr s).1 = s.regs.instr.setWidth 16 ∧
      (readReg rPlen s).1 = s.regs.plen.setWidth 16 ∧
      (readReg rExplen s).1 = s.regs.explen.setWidth 16 ∧
      (readReg rXlen s).1 = s.regs.xlen.setWidth 16 ∧
      (readReg rXexp s).1 = s.regs.xexp.setWidth 16 ∧
      (readReg rRxlen s).1 = s.regs.rxlen.setWidth 16 ∧
      (readReg rCkout s).1 = s.regs.ckout.setWidth 16 ∧
      (readReg rBufidx s).1 = s.regs.bufidx.setWidth 16 ∧ (readReg 15 s).1 = 0) ∧
    (readReg r s).1 &&& ~~~(fieldMask r) = 0 ∧
    (r ≠ rCmd → ∀ v : Word,
      present (.write r v) s = present (.write r (v &&& fieldMask r)) s)

/-- What a write of each register stores while BUSY = 0 (10_state.md Table 10-1, R23 to R32). -/
def Obligations.RegisterWrites : Prop :=
  ∀ (v : Word) (s : State), s.status.busy = false →
    present (.write rDevaddr v) s = .next { s with regs.devaddr := v.setWidth 8 } ∧
    present (.write rInstr v) s = .next { s with regs.instr := v.setWidth 8 } ∧
    present (.write rPlen v) s = .next { s with regs.plen := v.setWidth 8 } ∧
    present (.write rExplen v) s = .next { s with regs.explen := v.setWidth 8 } ∧
    present (.write rXlen v) s = .next { s with regs.xlen := v.setWidth 9 } ∧
    present (.write rXexp v) s = .next { s with regs.xexp := v.setWidth 9 } ∧
    present (.write rBufidx v) s = .next { s with regs.bufidx := v.setWidth 9 } ∧
    (∀ r : RegNo, r = rStatus ∨ r = rRxlen ∨ r = rCkout ∨ r = rLasterr ∨ r = rRxdata ∨ r = 15 →
      present (.write r v) s = .next s)

/-- Host access while BUSY = 1 (10_state.md R38). CMD and register 15 have no field (log 3). -/
def Obligations.BusyAccess : Prop :=
  ∀ s : State, s.status.busy = true →
    (∀ (r : RegNo) (v : Word), present (.write r v) s = .next (advance s)) ∧
    (∀ r : RegNo,
      present (.read r) s =
        .next (advance
          { s with io.reads := s.io.reads ++ [(readReg r s).1], draws := s.draws + 1 })) ∧
    (readReg rStatus s).1.getLsbD 0 = s.status.busy ∧
    (readReg rStatus s).1.getLsbD 1 = s.status.done ∧
    (readReg rDevaddr s).1 = s.regs.devaddr.setWidth 16 ∧
    (readReg rInstr s).1 = s.regs.instr.setWidth 16 ∧
    (readReg rPlen s).1 = s.regs.plen.setWidth 16 ∧
    (readReg rExplen s).1 = s.regs.explen.setWidth 16 ∧
    (readReg rBufidx s).1 = s.regs.bufidx.setWidth 16 ∧
    (∀ r : RegNo, r ≠ rStatus → r ≠ rDevaddr → r ≠ rInstr → r ≠ rPlen → r ≠ rExplen →
      r ≠ rBufidx → (readReg r s).1 = Config.freeWord s.draws &&& fieldMask r)

/-- The LASTERR window (10_state.md R31). -/
def Obligations.LasterrWindow : Prop :=
  ∀ s : State, s.cfg.wire = true → s.status.busy = false →
    (s.regs.devaddr.toNat ≤ 254 →
      (readReg rLasterr s).1 =
        ((Memory.find s.buf.lasterr s.regs.devaddr.toNat).getD 0x80).setWidth 16) ∧
    (s.regs.devaddr = 255 → (readReg rLasterr s).1 = 0x0080) ∧
    (∀ v : Word, present (.write rDevaddr v) s = .next { s with regs.devaddr := v.setWidth 8 })

/-- The data ports (10_state.md R32), with the buffer sizes of 00_scope.md R6. -/
def Obligations.DataPorts : Prop :=
  (∀ s : State, s.status.busy = false →
    (s.regs.bufidx.toNat < s.cfg.pmax →
      (∀ b, Memory.find s.buf.pbuf s.regs.bufidx.toNat = some b →
        (readReg rPaydata s).1 = b.setWidth 16) ∧
      (Memory.find s.buf.pbuf s.regs.bufidx.toNat = none →
        (readReg rPaydata s).1 = (Config.freeByte s.draws).setWidth 16) ∧
      (∀ v : Word, ∃ m, present (.write rPaydata v) s = .next { s with buf.pbuf := m } ∧
        ∀ j, Memory.find m j =
          if j = s.regs.bufidx.toNat then some (v.setWidth 8) else Memory.find s.buf.pbuf j)) ∧
    (s.cfg.pmax ≤ s.regs.bufidx.toNat →
      (readReg rPaydata s).1 = 0 ∧ ∀ v : Word, present (.write rPaydata v) s = .next s) ∧
    (s.regs.bufidx.toNat < s.cfg.xmax →
      (∀ b, Memory.find s.buf.txf s.regs.bufidx.toNat = some b →
        (readReg rTxdata s).1 = b.setWidth 16) ∧
      (Memory.find s.buf.txf s.regs.bufidx.toNat = none →
        (readReg rTxdata s).1 = (Config.freeByte s.draws).setWidth 16) ∧
      (∀ b, Memory.find s.buf.rxbuf s.regs.bufidx.toNat = some b →
        (readReg rRxdata s).1 = b.setWidth 16) ∧
      (Memory.find s.buf.rxbuf s.regs.bufidx.toNat = none →
        (readReg rRxdata s).1 = (Config.freeByte s.draws).setWidth 16) ∧
      (∀ v : Word, ∃ m, present (.write rTxdata v) s = .next { s with buf.txf := m } ∧
        ∀ j, Memory.find m j =
          if j = s.regs.bufidx.toNat then some (v.setWidth 8) else Memory.find s.buf.txf j)) ∧
    (s.cfg.xmax ≤ s.regs.bufidx.toNat →
      (readReg rTxdata s).1 = 0 ∧ (readReg rRxdata s).1 = 0 ∧
      ∀ v : Word, present (.write rTxdata v) s = .next s) ∧
    (∀ v : Word, present (.write rRxdata v) s = .next s)) ∧
  Config.hdx.pmax = 253 ∧ Config.hdx.xmax = 259

/-! ## The host operations -/

/-- CKS follows its pseudocode (40_checksum_frame.md R137, R138), whatever the descriptor. -/
def Obligations.CksFollowsPseudocode : Prop :=
  ∀ (nr : Bool) (s : State), Ready s →
    ∃ q, AtRest .cks nr false q ∧ exec (.cks nr) s = .next { runCks nr s with seq := q }

/-- XCHG, run phase by phase (10_state.md R41), follows its pseudocode (41_exchange.md R150, R151). -/
def Obligations.XchgFollowsPseudocode : Prop :=
  ∀ (nr : Bool) (s : State), Ready s →
    ∃ q, AtRest .xchg nr false q ∧ exec (.xchg nr) s = .next { runXchg nr s with seq := q }

/-- CMD, run phase by phase, follows its pseudocode (42_command.md R170, R172). -/
def Obligations.CmdFollowsPseudocode : Prop :=
  ∀ (nr : Bool) (s : State), Ready s →
    ∃ q, AtRest .cmd nr false q ∧ exec (.cmd nr) s = .next { runCmd nr s with seq := q }

/-- CMDR, run phase by phase, follows its pseudocode (42_command.md R171, R172, R176). -/
def Obligations.CmdrFollowsPseudocode : Prop :=
  ∀ (nr : Bool) (s : State), Ready s →
    ∃ q, AtRest .cmdr nr (runCmdr nr s).status.retried q ∧
      exec (.cmdr nr) s = .next { runCmdr nr s with seq := q }

/-- CKS builds the frame and stops (40_checksum_frame.md R138): everything it writes, and nothing else. -/
def Obligations.CksResult : Prop :=
  ∀ (nr : Bool) (s : State), Ready s →
    (LegalDescriptor nr s → ∃ q, AtRest .cks nr false q ∧
      exec (.cks nr) s =
        .next { builtState nr s with regs.rxlen := 0, status := ended false false 0, seq := q }) ∧
    (badDescriptor nr s = true → ∃ q, AtRest .cks nr false q ∧
      exec (.cks nr) s = .next { s with status := ended false false 4, seq := q }) ∧
    decode (.cmdWord (0x8003 ||| (BitVec.ofBool nr).setWidth 16 <<< 2)) = .instr (.cks nr)

/-- Length operands (30_encoding.md R98). -/
def Obligations.LengthOperands : Prop :=
  ∀ (nr : Bool) (s : State), Ready s → s.cfg.legal = true → badDescriptor nr s = false →
    ∃ t, exec (.cks nr) s = .next t ∧
      Memory.find t.buf.txf 3 = some (BitVec.ofNat 8 (s.regs.plen.toNat + 2)) ∧
      t.regs.xlen.toNat = s.regs.plen.toNat + 6 ∧
      t.regs.xexp.toNat = if nr then 0 else 6 + s.regs.explen.toNat

/-- The source's testable property 1 (95_test_vectors.md S3), observed with CKS. -/
def Obligations.ChecksumProperty : Prop :=
  ∀ (nr : Bool) (s : State), Ready s → LegalDescriptor nr s →
    ∃ t, exec (.cks nr) s = .next t ∧
      t.regs.ckout = ~~~(BitVec.ofNat 8
        (s.regs.devaddr.toNat + (s.regs.plen.toNat + 2) % 256 + s.regs.instr.toNat +
          sumBytes (payload s.regs.plen.toNat s))) ∧
      (∀ j < s.regs.plen.toNat + 6, Memory.find t.buf.txf j = (builtFrame s)[j]?) ∧
      sumBytes ((builtFrame s).drop 2) % 256 = 255

/-- One raw exchange (41_exchange.md R152 to R157): what is sent, read, compared and stored, in order, and
that nothing else changes. -/
def Obligations.XchgResult : Prop :=
  ∀ (nr : Bool) (s : State), Ready s → badLengths s = false →
    (∀ j < s.regs.xlen.toNat, (Memory.find s.buf.txf j).isSome = true) →
    let tx := txfBytes s.regs.xlen.toNat s
    let e := s.regs.xexp.toNat
    let rx := responseRead tx.length e s
    ∃ q, AtRest .xchg nr false q ∧
      exec (.xchg nr) s =
        .next
          { s with
            status := ended (echoRead tx.length s != tx) false 0
            regs.rxlen := BitVec.ofNat 9 rx.length
            buf.rxbuf := Memory.writeSeq s.buf.rxbuf 0 rx
            bus := busAfter tx e s
            seq := q }

/-- A command that asks for no response (42_command.md R173). -/
def Obligations.NoResponseRequested : Prop :=
  ∀ s : State, Ready s → LegalDescriptor true s →
    (∃ q, AtRest .cmd true false q ∧
      exec (.cmd true) s = .next (commandEnd true 0 s.buf.lasterr s q)) ∧
    (∃ q, AtRest .cmdr true false q ∧
      exec (.cmdr true) s = .next (commandEnd true 0 s.buf.lasterr s q)) ∧
    (∀ q, (commandEnd true 0 s.buf.lasterr s q).regs.rxlen = 0 ∧
      (commandEnd true 0 s.buf.lasterr s q).buf.rxbuf = s.buf.rxbuf)

/-- A short or missing response: NO_RESP, found before anything in it is looked at (42_command.md R177). -/
def Obligations.ShortResponse : Prop :=
  ∀ s : State, Ready s → LegalDescriptor false s → (response s).length ≠ expected s →
    (∃ q, AtRest .cmd false false q ∧
      exec (.cmd false) s = .next (commandEnd false 1 s.buf.lasterr s q)) ∧
    (response s).length < expected s ∧
    (∃ t, exec (.cmdr false) s = .next t ∧ t.status.retried = true)

/-- A response of the right length whose last byte is not its checksum: BAD_CKSUM, when RXCK is true, and
never when it is false (42_command.md R178). -/
def Obligations.BadChecksum : Prop :=
  ∀ s : State, Ready s → LegalDescriptor false s →
    ((response s).length = expected s → s.cfg.rxck = true →
      (response s).getD (expected s - 1) 0 ≠
        cks8 (((response s).drop 2).take (s.regs.explen.toNat + 3)) →
      (∃ q, AtRest .cmd false false q ∧
        exec (.cmd false) s = .next (commandEnd false 3 s.buf.lasterr s q)) ∧
      (∃ t, exec (.cmdr false) s = .next t ∧ t.status.retried = true)) ∧
    (s.cfg.rxck = false → ∃ t, exec (.cmd false) s = .next t ∧ t.status.code ≠ 3)

/-- A validated response with a nonzero error byte: DEV_ERR, and the addressed device's LASTERR entry takes
the byte (42_command.md R174). -/
def Obligations.DeviceError : Prop :=
  ∀ s : State, Ready s → LegalDescriptor false s → FilesWf s →
    (response s).length = expected s →
    (s.cfg.rxck = true →
      (response s).getD (expected s - 1) 0 =
        cks8 (((response s).drop 2).take (s.regs.explen.toNat + 3))) →
    (response s).getD 4 0 ≠ 0x00 →
    ∃ t q, exec (.cmd false) s = .next t ∧ AtRest .cmd false false q ∧
      t = commandEnd false 2 (lasterrWith ((response s).getD 4 0) s) s q ∧
      lastErr t s.regs.devaddr.toNat = (response s).getD 4 0 ∧
      (∀ b, b ≠ s.regs.devaddr.toNat → lastErr t b = lastErr s b) ∧
      (∀ j < expected s, Memory.find t.buf.rxbuf j = (response s)[j]?)

/-- A validated response with error byte 0: OK, and the addressed device's LASTERR entry is cleared
(42_command.md R175); CMDR then ends as CMD does. -/
def Obligations.CommandSuccess : Prop :=
  ∀ s : State, Ready s → LegalDescriptor false s → FilesWf s →
    (response s).length = expected s →
    (s.cfg.rxck = true →
      (response s).getD (expected s - 1) 0 =
        cks8 (((response s).drop 2).take (s.regs.explen.toNat + 3))) →
    (response s).getD 4 0 = 0x00 →
    ∃ t q, exec (.cmd false) s = .next t ∧ AtRest .cmd false false q ∧
      t = commandEnd false 0 (lasterrWith 0x00 s) s q ∧
      lastErr t s.regs.devaddr.toNat = 0x00 ∧
      (∀ b, b ≠ s.regs.devaddr.toNat → lastErr t b = lastErr s b) ∧
      (∀ j < expected s, Memory.find t.buf.rxbuf j = (response s)[j]?) ∧
      (∀ k < s.regs.explen.toNat, Memory.find t.buf.rxbuf (5 + k) = (response s)[5 + k]?) ∧
      ∃ q', AtRest .cmdr false false q' ∧
        exec (.cmdr false) s = .next (commandEnd false 0 (lasterrWith 0x00 s) s q')

/-- CMDR whose first attempt fails makes exactly one more attempt, whose outcome is final (42_command.md R171,
R176; 60_exceptions.md R252). The second attempt meets what the first left on the transport. -/
def Obligations.RetryTaken : Prop :=
  ∀ s : State, Ready s → LegalDescriptor false s → FilesWf s →
    firstVerdict s ≠ 0 →
    let f := builtFrame s
    let s2 := afterFirst s
    ∃ t, exec (.cmdr false) s = .next t ∧
      t.status =
        ended ((echoRead f.length s != f) || (echoRead f.length s2 != f)) true (firstVerdict s2) ∧
      t.regs.rxlen.toNat = (response s2).length ∧
      (∀ j < (response s2).length, Memory.find t.buf.rxbuf j = (response s2)[j]?) ∧
      t.bus.wire = s.bus.wire ++ f ++ f ∧
      t.bus.trace = s.bus.trace ++ exchangeEvents f (expected s) s ++ [.delay s.cfg.tBackoff] ++
        exchangeEvents f (expected s) s2 ∧
      lastErr t s.regs.devaddr.toNat =
        (if firstVerdict s2 = 0 then 0x00
        else if firstVerdict s2 = 2 then (response s2).getD 4 0
        else if firstVerdict s = 2 then (response s).getD 4 0
        else lastErr s s.regs.devaddr.toNat) ∧
      (∀ b, b ≠ s.regs.devaddr.toNat → lastErr t b = lastErr s b)

/-- How often an attempt runs, counted in transport events (42_command.md R179). -/
def Obligations.AttemptCount : Prop :=
  ∀ (nr : Bool) (s : State), Ready s → s.cfg.wire = true →
    (∃ t evs, exec (.cmdr nr) s = .next t ∧ t.bus.trace = s.bus.trace ++ evs ∧
      (badDescriptor nr s = true → evs = []) ∧
      (badDescriptor nr s = false →
        (countWrites evs = 1 ∨ countWrites evs = 2) ∧
        countReads evs = (if nr then 1 else 2) * countWrites evs ∧
        (countWrites evs = 2 ↔ t.status.retried = true)) ∧
      (LegalDescriptor false s → nr = false → firstVerdict s ≠ 0 →
        countWrites evs = 2 ∧ t.status.code = firstVerdict (afterFirst s))) ∧
    (∃ t evs, exec (.cmd nr) s = .next t ∧ t.bus.trace = s.bus.trace ++ evs ∧
      (badDescriptor nr s = true → evs = []) ∧
      (badDescriptor nr s = false →
        countWrites evs = 1 ∧ countReads evs = if nr then 1 else 2)) ∧
    (∃ t evs, exec (.xchg nr) s = .next t ∧ t.bus.trace = s.bus.trace ++ evs ∧
      (badLengths s = true → evs = []) ∧
      (badLengths s = false →
        countWrites evs = 1 ∧ countReads evs = if s.regs.xexp = 0 then 1 else 2)) ∧
    (∃ t, exec (.cks nr) s = .next t ∧ t.bus.trace = s.bus.trace)

/-- BAD_CMD (60_exceptions.md R245): an operation that cannot be carried out writes nothing but STATUS, and no
other operation ends with this code. The latches ATT, OPL and `rsvd`, which no register shows, were written
when the GO was accepted: that R245 does not speak of them is the model's reading (log 25). -/
def Obligations.BadCommand : Prop :=
  ∀ (w : Word) (s : State), Ready s → w.getLsbD 15 = true →
    (Illegal w s →
      present (.write rCmd w) s =
        .next
          { s with
            status := ended false false 4
            seq := { s.seq with
              phase := .idle, att := false, opl := w.extractLsb' 0 3
              rsvd := w.extractLsb' 3 12 != 0 } }) ∧
    (¬ Illegal w s → ∃ t, present (.write rCmd w) s = .next t ∧ t.status.code ≠ 4)

/-- A transport anomaly changes ANOM and nothing else of the result (10_state.md R34, 60_exceptions.md R244):
two echoes that leave the same bytes behind them give the same code, registers and files. -/
def Obligations.AnomalyIsNoFailure : Prop :=
  ∀ (i : Instr) (n : Nat) (s : State) (e1 e2 : List Byte) (rest : List (List Byte)), Ready s → s.cfg.wire = true →
    ((∃ nr, i = .xchg nr) ∧ n = s.regs.xlen.toNat) ∨
      ((∃ nr, i = .cmd nr ∨ i = .cmdr nr) ∧ n = s.regs.plen.toNat + 6) →
    e1.drop n = e2.drop n →
    ∃ t1 t2,
      exec i { s with bus.rxq := [], bus.arrivals := e1 :: rest } = .next t1 ∧
      exec i { s with bus.rxq := [], bus.arrivals := e2 :: rest } = .next t2 ∧
      t1.status = { t2.status with anom := t1.status.anom } ∧
      t1.regs = t2.regs ∧ t1.buf = t2.buf ∧ t1.acc = t2.acc ∧ t1.bus.wire = t2.bus.wire

/-- The block does not decode INSTR (43_bus_instructions.md R206): two descriptors that differ in INSTR only are
framed with their own byte and are otherwise treated alike. -/
def Obligations.InstrIsData : Prop :=
  ∀ (i : Instr) (k : Byte) (s : State), Ready s → (∃ nr, i = .cmd nr ∨ i = .cmdr nr ∨ i = .cks nr) →
    ∃ t u, exec i s = .next t ∧ exec i { s with regs.instr := k } = .next u ∧
      t.status = { u.status with anom := t.status.anom } ∧
      t.regs = { u.regs with instr := s.regs.instr, ckout := t.regs.ckout } ∧
      t.buf.rxbuf = u.buf.rxbuf ∧ t.buf.lasterr = u.buf.lasterr ∧
      (∀ j, j ≠ 4 → j ≠ s.regs.plen.toNat + 5 → Memory.find t.buf.txf j = Memory.find u.buf.txf j) ∧
      (u.status.code ≠ 4 → Memory.find u.buf.txf 4 = some k)

/-- No operation writes the descriptor (10_state.md R23, R24; 60_exceptions.md R251), in any state and however
far it gets. -/
def Obligations.DescriptorKept : Prop :=
  ∀ (i : Instr) (s : State), (∃ nr, i = .xchg nr ∨ i = .cmd nr ∨ i = .cmdr nr ∨ i = .cks nr) →
    ∃ t, exec i s = .next t ∧
      t.regs.devaddr = s.regs.devaddr ∧ t.regs.instr = s.regs.instr ∧ t.regs.plen = s.regs.plen ∧
      t.regs.explen = s.regs.explen ∧ t.regs.bufidx = s.regs.bufidx ∧ t.buf.pbuf = s.buf.pbuf ∧
      t.cfg = s.cfg

/-- The frame of XCHG (41_exchange.md R150): what it never writes, also when it sends unwritten entries. -/
def Obligations.XchgFrame : Prop :=
  ∀ (nr : Bool) (s : State), Ready s → ∃ t, exec (.xchg nr) s = .next t ∧
    t.regs = { s.regs with rxlen := t.regs.rxlen } ∧ t.acc = s.acc ∧
    t.buf = { s.buf with rxbuf := t.buf.rxbuf } ∧
    (∀ j, t.regs.rxlen.toNat ≤ j → Memory.find t.buf.rxbuf j = Memory.find s.buf.rxbuf j) ∧
    t.io = s.io ∧ t.cfg = s.cfg ∧ t.status.retried = false

/-- The frame of CKS, CMD and CMDR (10_state.md R44 to R46; 42_command.md R170): what they never write, also
when they send unwritten entries. -/
def Obligations.CommandFrame : Prop :=
  ∀ (i : Instr) (s : State), Ready s → s.cfg.wire = true →
    (∃ nr, i = .cmd nr ∨ i = .cmdr nr ∨ i = .cks nr) → ∃ t, exec i s = .next t ∧
    t.regs =
      { s.regs with
        xlen := t.regs.xlen, xexp := t.regs.xexp, rxlen := t.regs.rxlen, ckout := t.regs.ckout } ∧
    t.buf.pbuf = s.buf.pbuf ∧
    (∀ j, s.regs.plen.toNat + 6 ≤ j → Memory.find t.buf.txf j = Memory.find s.buf.txf j) ∧
    (∀ j, s.regs.explen.toNat + 6 ≤ j → Memory.find t.buf.rxbuf j = Memory.find s.buf.rxbuf j) ∧
    ((∃ nr, i = .cks nr) → t.buf.rxbuf = s.buf.rxbuf ∧ t.buf.lasterr = s.buf.lasterr ∧ t.bus = s.bus) ∧
    ((∃ nr, i = .cmd nr) → t.status.retried = false ∧
      ∀ j, t.regs.rxlen.toNat ≤ j → t.status.code ≠ 4 →
        Memory.find t.buf.rxbuf j = Memory.find s.buf.rxbuf j) ∧
    (FilesWf s → ∀ b, b ≠ s.regs.devaddr.toNat → lastErr t b = lastErr s b) ∧
    t.io = s.io ∧ t.cfg = s.cfg

/-! ## Bus instructions and accessors -/

/-- PING (43_bus_instructions.md R210) is its expansion: the descriptor, one CMDR, the read of STATUS. That a bus
instruction runs as its pseudo-operation is the model's choice (log 9). -/
def Obligations.PingRuns : Prop :=
  ∀ (a : Byte) (s : State), Ready s → a.toNat ≤ 253 →
    let t := runCmdr false (loadDescriptor a 0x01 [] 0 s)
    ∃ q, AtRest .cmdr false t.status.retried q ∧
      exec (.ping a) s = .next { recordRead rStatus t with seq := q }

/-- READ (43_bus_instructions.md R211) is its expansion; the payload is read only if CODE = 0. That a bus
instruction runs as its pseudo-operation is the model's choice (log 9), that an n of 254 or 255, which R211
does not offer, runs to BAD_CMD too, and that an n of 0, which R211 offers and decision D23 does not, runs, are
its deductions (log 10); the payload order is what the spec presumes (log 21). -/
def Obligations.ReadRuns : Prop :=
  ∀ (a r n : Byte) (s : State), Ready s → a.toNat ≤ 253 →
    let t := runCmdr false (loadDescriptor a 0x02 [r, n] n s)
    ∃ q, AtRest .cmdr false t.status.retried q ∧
      exec (.read a r n) s = .next { readPayload n.toNat (recordRead rStatus t) with seq := q }

/-- WRITE, WRITE1 and WRITE2 (43_bus_instructions.md R212, R215, R216) are their expansion, with `CMDR.NR`
exactly for the broadcast address (R219). That a bus instruction runs as its pseudo-operation is the model's
choice (log 9); the payload order and the bare answer are what the spec presumes (log 21). -/
def Obligations.WriteRuns : Prop :=
  ∀ (a r : Byte) (s : State), Ready s → s.cfg.wire = true → a.toNat ≤ 254 →
    (∀ ds : List Byte, 1 ≤ ds.length → ds.length ≤ 252 →
      let t := runCmdr (a == 254) (loadDescriptor a 0x03 (r :: ds) 0 s)
      ∃ q, AtRest .cmdr (a == 254) t.status.retried q ∧
        exec (.write a r ds) s = .next { recordRead rStatus t with seq := q }) ∧
    (∀ v : Byte, exec (.write1 a r v) s = exec (.write a r [v]) s ∧
      ∃ t, exec (.write1 a r v) s = .next t) ∧
    (∀ v : Word, exec (.write2 a r v) s = exec (.write a r [lowByte v, highByte v]) s ∧
      ∃ t, exec (.write2 a r v) s = .next t)

/-- The value of READ, RD1 and RD2 (43_bus_instructions.md R211, R213, R214): the bytes from offset 5 on of
the response that succeeded, the first attempt's or, after a failure, the second's, which meets what the first
left on the transport. READ runs as its pseudo-operation (log 9), with n = 0 too (log 10), and with the payload
layout that the spec presumes (log 21). -/
def Obligations.ReadYieldsPayload : Prop :=
  ∀ (a r n : Byte) (s : State) (retried : Bool), Ready s → s.cfg = Config.hdx → FilesWf s →
    a.toNat ≤ 253 → n.toNat ≤ 253 →
    let e := n.toNat + 6
    let s2 : State := { s with bus := busAfter (packetBytes (.read a r n)) e s }
    let rx := if retried then responseRead 8 e s2 else responseRead 8 e s
    (verdict s.cfg e (responseRead 8 e s) ≠ 0 ↔ retried = true) → verdict s.cfg e rx = 0 →
    ∃ t st, exec (.read a r n) s = .next t ∧ t.status.code = 0 ∧ t.status.retried = retried ∧
      t.io.reads = s.io.reads ++ [st] ++ ((rx.drop 5).take n.toNat).map (fun b => b.setWidth 16) ∧
      st.extractLsb' 8 4 = 0#4 ∧ st.getLsbD 3 = retried ∧ st.getLsbD 1 = true ∧
      st.getLsbD 0 = false ∧ lastErr t a.toNat = 0x00 ∧
      (n = 1 → rd1Value t = rx[5]?) ∧
      (n = 2 → rd2Value t = some (join16 (rx.getD 5 0) (rx.getD 6 0)))

/-- A pseudo-operation whose carrying operation failed yields the failure and no value
(43_bus_instructions.md R218). Bus instructions run as their pseudo-operations (log 9), a READ with n = 254 or
255 to BAD_CMD, and one with n = 0 (log 10). -/
def Obligations.PseudoFailure : Prop :=
  ∀ (i : Instr) (a c : Byte) (s : State), Ready s → a.toNat ≤ 253 →
    (i = .ping a ∧ c = 0x01) ∨ (∃ r n, i = .read a r n ∧ c = 0x02) ∨
      (∃ r ds, i = .write a r ds ∧ 1 ≤ ds.length ∧ ds.length ≤ 252 ∧ c = 0x03) ∨
      (∃ r v, i = .write1 a r v ∧ c = 0x03) ∨ (∃ r v, i = .write2 a r v ∧ c = 0x03) →
    ∃ t, exec i s = .next t ∧
      (t.status.code ≠ 0 → pseudoFailure t = some (t.status.code, c, a) ∧
        rd1Value t = none ∧ rd2Value t = none ∧
        ∃ st, t.io.reads = s.io.reads ++ [st] ∧ st.extractLsb' 8 4 = t.status.code) ∧
      (t.status.code = 0 → pseudoFailure t = none)

/-- The bytes on the wire are the packet of the instruction (43_bus_instructions.md R200 to R204), sent once or,
after a retry, twice. Bus instructions run as their pseudo-operations (log 9), READ with n = 0 too (log 10); the
layouts of READ and WRITE are what the spec presumes (log 21). -/
def Obligations.WireCarriesPacket : Prop :=
  ∀ (i : Instr) (s : State), Ready s → s.cfg = Config.hdx → i.wellFormed = true →
    (∃ a, i = .ping a) ∨ (∃ a r n, i = .read a r n ∧ n.toNat ≤ 253) ∨
      (∃ a r ds, i = .write a r ds) ∨ (∃ a r v, i = .write1 a r v) ∨ (∃ a r v, i = .write2 a r v) →
    ∃ t, exec i s = .next t ∧
      t.bus.wire = s.bus.wire ++ packetBytes i ++ if t.status.retried then packetBytes i else []

/-- The addresses of the pseudo-operations (43_bus_instructions.md R219): which are refused, and that the WRITE
family latches NORESP exactly for 254; and the numbers of data bytes of WRITE (R212). The refusals are the
model's form of the toolchain's, and that READ is refused for no n is its deduction (log 10). -/
def Obligations.AddressRanges : Prop :=
  ∀ (a r n v : Byte) (w : Word) (ds : List Byte) (s : State), Ready s → s.cfg.wire = true →
    1 ≤ ds.length → ds.length ≤ 252 →
    (a.toNat ≤ 253 → (∃ t, exec (.ping a) s = .next t) ∧ ∃ t, exec (.read a r n) s = .next t) ∧
    (254 ≤ a.toNat → exec (.ping a) s = .refused (.toolchainAddress a) ∧
      exec (.read a r n) s = .refused (.toolchainAddress a)) ∧
    (a.toNat ≤ 254 → ∀ i : Instr, i = .write a r ds ∨ i = .write1 a r v ∨ i = .write2 a r w →
      ∃ t, exec i s = .next t ∧ oplNoresp t.seq.opl = (a == 254)) ∧
    (a = 255 → ∀ i : Instr, i = .write a r ds ∨ i = .write1 a r v ∨ i = .write2 a r w →
      exec i s = .refused (.toolchainAddress a)) ∧
    (a.toNat ≤ 254 → ∀ es : List Byte, es = [] ∨ 252 < es.length →
      exec (.write a r es) s = .refused (.toolchainLength es.length))

/-- REG_WRITE, ACTION, RESET and SYNC_WRITE are refused at the pseudo-operation layer
(43_bus_instructions.md R205), while CMD, CMDR and CKS carry their codes like any other (R206), at offset 4 of the
frame in TXF unless the operation ends BAD_CMD: the refusal with the code, and running a CMD that R205 calls a form that nothing shows, are the model's reading (log 11). -/
def Obligations.UnimplementedRefused : Prop :=
  (∀ (a : Byte) (p : List Byte) (s : State),
    exec (.regWrite a p) s = .refused (.noPseudoOperation 0x04) ∧
    exec (.action a p) s = .refused (.noPseudoOperation 0x05) ∧
    exec (.resetDevice a p) s = .refused (.noPseudoOperation 0x06) ∧
    exec (.syncWrite a p) s = .refused (.noPseudoOperation 0x83)) ∧
  (∀ (nr : Bool) (s : State), Ready s →
    s.regs.instr = 0x04 ∨ s.regs.instr = 0x05 ∨ s.regs.instr = 0x06 ∨ s.regs.instr = 0x83 →
    ∀ i : Instr, i = .cmd nr ∨ i = .cmdr nr ∨ i = .cks nr →
      ∃ t, exec i s = .next t ∧
        (t.status.code ≠ 4 → Memory.find t.buf.txf 4 = some s.regs.instr))

/-- The named accessors (43_bus_instructions.md R217, Table 43-1) and the ranges of the setters
(R215, R216). -/
def Obligations.NamedAccessors : Prop :=
  (∀ a : Byte,
    getInstr .torqueEnable a = .read a 0x18 1 ∧ getInstr .led a = .read a 0x19 1 ∧
    getInstr .goalPosition a = .read a 0x1E 2 ∧ getInstr .movingSpeed a = .read a 0x20 2 ∧
    getInstr .torqueLimit a = .read a 0x22 2 ∧ getInstr .presentPosition a = .read a 0x24 2 ∧
    getInstr .presentSpeed a = .read a 0x26 2 ∧ getInstr .presentLoad a = .read a 0x28 2 ∧
    getInstr .presentVoltage a = .read a 0x2A 1 ∧ getInstr .presentTemperature a = .read a 0x2B 1 ∧
    getInstr .registeredInstruction a = .read a 0x2C 1 ∧ getInstr .moving a = .read a 0x2E 1 ∧
    getInstr .punch a = .read a 0x30 2) ∧
  (∀ (n : DevReg) (a : Byte) (v : Nat),
    setInstr n a v =
      if getInstr n a = .read a n.addr 2 then
        if v ≤ 0xFFFF then some (.write2 a n.addr (BitVec.ofNat 16 v)) else none
      else if v ≤ 0xFF then some (.write1 a n.addr (BitVec.ofNat 8 v)) else none)

/-- One exchange on the ideal bus (20_memory.md R72), by XCHG: the echo is perfect, the response is what the
simulated device, at one of the addresses 0 to 253 (R63), appended (log 24), bytes beyond XEXP stay queued, and
nothing else arrives. -/
def Obligations.IdealBusExchange : Prop :=
  ∀ (nr : Bool) (s : State) (d : Device) (rest : List (List Byte)), Ready s → badLengths s = false →
    (∀ j < s.regs.xlen.toNat, (Memory.find s.buf.txf j).isSome = true) → s.bus.rxq = [] →
    d.addr.toNat ≤ 253 →
    let tx := txfBytes s.regs.xlen.toNat s
    let e := s.regs.xexp.toNat
    let ans := devAnswer d tx
    s.bus.arrivals = idealArrivals d tx e ++ rest →
    ∃ t, exec (.xchg nr) s = .next t ∧ t.status = ended false false 0 ∧
      t.regs.rxlen = BitVec.ofNat 9 (ans.take e).length ∧
      t.buf.rxbuf = Memory.writeSeq s.buf.rxbuf 0 (ans.take e) ∧
      t.bus.rxq = ans.drop e ∧ t.bus.arrivals = rest ∧
      (∀ a i p, p.length ≤ 253 → tx = frame a i p →
        ans = if a = d.addr then statusPacket d.addr d.err (devPayload d.regs i p) else []) ∧
      ((∀ a i p, p.length ≤ 253 → tx ≠ frame a i p) → ans = [])

/-- The round trip (43_bus_instructions.md R220): a 16-bit value written to a simulated device and read back is
unchanged. The environment is the ideal bus of 20_memory.md R72, with a device that reports no error
(log 24); the payload layouts are what the spec presumes (log 21). -/
def Obligations.RegisterRoundTrip : Prop :=
  ∀ (r : Byte) (v : Word) (d : Device) (rest : List (List Byte)) (s : State),
    Ready s → s.cfg = Config.hdx → d.addr.toNat ≤ 253 → d.err = 0x00 → s.bus.rxq = [] →
    s.bus.arrivals =
      (idealRun d [(packetBytes (.write2 d.addr r v), 6), (packetBytes (rd2 d.addr r), 8)]).1 ++ rest →
    ∃ t u, exec (.write2 d.addr r v) s = .next t ∧ t.status = ended false false 0 ∧
      exec (rd2 d.addr r) t = .next u ∧ u.status = ended false false 0 ∧ rd2Value u = some v ∧
      u.bus.rxq = [] ∧ u.bus.arrivals = rest

/-! ## The machine -/

/-- A step with `rst` low runs the decoded instruction of the next pending input; at the CK8 port, which is no
register access, the running operation then advances as in any step (log 13). A pending input that is no
instruction is its own transition: a CMD word that is no operation (30_encoding.md R100, R101), a register
access (10_state.md R20), `wait` and the conditional `rxb` (30_encoding.md R104; 43_bus_instructions.md R211), a
packet that is refused (log 10). With nothing pending the running operation advances. That a step takes a
pending input is the model's choice (log 15). -/
def Obligations.StepRunsDecoded : Prop :=
  ∀ s : State, s.io.rstPin.headD false = false →
    let next (is : List Input) : State :=
      { s with io.inputs := is, io.rstPin := s.io.rstPin.tail }
    (∀ (f : Fetch) (i : Instr) (is : List Input),
      decode f = .instr i → s.io.inputs = inputOf f :: is →
      step s =
        match f with
        | .cmdWord _ => exec i (next is)
        | .packet _ => exec i (next is)
        | .ckCtl _ _ => thenAdvance (exec i (next is))) ∧
    (∀ (w : Word) (is : List Input), s.io.inputs = .write rCmd w :: is →
      (w.getLsbD 15 = false → step s = .next (advance (next is))) ∧
      (w.getLsbD 15 = true → w.extractLsb' 3 12 ≠ 0 →
        step s = .next (advance (if s.status.busy then next is
          else acceptGo (w.extractLsb' 0 3) true (next is))))) ∧
    (∀ (r : RegNo) (v : Word) (is : List Input), r ≠ rCmd → s.io.inputs = .write r v :: is →
      step s = .next (advance (writeReg r v (next is)))) ∧
    (∀ (r : RegNo) (is : List Input), s.io.inputs = .read r :: is →
      step s = .next (advance (recordRead r (next is)))) ∧
    (∀ (k : Nat) (is : List Input), s.io.inputs = .rxbOk k :: is →
      step s =
        if s.status.busy = false ∧ s.status.code = 0 then
          .next (recordRead rRxdata (writeReg rBufidx (BitVec.ofNat 16 k) (next is)))
        else .next (next is)) ∧
    (∀ is : List Input, s.io.inputs = .wait :: is → step s = present .wait (next is)) ∧
    (∀ (bs : List Byte) (why : Reject) (is : List Input), decode (.packet bs) = .reject why →
      s.io.inputs = .packet bs :: is → step s = .refused (.noInstruction why)) ∧
    (s.io.inputs = [] → step s = .next (advance (next [])))

/-- Every step keeps the invariant. -/
def Obligations.StepKeepsInvariant : Prop :=
  ∀ s t : State, Inv s → step s = .next t → Inv t

/-- The state after reset meets the invariant. -/
def Obligations.ResetMeetsInvariant : Prop := Inv State.reset

/-- Reset (70_reset_and_hazards.md R280, R281): the block takes the values of 10_state.md Table 10-2 and the
outside is left alone. -/
def Obligations.ResetStep : Prop :=
  ∀ (s : State) (ps : List Bool), s.io.rstPin = true :: ps → ∃ t, step s = .next t ∧
    (s.cfg.wire = true → ∀ a, a ≤ 254 → lastErr t a = 0x80) ∧
    t.regs =
      { devaddr := 0, instr := 0, plen := 0, explen := 0, xlen := 0, xexp := 0, rxlen := 0
        ckout := 0, bufidx := 0 } ∧
    t.status = { busy := false, done := false, anom := false, retried := false, code := 0 } ∧
    t.seq.phase = .idle ∧ t.seq.att = false ∧ t.seq.opl = 0 ∧
    t.seq.txCnt = 0 ∧ t.seq.echoCnt = 0 ∧ t.seq.respCnt = 0 ∧ t.acc = 0x00 ∧
    (∀ j, Memory.find t.buf.pbuf j = none ∧ Memory.find t.buf.txf j = none ∧
      Memory.find t.buf.rxbuf j = none) ∧
    busyPin t = false ∧ donePin t = false ∧ txValidPin t = false ∧ rdReqPin t = false ∧
    rxReadyPin t = false ∧
    t.bus = s.bus ∧ advance t = t

/-- The one hang of the block is a `TxWrite` whose bytes the transport never takes (60_exceptions.md R253,
10_state.md R42): every other operation, from any phase, reaches its end. -/
def Obligations.OnlyTxWriteHangs : Prop :=
  ∀ s : State, Inv s → s.status.busy = true →
    (s.bus.txHung = false →
      (seqToEnd s).status.busy = false ∧ (seqToEnd s).status.done = true ∧
      (seqToEnd s).seq.phase = .idle) ∧
    ((seqToEnd s).status.busy = true →
      s.bus.txHung = true ∧ (seqToEnd s).seq.phase = .tx ∧
      ∀ n, seqRun n (seqToEnd s) = seqToEnd s)

/-- An operation may be taken as one transition (10_state.md R38): stopping it after any number of transitions
and letting it go on gives the same end. -/
def Obligations.OperationIsAtomic : Prop :=
  ∀ (s : State) (n : Nat), Inv s → s.status.busy = true → s.bus.txHung = false →
    (seqToEnd s).status.busy = false ∧ seqToEnd (seqRun n s) = seqToEnd s

/-- What no step takes back: the parameters stay (log 8), sent bytes, transport events and read values, the
model's records (log 20), only accumulate (20_memory.md R70, R75), and the counter of free values (log 2) never
falls. Where unwritten entries are read, each takes the free value of its own count and the counter moves past
it, and every reader of entries keeps that counter: BUILD, the start of an exchange, CHECK, and a data port,
which while BUSY = 0 reads an unwritten entry as the free value of the counter (10_state.md R50). -/
def Obligations.StepOnlyAppends : Prop :=
  (∀ s t : State, step s = .next t →
    t.cfg = s.cfg ∧ (∃ w, t.bus.wire = s.bus.wire ++ w) ∧ (∃ e, t.bus.trace = s.bus.trace ++ e) ∧
    (∃ r, t.io.reads = s.io.reads ++ r) ∧ s.draws ≤ t.draws) ∧
  (∀ (m : List Host.Cell) (i n k : Nat),
    let unwritten (l : Nat) : Nat :=
      ((List.range l).filter (fun j => (Memory.find m (i + j)).isNone)).length
    (Memory.readSeq m i n k).2 = k + unwritten n ∧
    ∀ j < n, (Memory.readSeq m i n k).1[j]? =
      some ((Memory.find m (i + j)).getD (Config.freeByte (k + unwritten j)))) ∧
  (∀ (r : RegNo) (s : State), s.status.busy = true → (readReg r s).2 = s.draws + 1) ∧
  (∀ (r : RegNo) (s : State), s.status.busy = false →
    (r = rPaydata ∧ s.regs.bufidx.toNat < s.cfg.pmax ∧
        Memory.find s.buf.pbuf s.regs.bufidx.toNat = none) ∨
      (r = rTxdata ∧ s.regs.bufidx.toNat < s.cfg.xmax ∧
        Memory.find s.buf.txf s.regs.bufidx.toNat = none) ∨
      (r = rRxdata ∧ s.regs.bufidx.toNat < s.cfg.xmax ∧
        Memory.find s.buf.rxbuf s.regs.bufidx.toNat = none) →
    readReg r s = ((Config.freeByte s.draws).setWidth 16, s.draws + 1)) ∧
  (∀ s : State,
    (buildFrame s).draws = (Memory.readSeq s.buf.pbuf 0 s.regs.plen.toNat s.draws).2 ∧
    (startExchange s).draws = (Memory.readSeq s.buf.txf 0 s.regs.xlen.toNat s.draws).2 ∧
    (curNoresp s = false →
      (phaseCheck s).draws = (Memory.readSeq s.buf.rxbuf 0 s.regs.rxlen.toNat s.draws).2))

/-- The `wait` statement (30_encoding.md R104): it ends with DONE = 1 when an operation runs or has ended; with
neither it changes nothing and repeats. It always completes its step: over with DONE = 1, or pending (log 17). -/
def Obligations.WaitStatement : Prop :=
  (∀ s : State, Inv s → s.bus.txHung = false → s.status.busy = true ∨ s.status.done = true →
    ∃ t, present .wait s = .next t ∧ t.status.done = true ∧ t.status.busy = false) ∧
  (∀ s : State, s.status.busy = false → s.status.done = false →
    present .wait s = .next { s with io.inputs := .wait :: s.io.inputs }) ∧
  (∀ s : State, ∃ t, present .wait s = .next t ∧
    ((t.status.done = true ∧ t.io.inputs = s.io.inputs) ∨
      (t.status.done = false ∧ t.io.inputs = .wait :: s.io.inputs)))
end

