-- ==== Sys2Proof/Laws/Bytes.lean ====
section
/-! SUPPORT. Byte arithmetic: 16-bit operands, the checksum, the frame and what the decoder makes of one. -/

namespace Sys2Proof

/-! ## Sixteen-bit operands (30_encoding.md R99) -/

theorem join16_toNat (l h : Byte) : (join16 l h).toNat = l.toNat + 256 * h.toNat := by
  have hl := l.isLt
  unfold join16
  rw [show (h ++ l : BitVec 16).toNat = h.toNat <<< 8 ||| l.toNat from BitVec.toNat_append h l,
    ← Nat.shiftLeft_add_eq_or_of_lt hl, Nat.shiftLeft_eq]
  omega

theorem lowByte_toNat (v : Word) : (lowByte v).toNat = v.toNat % 256 := by
  simp [lowByte, BitVec.extractLsb'_toNat]

theorem highByte_toNat (v : Word) : (highByte v).toNat = v.toNat / 256 := by
  have := v.isLt
  simp [highByte, BitVec.extractLsb'_toNat, Nat.shiftRight_eq_div_pow]
  omega

@[simp] theorem join16_split (v : Word) : join16 (lowByte v) (highByte v) = v := by
  apply BitVec.eq_of_toNat_eq
  rw [join16_toNat, lowByte_toNat, highByte_toNat]; omega

@[simp] theorem lowByte_join16 (l h : Byte) : lowByte (join16 l h) = l := by
  apply BitVec.eq_of_toNat_eq
  have := l.isLt
  rw [lowByte_toNat, join16_toNat]; omega

@[simp] theorem highByte_join16 (l h : Byte) : highByte (join16 l h) = h := by
  apply BitVec.eq_of_toNat_eq
  have := l.isLt
  rw [highByte_toNat, join16_toNat]; omega

/-! ## The checksum (40_checksum_frame.md R134, R135) -/

theorem sumBytes_append (s t : List Byte) : sumBytes (s ++ t) = sumBytes s + sumBytes t := by
  induction s with
  | nil => simp [sumBytes]
  | cons b s ih => simp [sumBytes, ih]; omega

theorem sumBytes_perm {s t : List Byte} (h : s.Perm t) : sumBytes s = sumBytes t := by
  induction h with
  | nil => rfl
  | cons b _ ih => simp [sumBytes, ih]
  | swap a b s => simp [sumBytes]; omega
  | trans _ _ h1 h2 => rw [h1, h2]

theorem cks8_toNat (s : List Byte) : (cks8 s).toNat = 255 - sumBytes s % 256 := by
  simp [cks8]; omega

theorem cks8_eq_not (s : List Byte) : cks8 s = ~~~(BitVec.ofNat 8 (sumBytes s)) := by
  apply BitVec.eq_of_toNat_eq
  rw [cks8_toNat, BitVec.toNat_not, BitVec.toNat_ofNat]

/-- Verification by the sum of all covered bytes and the checksum. -/
theorem verify8_iff (s : List Byte) (c : Byte) :
    verify8 s c = true ↔ (sumBytes s + c.toNat) % 256 = 255 := by
  have hc := c.isLt
  have hk := cks8_toNat s
  rw [verify8, beq_iff_eq, ← BitVec.toNat_inj, hk]
  omega

theorem verify8_cks8 (s : List Byte) : verify8 s (cks8 s) = true := by simp [verify8]

/-! ## Packets -/

theorem lenByte_toNat {n : Nat} (h : n ≤ 253) : (lenByte n).toNat = n + 2 := by
  simp [lenByte]; omega

/-- Parameters at their table values have the table's markers and overhead. -/
theorem wire_packet {c : Config} (h : c.wire = true) :
    c.mark0 = Config.hdx.mark0 ∧ c.mark1 = Config.hdx.mark1 ∧ c.ovh = 6 := by
  simp only [Config.wire, Bool.and_eq_true, beq_iff_eq] at h
  exact ⟨h.1.1.1.1.2, h.1.1.1.2, h.1.1.2⟩

theorem wire_of_legal {c : Config} (h : c.legal = true) : c.wire = true := by
  simp only [Config.legal, Bool.and_eq_true] at h
  exact h.1.1.1.1.1.1

/-- The types stand at the table's widths: every byte is below 2^BYTE, every word below 2^REGW, every register
number below NREG (00_scope.md R6). -/
theorem wire_types {c : Config} (h : c.wire = true) (b : Byte) (w : Word) (r : RegNo) :
    b.toNat < 2 ^ c.byteBits ∧ w.toNat < 2 ^ c.regw ∧ r.toNat < c.nreg := by
  simp only [Config.wire, Bool.and_eq_true, beq_iff_eq] at h
  obtain ⟨⟨h1, h2⟩, h3⟩ := h.1.1.1.1.1.1.1
  rw [h1, h2, h3]
  exact ⟨b.isLt, w.isLt, r.isLt⟩

theorem framed_eq_frame {c : Config} (h0 : c.mark0 = Config.hdx.mark0)
    (h1 : c.mark1 = Config.hdx.mark1) (a i : Byte) (p : List Byte) : framed c a i p = frame a i p := by
  simp [frame, framed, h0, h1]

@[simp] theorem framed_length (c : Config) (a i : Byte) (p : List Byte) :
    (framed c a i p).length = p.length + 6 := by simp [framed, covered]

@[simp] theorem frame_length (a i : Byte) (p : List Byte) : (frame a i p).length = p.length + 6 := by
  simp [frame, framed, covered]

/-- The decoder on a frame. -/
theorem decodePacket_frame (a i : Byte) (p : List Byte) (hp : p.length ≤ 253)
    (ha : busAddress a = true) : decodePacket (frame a i p) = decodeBody a i p := by
  unfold frame framed covered
  have hl := lenByte_toNat hp
  generalize hc : cks8 _ = c
  generalize hL : lenByte p.length = l at *
  have hv : verify8 (a :: l :: i :: p) c = true := by simp [verify8, ← hc]
  match p, hp with
  | [], hp => simp [decodePacket, hl, hv, ha]
  | b :: p, hp =>
    simp only [List.cons_append, decodePacket]
    rw [if_neg (by simp), if_neg (by simp [hl])]
    have h1 : (b :: (p ++ [c])).dropLast = b :: p := by
      rw [← List.cons_append, List.dropLast_concat]
    have h2 : (b :: (p ++ [c])).getLastD 0 = c := by
      rw [← List.cons_append]; simp [List.getLastD]
    simp only [h1, h2, hv, ha]; simp

end Sys2Proof
end

