-- ==== Sys2Proof/Laws/Memory.lean ====
section
/-! SUPPORT. The byte files: reading back what was written, and the canonical form. -/

namespace Sys2Proof.Machine

variable {m : List Host.Cell} {a b lo : Nat} {v : Byte}

theorem Memory.find_put (m : List Host.Cell) (a b : Nat) (v : Byte) :
    Memory.find (Memory.put m a v) b = if b = a then some v else Memory.find m b := by
  induction m with
  | nil => simp [Memory.put, Memory.find]
  | cons c m ih =>
    obtain ⟨k, w⟩ := c
    by_cases h1 : a < k
    · simp only [Memory.put, if_pos h1, Memory.find]
    · by_cases h2 : a = k
      · subst h2
        simp only [Memory.put, lt_irrefl, if_false, if_true, Memory.find]
        split_ifs <;> rfl
      · simp only [Memory.put, if_neg h1, if_neg h2, Memory.find, ih]
        split_ifs <;> simp_all

theorem Memory.find_of_lt (h : Memory.rising lo m = true) (hb : b < lo) :
    Memory.find m b = none := by
  induction m generalizing lo with
  | nil => rfl
  | cons c m ih =>
    obtain ⟨k, w⟩ := c
    simp only [Memory.rising, Bool.and_eq_true, decide_eq_true_eq] at h
    have hne : b ≠ k := by omega
    simp only [Memory.find, if_neg hne]
    exact ih h.2 (by omega)

theorem Memory.rising_mono {lo' : Nat} (h : Memory.rising lo m = true) (hl : lo' ≤ lo) :
    Memory.rising lo' m = true := by
  cases m with
  | nil => rfl
  | cons c m =>
    simp only [Memory.rising, Bool.and_eq_true, decide_eq_true_eq] at h ⊢
    exact ⟨by omega, h.2⟩

theorem Memory.find_erase (h : Memory.rising lo m = true) (a b : Nat) :
    Memory.find (Memory.erase m a) b = if b = a then none else Memory.find m b := by
  induction m generalizing lo with
  | nil => simp [Memory.erase, Memory.find]
  | cons c m ih =>
    obtain ⟨k, w⟩ := c
    simp only [Memory.rising, Bool.and_eq_true, decide_eq_true_eq] at h
    simp only [Memory.erase]
    split_ifs with h1 h2 h3
    · subst h1; subst h2; exact Memory.find_of_lt h.2 (by omega)
    · subst h1; simp [Memory.find, h2]
    · subst h3; simp only [Memory.find, if_neg h1, ih h.2]; simp
    · simp only [Memory.find, ih h.2]; split_ifs <;> simp_all

theorem Memory.rising_put (h : Memory.rising lo m = true) (ha : lo ≤ a) :
    Memory.rising lo (Memory.put m a v) = true := by
  induction m generalizing lo with
  | nil => simpa [Memory.put, Memory.rising] using ha
  | cons c m ih =>
    obtain ⟨k, w⟩ := c
    simp only [Memory.rising, Bool.and_eq_true, decide_eq_true_eq] at h
    simp only [Memory.put]
    split_ifs with h1 h2
    · simp only [Memory.rising, Bool.and_eq_true, decide_eq_true_eq]
      exact ⟨ha, by omega, h.2⟩
    · subst h2; simp only [Memory.rising, Bool.and_eq_true, decide_eq_true_eq]
      exact ⟨ha, h.2⟩
    · simp only [Memory.rising, Bool.and_eq_true, decide_eq_true_eq]
      exact ⟨h.1, ih h.2 (by omega)⟩

theorem Memory.rising_erase (h : Memory.rising lo m = true) :
    Memory.rising lo (Memory.erase m a) = true := by
  induction m generalizing lo with
  | nil => rfl
  | cons c m ih =>
    obtain ⟨k, w⟩ := c
    simp only [Memory.rising, Bool.and_eq_true, decide_eq_true_eq] at h
    simp only [Memory.erase]
    split_ifs
    · exact Memory.rising_mono h.2 (by omega)
    · simp only [Memory.rising, Bool.and_eq_true, decide_eq_true_eq]
      exact ⟨h.1, ih h.2⟩

theorem Memory.all_put {p : Host.Cell → Bool} (h : m.all p = true) (hv : p (a, v) = true) :
    (Memory.put m a v).all p = true := by
  induction m with
  | nil => simpa [Memory.put] using hv
  | cons c m ih =>
    obtain ⟨k, w⟩ := c
    simp only [List.all_cons, Bool.and_eq_true] at h
    simp only [Memory.put]
    split_ifs <;> simp only [List.all_cons, Bool.and_eq_true]
    · exact ⟨hv, h.1, h.2⟩
    · exact ⟨hv, h.2⟩
    · exact ⟨h.1, ih h.2⟩

theorem Memory.all_erase {p : Host.Cell → Bool} (h : m.all p = true) :
    (Memory.erase m a).all p = true := by
  induction m with
  | nil => rfl
  | cons c m ih =>
    obtain ⟨k, w⟩ := c
    simp only [List.all_cons, Bool.and_eq_true] at h
    simp only [Memory.erase]
    split_ifs
    · exact h.2
    · simp only [List.all_cons, Bool.and_eq_true]; exact ⟨h.1, ih h.2⟩

/-- A listed write below the size, of a byte that an unlisted entry does not read as, keeps the canonical
form. -/
theorem Memory.wf_put {d : Option Byte} {size : Nat} (h : Memory.wf d size m = true)
    (ha : a < size) (hv : d ≠ some v) : Memory.wf d size (Memory.put m a v) = true := by
  simp only [Memory.wf, Bool.and_eq_true] at h ⊢
  exact ⟨⟨Memory.rising_put h.1.1 (Nat.zero_le _), Memory.all_put h.1.2 (by simpa using ha)⟩,
    Memory.all_put h.2 (by simpa using hv)⟩

theorem Memory.wf_erase {d : Option Byte} {size : Nat} (h : Memory.wf d size m = true) :
    Memory.wf d size (Memory.erase m a) = true := by
  simp only [Memory.wf, Bool.and_eq_true] at h ⊢
  exact ⟨⟨Memory.rising_erase h.1.1, Memory.all_erase h.1.2⟩, Memory.all_erase h.2⟩

/-- Every write below the size keeps the canonical form. -/
theorem Memory.wf_write {d : Option Byte} {size : Nat} (h : Memory.wf d size m = true)
    (ha : a < size) : Memory.wf d size (Memory.write d m a v) = true := by
  unfold Memory.write
  split_ifs with hd
  · exact Memory.wf_erase h
  · exact Memory.wf_put h ha hd

/-- A write within the size through a data port keeps the canonical form. -/
theorem portWrite_wf {size i : Nat} (h : Memory.wf none size m = true) :
    Memory.wf none size (portWrite size m i v) = true := by
  unfold portWrite
  split_ifs with hi
  · exact Memory.wf_put h hi (by simp)
  · exact h

/-- A sequence of bytes that ends within the size keeps the canonical form. -/
theorem Memory.wf_writeSeq {size i : Nat} (s : List Byte) (h : Memory.wf none size m = true)
    (hi : i + s.length ≤ size) : Memory.wf none size (Memory.writeSeq m i s) = true := by
  induction s generalizing m i with
  | nil => exact h
  | cons v s ih =>
    simp only [List.length_cons] at hi
    exact ih (Memory.wf_put h (by omega) (by simp)) (by omega)

theorem Memory.find_write {d : Option Byte} (h : Memory.rising lo m = true) (a b : Nat) (v : Byte) :
    (Memory.find (Memory.write d m a v) b).or d = if b = a then some v else (Memory.find m b).or d := by
  unfold Memory.write
  split_ifs with hd hb hb
  · subst hd; subst hb; rw [Memory.find_erase h]; simp
  · rw [Memory.find_erase h, if_neg hb]
  · subst hb; rw [Memory.find_put]; simp
  · rw [Memory.find_put, if_neg hb]

/-- What a buffer reads as after `MemWrite(S:i, |s|, s)`. -/
theorem Memory.find_writeSeq (m : List Host.Cell) (i : Nat) (s : List Byte) (j : Nat) :
    Memory.find (Memory.writeSeq m i s) j =
      if i ≤ j ∧ j < i + s.length then s[j - i]? else Memory.find m j := by
  induction s generalizing m i with
  | nil => simp only [Memory.writeSeq]; rw [if_neg (by simp)]
  | cons v s ih =>
    simp only [Memory.writeSeq, ih, Memory.find_put, List.length_cons]
    by_cases hj : j = i
    · subst hj; simp
    · by_cases h : i ≤ j ∧ j < i + (s.length + 1)
      · have h2 : i + 1 ≤ j ∧ j < i + 1 + s.length := by omega
        rw [if_pos h2, if_pos h]
        have : j - i = (j - (i + 1)) + 1 := by omega
        rw [this, List.getElem?_cons_succ]
      · have h2 : ¬ (i + 1 ≤ j ∧ j < i + 1 + s.length) := by omega
        rw [if_neg h2, if_neg h, if_neg hj]

@[simp] theorem Memory.readSeq_length (m : List Host.Cell) (i n k : Nat) :
    (Memory.readSeq m i n k).1.length = n := by
  induction n generalizing i k with
  | zero => rfl
  | succ n ih => simp [Memory.readSeq, ih]

/-- Entries that are all written are read as they stand, and no free value is drawn. -/
theorem Memory.readSeq_written (m : List Host.Cell) (i n k : Nat) (s : List Byte)
    (hl : s.length = n) (h : ∀ j < n, Memory.find m (i + j) = s[j]?) :
    Memory.readSeq m i n k = (s, k) := by
  induction n generalizing i k s with
  | zero => simp [Memory.readSeq, List.length_eq_zero_iff.mp hl]
  | succ n ih =>
    match s, hl with
    | v :: s, hl =>
      have h0 : Memory.find m i = some v := by simpa using h 0 (by omega)
      have hr := ih (i + 1) k s (by simpa using hl) (fun j hj => by
        have := h (j + 1) (by omega)
        simpa [Nat.add_assoc, Nat.add_comm 1 j] using this)
      simp [Memory.readSeq, h0, drawEntry, hr]

/-- Reading back a sequence just written gives it. -/
theorem Memory.readSeq_writeSeq (m : List Host.Cell) (i k : Nat) (s : List Byte) :
    Memory.readSeq (Memory.writeSeq m i s) i s.length k = (s, k) := by
  apply Memory.readSeq_written _ _ _ _ _ rfl
  intro j hj
  rw [Memory.find_writeSeq, if_pos (by omega)]
  congr 1; omega

end Sys2Proof.Machine
end

