-- ==== Sys2Proof/Laws/State.lean ====
section
/-! SUPPORT. What each named update does to each component of the state: true by rfl. -/

namespace Sys2Proof.Machine

/-! ## endOperation -/

@[simp] theorem endOperation_cfg (c : BitVec 4) (s : State) :
    (endOperation c s).cfg = s.cfg := rfl

@[simp] theorem endOperation_regs (c : BitVec 4) (s : State) :
    (endOperation c s).regs = s.regs := rfl

@[simp] theorem endOperation_status (c : BitVec 4) (s : State) :
    (endOperation c s).status = { s.status with code := c, busy := false, done := true } := rfl

@[simp] theorem endOperation_seq (c : BitVec 4) (s : State) :
    (endOperation c s).seq = { s.seq with phase := .idle } := rfl

@[simp] theorem endOperation_buf (c : BitVec 4) (s : State) :
    (endOperation c s).buf = s.buf := rfl

@[simp] theorem endOperation_acc (c : BitVec 4) (s : State) :
    (endOperation c s).acc = s.acc := rfl

@[simp] theorem endOperation_bus (c : BitVec 4) (s : State) :
    (endOperation c s).bus = s.bus := rfl

@[simp] theorem endOperation_io (c : BitVec 4) (s : State) :
    (endOperation c s).io = s.io := rfl

@[simp] theorem endOperation_draws (c : BitVec 4) (s : State) :
    (endOperation c s).draws = s.draws := rfl

/-! ## acceptGo -/

@[simp] theorem acceptGo_cfg (o : BitVec 3) (r : Bool) (s : State) :
    (acceptGo o r s).cfg = s.cfg := rfl

@[simp] theorem acceptGo_regs (o : BitVec 3) (r : Bool) (s : State) :
    (acceptGo o r s).regs = s.regs := rfl

@[simp] theorem acceptGo_status (o : BitVec 3) (r : Bool) (s : State) :
    (acceptGo o r s).status = { busy := true, done := false, anom := false, retried := false, code := 0 } := rfl

@[simp] theorem acceptGo_seq (o : BitVec 3) (r : Bool) (s : State) :
    (acceptGo o r s).seq = { s.seq with phase := .build, att := false, opl := o, rsvd := r } := rfl

@[simp] theorem acceptGo_buf (o : BitVec 3) (r : Bool) (s : State) :
    (acceptGo o r s).buf = s.buf := rfl

@[simp] theorem acceptGo_acc (o : BitVec 3) (r : Bool) (s : State) :
    (acceptGo o r s).acc = s.acc := rfl

@[simp] theorem acceptGo_bus (o : BitVec 3) (r : Bool) (s : State) :
    (acceptGo o r s).bus = s.bus := rfl

@[simp] theorem acceptGo_io (o : BitVec 3) (r : Bool) (s : State) :
    (acceptGo o r s).io = s.io := rfl

@[simp] theorem acceptGo_draws (o : BitVec 3) (r : Bool) (s : State) :
    (acceptGo o r s).draws = s.draws := rfl

/-! ## resetBlock -/

@[simp] theorem resetBlock_cfg (s : State) :
    (resetBlock s).cfg = s.cfg := rfl

@[simp] theorem resetBlock_regs (s : State) :
    (resetBlock s).regs = Regs.reset := rfl

@[simp] theorem resetBlock_status (s : State) :
    (resetBlock s).status = Status.reset := rfl

@[simp] theorem resetBlock_seq (s : State) :
    (resetBlock s).seq = Seq.reset := rfl

@[simp] theorem resetBlock_buf (s : State) :
    (resetBlock s).buf = Buffers.reset := rfl

@[simp] theorem resetBlock_acc (s : State) :
    (resetBlock s).acc = 0 := rfl

@[simp] theorem resetBlock_bus (s : State) :
    (resetBlock s).bus = s.bus := rfl

@[simp] theorem resetBlock_io (s : State) :
    (resetBlock s).io = s.io := rfl

@[simp] theorem resetBlock_draws (s : State) :
    (resetBlock s).draws = s.draws := rfl

/-! ## logEvent -/

@[simp] theorem logEvent_cfg (e : Event) (s : State) :
    (logEvent e s).cfg = s.cfg := rfl

@[simp] theorem logEvent_regs (e : Event) (s : State) :
    (logEvent e s).regs = s.regs := rfl

@[simp] theorem logEvent_status (e : Event) (s : State) :
    (logEvent e s).status = s.status := rfl

@[simp] theorem logEvent_seq (e : Event) (s : State) :
    (logEvent e s).seq = s.seq := rfl

@[simp] theorem logEvent_buf (e : Event) (s : State) :
    (logEvent e s).buf = s.buf := rfl

@[simp] theorem logEvent_acc (e : Event) (s : State) :
    (logEvent e s).acc = s.acc := rfl

@[simp] theorem logEvent_bus (e : Event) (s : State) :
    (logEvent e s).bus = { s.bus with trace := s.bus.trace ++ [e] } := rfl

@[simp] theorem logEvent_io (e : Event) (s : State) :
    (logEvent e s).io = s.io := rfl

@[simp] theorem logEvent_draws (e : Event) (s : State) :
    (logEvent e s).draws = s.draws := rfl

/-! ## markAnomaly -/

@[simp] theorem markAnomaly_cfg (tx echo : List Byte) (s : State) :
    (markAnomaly tx echo s).cfg = s.cfg := rfl

@[simp] theorem markAnomaly_regs (tx echo : List Byte) (s : State) :
    (markAnomaly tx echo s).regs = s.regs := rfl

@[simp] theorem markAnomaly_status (tx echo : List Byte) (s : State) :
    (markAnomaly tx echo s).status = { s.status with anom := s.status.anom || anomaly tx echo } := rfl

@[simp] theorem markAnomaly_seq (tx echo : List Byte) (s : State) :
    (markAnomaly tx echo s).seq = s.seq := rfl

@[simp] theorem markAnomaly_buf (tx echo : List Byte) (s : State) :
    (markAnomaly tx echo s).buf = s.buf := rfl

@[simp] theorem markAnomaly_acc (tx echo : List Byte) (s : State) :
    (markAnomaly tx echo s).acc = s.acc := rfl

@[simp] theorem markAnomaly_bus (tx echo : List Byte) (s : State) :
    (markAnomaly tx echo s).bus = s.bus := rfl

@[simp] theorem markAnomaly_io (tx echo : List Byte) (s : State) :
    (markAnomaly tx echo s).io = s.io := rfl

@[simp] theorem markAnomaly_draws (tx echo : List Byte) (s : State) :
    (markAnomaly tx echo s).draws = s.draws := rfl

/-! ## storeResponse -/

@[simp] theorem storeResponse_cfg (rx : List Byte) (s : State) :
    (storeResponse rx s).cfg = s.cfg := rfl

@[simp] theorem storeResponse_regs (rx : List Byte) (s : State) :
    (storeResponse rx s).regs = { s.regs with rxlen := BitVec.ofNat 9 rx.length } := rfl

@[simp] theorem storeResponse_status (rx : List Byte) (s : State) :
    (storeResponse rx s).status = s.status := rfl

@[simp] theorem storeResponse_seq (rx : List Byte) (s : State) :
    (storeResponse rx s).seq = { s.seq with respCnt := rx.length } := rfl

@[simp] theorem storeResponse_buf (rx : List Byte) (s : State) :
    (storeResponse rx s).buf = { s.buf with rxbuf := Memory.writeSeq s.buf.rxbuf 0 rx } := rfl

@[simp] theorem storeResponse_acc (rx : List Byte) (s : State) :
    (storeResponse rx s).acc = s.acc := rfl

@[simp] theorem storeResponse_bus (rx : List Byte) (s : State) :
    (storeResponse rx s).bus = s.bus := rfl

@[simp] theorem storeResponse_io (rx : List Byte) (s : State) :
    (storeResponse rx s).io = s.io := rfl

@[simp] theorem storeResponse_draws (rx : List Byte) (s : State) :
    (storeResponse rx s).draws = s.draws := rfl

/-! ## startExchange -/

@[simp] theorem startExchange_cfg (s : State) :
    (startExchange s).cfg = s.cfg := rfl

@[simp] theorem startExchange_regs (s : State) :
    (startExchange s).regs = { s.regs with rxlen := 0 } := rfl

@[simp] theorem startExchange_status (s : State) :
    (startExchange s).status = s.status := rfl

@[simp] theorem startExchange_seq (s : State) :
    (startExchange s).seq = { s.seq with
      phase := .tx, txSeq := (Memory.readSeq s.buf.txf 0 s.regs.xlen.toNat s.draws).1
      txCnt := 0, echoCnt := 0, respCnt := 0 } := rfl

@[simp] theorem startExchange_buf (s : State) :
    (startExchange s).buf = s.buf := rfl

@[simp] theorem startExchange_acc (s : State) :
    (startExchange s).acc = s.acc := rfl

@[simp] theorem startExchange_bus (s : State) :
    (startExchange s).bus = s.bus := rfl

@[simp] theorem startExchange_io (s : State) :
    (startExchange s).io = s.io := rfl

@[simp] theorem startExchange_draws (s : State) :
    (startExchange s).draws = (Memory.readSeq s.buf.txf 0 s.regs.xlen.toNat s.draws).2 := rfl

/-! ## recordRead -/

@[simp] theorem recordRead_cfg (r : RegNo) (s : State) :
    (recordRead r s).cfg = s.cfg := rfl

@[simp] theorem recordRead_regs (r : RegNo) (s : State) :
    (recordRead r s).regs = s.regs := rfl

@[simp] theorem recordRead_status (r : RegNo) (s : State) :
    (recordRead r s).status = s.status := rfl

@[simp] theorem recordRead_seq (r : RegNo) (s : State) :
    (recordRead r s).seq = s.seq := rfl

@[simp] theorem recordRead_buf (r : RegNo) (s : State) :
    (recordRead r s).buf = s.buf := rfl

@[simp] theorem recordRead_acc (r : RegNo) (s : State) :
    (recordRead r s).acc = s.acc := rfl

@[simp] theorem recordRead_bus (r : RegNo) (s : State) :
    (recordRead r s).bus = s.bus := rfl

@[simp] theorem recordRead_io (r : RegNo) (s : State) :
    (recordRead r s).io = { s.io with reads := s.io.reads ++ [(readReg r s).1] } := rfl

@[simp] theorem recordRead_draws (r : RegNo) (s : State) :
    (recordRead r s).draws = (readReg r s).2 := rfl

/-! ## pushInputs -/

@[simp] theorem pushInputs_cfg (is : List Input) (s : State) :
    (pushInputs is s).cfg = s.cfg := rfl

@[simp] theorem pushInputs_regs (is : List Input) (s : State) :
    (pushInputs is s).regs = s.regs := rfl

@[simp] theorem pushInputs_status (is : List Input) (s : State) :
    (pushInputs is s).status = s.status := rfl

@[simp] theorem pushInputs_seq (is : List Input) (s : State) :
    (pushInputs is s).seq = s.seq := rfl

@[simp] theorem pushInputs_buf (is : List Input) (s : State) :
    (pushInputs is s).buf = s.buf := rfl

@[simp] theorem pushInputs_acc (is : List Input) (s : State) :
    (pushInputs is s).acc = s.acc := rfl

@[simp] theorem pushInputs_bus (is : List Input) (s : State) :
    (pushInputs is s).bus = s.bus := rfl

@[simp] theorem pushInputs_io (is : List Input) (s : State) :
    (pushInputs is s).io = { s.io with inputs := is ++ s.io.inputs } := rfl

@[simp] theorem pushInputs_draws (is : List Input) (s : State) :
    (pushInputs is s).draws = s.draws := rfl

end Sys2Proof.Machine
end

