-- ==== Sys2Proof/Laws/Sequencer.lean ====
section
/-! SUPPORT. The sequencer's runs: their composition, the visits of TX, the fields no transition touches. -/

namespace Sys2Proof.Machine

theorem seqRun_add (m n : Nat) (s : State) : seqRun (m + n) s = seqRun n (seqRun m s) := by
  induction m generalizing s with
  | zero => simp [seqRun]
  | succ m ih => rw [Nat.succ_add]; exact ih (seqStep s)

theorem seqStep_idle {s : State} (h : s.seq.phase = .idle) : seqStep s = s := by
  simp [seqStep, h]

theorem seqRun_idle {s : State} (h : s.seq.phase = .idle) (n : Nat) : seqRun n s = s := by
  induction n with
  | zero => rfl
  | succ n ih => rw [seqRun, seqStep_idle h, ih]

/-- A run that is over by n transitions is over with the same state after any more. -/
theorem seqRun_over {s t : State} {k n : Nat} (h : seqRun k s = t) (ht : t.seq.phase = .idle)
    (hk : k ≤ n) : seqRun n s = t := by
  obtain ⟨d, rfl⟩ := Nat.exists_eq_add_of_le hk
  rw [seqRun_add, h, seqRun_idle ht]

/-- What the visits of TX leave when the transport takes all bytes (20_memory.md R68). -/
def txDone (s : State) : State :=
  logEvent (.txWrite s.seq.txSeq)
    { s with
      bus.wire := s.bus.wire ++ s.seq.txSeq.drop s.seq.txCnt
      bus.takes := takesAfter (s.seq.txSeq.length - s.seq.txCnt) s.bus.takes
      seq.txCnt := s.seq.txSeq.length
      seq.phase := .echo }

theorem takesAfter_length (n : Nat) (ts : List Nat) : (takesAfter n ts).length ≤ ts.length := by
  induction ts generalizing n with
  | nil => cases n <;> simp [takesAfter]
  | cons k ts ih =>
    cases n with
    | zero => simp [takesAfter]
    | succ n => exact Nat.le_trans (ih _) (by simp)

theorem takeNow_nil (rem : Nat) : takeNow rem [] false = (rem, []) := by
  cases rem <;> simp [takeNow]

theorem takesAfter_nil (n : Nat) : takesAfter n [] = [] := by cases n <;> rfl

/-- The visits of TX: unless the transport hangs, the whole sequence is handed over, and each visit but the last
uses one entry of `takes`. -/
theorem seqRun_tx (s : State) (hp : s.seq.phase = .tx) (hc : s.seq.txCnt ≤ s.seq.txSeq.length)
    (hh : s.bus.txHung = false) :
    ∃ k, k + (txDone s).bus.takes.length ≤ 1 + s.bus.takes.length ∧ seqRun k s = txDone s := by
  obtain ⟨ts, hts⟩ : ∃ ts, s.bus.takes = ts := ⟨_, rfl⟩
  induction ts generalizing s with
  | nil =>
    refine ⟨1, by simp [txDone, hts, takesAfter_nil], ?_⟩
    have h1 : s.seq.txSeq.length ≤ s.seq.txCnt + (s.seq.txSeq.length - s.seq.txCnt) := by omega
    have h2 : s.seq.txCnt + (s.seq.txSeq.length - s.seq.txCnt) = s.seq.txSeq.length := by omega
    have h3 : (s.seq.txSeq.drop s.seq.txCnt).take (s.seq.txSeq.length - s.seq.txCnt) =
        s.seq.txSeq.drop s.seq.txCnt := List.take_of_length_le (by simp)
    simp [seqRun, seqStep, hp, phaseTx, hts, hh, takeNow_nil, h2, h3, txDone, takesAfter_nil]
  | cons k ts ih =>
    by_cases hr : s.seq.txSeq.length - s.seq.txCnt = 0
    · refine ⟨1, by simp [txDone, hts, hr, takesAfter], ?_⟩
      have h2 : s.seq.txCnt = s.seq.txSeq.length := by omega
      simp [seqRun, seqStep, hp, phaseTx, hts, takeNow, h2, txDone, takesAfter]
    · obtain ⟨r, hr'⟩ := Nat.exists_eq_succ_of_ne_zero hr
      by_cases hk : s.seq.txSeq.length ≤ s.seq.txCnt + k
      · refine ⟨1, ?_, ?_⟩
        · have := takesAfter_length (r + 1 - k) ts
          simp only [txDone, logEvent_bus, hts, hr', takesAfter, List.length_cons]
          omega
        · have h1 : min k (r + 1) = r + 1 := by omega
          have h2 : s.seq.txCnt + (r + 1) = s.seq.txSeq.length := by omega
          have h3 : (s.seq.txSeq.drop s.seq.txCnt).take (r + 1) =
              s.seq.txSeq.drop s.seq.txCnt := List.take_of_length_le (by simp; omega)
          have h4 : r + 1 - k = 0 := by omega
          simp [seqRun, seqStep, hp, phaseTx, hts, hr', takeNow, h1, h2, h3, h4, txDone, takesAfter]
      · let s' : State :=
          { s with
            bus.wire := s.bus.wire ++ (s.seq.txSeq.drop s.seq.txCnt).take k
            bus.takes := ts
            seq.txCnt := s.seq.txCnt + k }
        have hs : seqStep s = s' := by
          have h1 : min k (r + 1) = k := by omega
          simp [seqStep, hp, phaseTx, hts, hr', takeNow, h1, hk, s']
        obtain ⟨j, hj, hrun⟩ := ih s' hp (by simp only [s']; omega) hh rfl
        have hd : txDone s' = txDone s := by
          have h5 : s.seq.txSeq.length - (s.seq.txCnt + k) = r + 1 - k := by omega
          have h6 : List.take k (List.drop s.seq.txCnt s.seq.txSeq) ++ List.drop (s.seq.txCnt + k) s.seq.txSeq
              = List.drop s.seq.txCnt s.seq.txSeq := by
            rw [← List.drop_drop, List.take_append_drop]
          simp [txDone, s', hts, hr', takesAfter, h5, h6]
        refine ⟨j + 1, ?_, ?_⟩
        · rw [← hd, hts]; simp only [List.length_cons]
          have : s'.bus.takes.length = ts.length := rfl
          omega
        · rw [seqRun, hs, hrun, hd]

end Sys2Proof.Machine
end

