-- ==== Sys2Proof/Laws/Transport.lean ====
section
/-! SUPPORT. What a transport read can do (20_memory.md R69), and that neither it nor the pseudocode of an
exchange or an attempt touches the sequencer's registers. -/

namespace Sys2Proof.Machine

/-- The transport after `RxRead(n)`. -/
def rxBus (n : Nat) (b : Bus) : Bus :=
  if n = 0 then { b with trace := b.trace ++ [.rxRead 0 []] }
  else
    { b with
      rxq := (b.rxq ++ b.arrivals.headD []).drop n
      arrivals := b.arrivals.tail
      trace := b.trace ++ [.rxRead n ((b.rxq ++ b.arrivals.headD []).take n)] }

/-- What `RxRead(n)` returns. -/
def rxBytes (n : Nat) (b : Bus) : List Byte := (b.rxq ++ b.arrivals.headD []).take n

/-- `RxRead` changes the transport only. -/
theorem rxRead_eq (n : Nat) (s : State) :
    rxRead n s = (rxBytes n s.bus, { s with bus := rxBus n s.bus }) := by
  unfold rxRead rxBus rxBytes
  split_ifs with h
  · subst h; simp [logEvent]
  · rfl

@[simp] theorem rxBus_takes (n : Nat) (b : Bus) : (rxBus n b).takes = b.takes := by
  unfold rxBus; split_ifs <;> rfl

@[simp] theorem rxBus_txHung (n : Nat) (b : Bus) : (rxBus n b).txHung = b.txHung := by
  unfold rxBus; split_ifs <;> rfl

@[simp] theorem rxBus_wire (n : Nat) (b : Bus) : (rxBus n b).wire = b.wire := by
  unfold rxBus; split_ifs <;> rfl

theorem rxBus_trace (n : Nat) (b : Bus) :
    (rxBus n b).trace = b.trace ++ [.rxRead n (rxBytes n b)] := by
  unfold rxBus rxBytes; split_ifs with h
  · subst h; simp
  · rfl

/-- A read returns at most what was asked for (20_memory.md R69). -/
theorem rxBytes_length_le (n : Nat) (b : Bus) : (rxBytes n b).length ≤ n := by
  simp [rxBytes]

/-- LASTERR is written in the byte files only. -/
theorem setLastErr_eq (s : State) (a : Nat) (e : Byte) :
    setLastErr s a e = { s with buf := (setLastErr s a e).buf } := by
  unfold setLastErr; split_ifs <;> rfl

theorem setLastErr_seq (s : State) (a : Nat) (e : Byte) (q : Seq) :
    setLastErr { s with seq := q } a e = { setLastErr s a e with seq := q } := by
  unfold setLastErr; split_ifs <;> rfl

theorem exchange_seq (tx : List Byte) (n : Nat) (s : State) (q : Seq) :
    exchange tx n { s with seq := q } =
      ((exchange tx n s).1, { (exchange tx n s).2 with seq := q }) := by
  simp only [exchange, rxRead_eq, txWrite, markAnomaly, logEvent]
  split_ifs <;> rfl

theorem exchangeFrame_seq (s : State) (q : Seq) :
    exchangeFrame { s with seq := q } =
      ((exchangeFrame s).1, { (exchangeFrame s).2 with seq := q }) := by
  have h := exchange_seq (readFrame s).1 s.regs.xexp.toNat
    { s with regs.rxlen := 0, draws := (readFrame s).2 } q
  unfold exchangeFrame
  simp only [readFrame] at h ⊢
  rw [h]

theorem attempt_seq (nr : Bool) (s : State) (q : Seq) :
    attempt nr { s with seq := q } = ((attempt nr s).1, { (attempt nr s).2 with seq := q }) := by
  simp only [attempt, exchangeFrame_seq, setLastErr_seq]
  split_ifs <;> rfl

/-- The pseudocode of an exchange neither finishes the operation nor starts another one: the sequencer, the
parameters, the host side and the unit stay. -/
theorem exchangeFrame_keeps (s : State) :
    (exchangeFrame s).2.seq = s.seq ∧ (exchangeFrame s).2.cfg = s.cfg ∧
      (exchangeFrame s).2.io = s.io ∧ (exchangeFrame s).2.acc = s.acc ∧
      (exchangeFrame s).2.bus.txHung = s.bus.txHung := by
  simp only [exchangeFrame, exchange, rxRead_eq, txWrite, markAnomaly, logEvent]
  split_ifs <;> simp

theorem attempt_keeps (nr : Bool) (s : State) :
    (attempt nr s).2.seq = s.seq ∧ (attempt nr s).2.cfg = s.cfg ∧
      (attempt nr s).2.io = s.io ∧ (attempt nr s).2.acc = s.acc ∧
      (attempt nr s).2.bus.txHung = s.bus.txHung := by
  have h := exchangeFrame_keeps s
  simp only [attempt]
  split_ifs <;> (try rw [setLastErr_eq]) <;> exact h

end Sys2Proof.Machine
end

