-- ==== Sys2Proof/Laws/Exchange.lean ====
section
/-! SUPPORT. The phases TX, ECHO, TURN, RESP of one exchange, together, against the pseudocode `Exchange`
(41_exchange.md R151), and with CHECK against `Attempt` (42_command.md R172). -/

namespace Sys2Proof.Machine

/-- What the phases of an exchange leave in the sequencer but for PHASE and the records of the transfer. -/
structure SameOp (q q' : Seq) : Prop where
  att : q'.att = q.att
  opl : q'.opl = q.opl
  rsvd : q'.rsvd = q.rsvd

theorem SameOp.trans {a b c : Seq} (h : SameOp a b) (h' : SameOp b c) : SameOp a c :=
  ⟨h'.att.trans h.att, h'.opl.trans h.opl, h'.rsvd.trans h.rsvd⟩

theorem afterEcho_none {s : State} (h : s.regs.xexp = 0) : afterEcho s = afterResponse s := by
  simp [afterEcho, afterResponse, h]

theorem afterEcho_some {s : State} (h : s.regs.xexp ≠ 0) :
    afterEcho s = { s with seq.phase := .turn, seq.turnTimer := s.cfg.tTurn } := by
  simp only [afterEcho, if_neg h]

/-- The sequencer's registers at the end of an exchange. -/
def exchangeSeq (s : State) : Seq :=
  let tx := (readFrame s).1
  { s.seq with
    phase := if s.regs.xexp.toNat = 0 then .echo else .resp
    txSeq := tx
    txCnt := tx.length
    echoCnt := (rxBytes tx.length s.bus).length
    respCnt := (exchangeFrame s).1.length
    turnTimer := if s.regs.xexp.toNat = 0 then s.seq.turnTimer else 0 }

theorem exchangeSeq_sameOp (s : State) : SameOp s.seq (exchangeSeq s) := ⟨rfl, rfl, rfl⟩

/-- An exchange, by phases, does what `Exchange` says, in at most four transitions and the visits of TX the
transport asks for. -/
theorem seqRun_exchange (s : State) (hh : s.bus.txHung = false) :
    ∃ k, k + (exchangeFrame s).2.bus.takes.length ≤ 4 + s.bus.takes.length ∧
      seqRun k (startExchange s) =
        afterResponse { (exchangeFrame s).2 with seq := exchangeSeq s } := by
  obtain ⟨k, hk, hrun⟩ := seqRun_tx (startExchange s) rfl (by simp) hh
  by_cases hx : s.regs.xexp = 0
  · refine ⟨k + 1, ?_, ?_⟩
    · simp only [exchangeFrame, exchange, rxRead_eq, txWrite, markAnomaly, logEvent, readFrame, hx]
      simp [txDone] at hk ⊢
      omega
    · rw [seqRun_add, hrun]
      simp only [seqRun, seqStep, txDone, logEvent, phaseEcho, rxRead_eq]
      rw [afterEcho_none (by simpa [markAnomaly] using hx)]
      simp [exchangeFrame, exchangeSeq, exchange, rxRead_eq, txWrite, markAnomaly, logEvent,
        readFrame, hx, startExchange, rxBytes]
  · have hx' : s.regs.xexp.toNat ≠ 0 := by
      intro h; exact hx (by apply BitVec.eq_of_toNat_eq; simpa using h)
    refine ⟨k + 3, ?_, ?_⟩
    · simp only [exchangeFrame, exchange, rxRead_eq, txWrite, markAnomaly, logEvent, readFrame, hx',
        if_false]
      simp [txDone] at hk ⊢
      omega
    · rw [seqRun_add, hrun]
      simp only [seqRun, seqStep, txDone, logEvent, phaseEcho, rxRead_eq]
      rw [afterEcho_some (by simpa [markAnomaly] using hx)]
      simp [markAnomaly, startExchange, logEvent, rxRead_eq, hx', phaseTurn, phaseResp, storeResponse,
        exchangeFrame, exchangeSeq, exchange, txWrite, readFrame]
      rfl

/-- After an exchange of CMD or CMDR the response stands in RXBUF[0 .. RXLEN-1] (10_state.md R46). -/
theorem exchangeFrame_result (s : State) (k : Nat) :
    Memory.readSeq (exchangeFrame s).2.buf.rxbuf 0 (exchangeFrame s).2.regs.rxlen.toNat k =
      ((exchangeFrame s).1, k) := by
  by_cases hx : s.regs.xexp.toNat = 0
  · simp [exchangeFrame, exchange, hx, Memory.readSeq]
  · have hl : (exchangeFrame s).1.length ≤ s.regs.xexp.toNat := by
      simp only [exchangeFrame, exchange, hx, if_false, rxRead_eq]
      exact rxBytes_length_le _ _
    have h9 := s.regs.xexp.isLt
    have hr : (exchangeFrame s).2.regs.rxlen.toNat = (exchangeFrame s).1.length := by
      have : (exchangeFrame s).2.regs.rxlen = BitVec.ofNat 9 (exchangeFrame s).1.length := rfl
      rw [this, BitVec.toNat_ofNat, Nat.mod_eq_of_lt (by omega)]
    rw [hr]
    have hb : ∃ m, (exchangeFrame s).2.buf.rxbuf = Memory.writeSeq m 0 (exchangeFrame s).1 := by
      simp only [exchangeFrame, exchange, hx, if_false, rxRead_eq]
      exact ⟨_, rfl⟩
    obtain ⟨m, hm⟩ := hb
    rw [hm, Memory.readSeq_writeSeq]

/-- The fields that the checks read stand as before the exchange. -/
theorem exchangeFrame_descriptor (s : State) :
    (exchangeFrame s).2.cfg = s.cfg ∧
      (exchangeFrame s).2.regs =
        { s.regs with rxlen := BitVec.ofNat 9 (exchangeFrame s).1.length } := by
  simp only [exchangeFrame, exchange, rxRead_eq, txWrite, markAnomaly, logEvent]
  split_ifs <;> simp

/-- An attempt, by phases, does what `Attempt` says, in at most five transitions and the visits of TX the
transport asks for. -/
theorem seqRun_attempt (s : State) (hh : s.bus.txHung = false) (hop : curOp s ≠ .xchg) :
    ∃ k, k + (attempt (curNoresp s) s).2.bus.takes.length ≤ 5 + s.bus.takes.length ∧
      seqRun k (startExchange s) =
        afterAttempt (attempt (curNoresp s) s).1
          { (attempt (curNoresp s) s).2 with seq := { exchangeSeq s with phase := .check } } := by
  obtain ⟨k, hk, hrun⟩ := seqRun_exchange s hh
  have htk : (attempt (curNoresp s) s).2.bus = (exchangeFrame s).2.bus := by
    simp only [attempt]; split_ifs <;> first | rfl | rw [setLastErr_eq]
  refine ⟨k + 1, by rw [htk]; omega, ?_⟩
  rw [seqRun_add, hrun]
  have hcheck : afterResponse { (exchangeFrame s).2 with seq := exchangeSeq s } =
      { (exchangeFrame s).2 with seq := { exchangeSeq s with phase := .check } } := by
    have : curOp { (exchangeFrame s).2 with seq := exchangeSeq s } = curOp s := rfl
    simp only [afterResponse, this]
    cases h : curOp s <;> first | exact absurd h hop | rfl
  obtain ⟨hcfg, hregs⟩ := exchangeFrame_descriptor s
  rw [hcheck]
  simp only [seqRun, seqStep, phaseCheck]
  have hn : curNoresp
      { (exchangeFrame s).2 with seq := { exchangeSeq s with phase := .check } } = curNoresp s := rfl
  rw [hn]
  by_cases hnr : curNoresp s = true
  · simp only [hnr, if_true, attempt]
  · have hdev : (exchangeFrame s).2.regs.devaddr = s.regs.devaddr := by rw [hregs]
    have hexp : (exchangeFrame s).2.regs.xexp = s.regs.xexp := by rw [hregs]
    simp only [hnr, attempt, Bool.false_eq_true, if_false, exchangeFrame_result, verdict, hexp,
      ← hcfg]
    clear hrun hcheck hn htk hk hregs
    generalize exchangeFrame s = x at *
    generalize ({ exchangeSeq s with phase := Phase.check } : Seq) = q
    by_cases h1 : x.1.length ≠ s.regs.xexp.toNat
    · simp only [if_pos h1]; rfl
    · simp only [if_neg h1]
      have hv : (x.2.cfg.rxck && !verify8 (List.drop 2 (List.take (s.regs.xexp.toNat - 1) x.1))
            (x.1.getD (s.regs.xexp.toNat - 1) 0)) =
          (x.2.cfg.rxck && x.1.getD (s.regs.xexp.toNat - 1) 0 !=
            cks8 (List.drop 2 (List.take (s.regs.xexp.toNat - 1) x.1))) := rfl
      rw [hv]
      split_ifs with h2 h3
      · rfl
      · simp only [noteError, codeOk, codeDevErr, or_true, if_true]
        rw [hdev, ← setLastErr_seq]
      · have h4 : x.1.getD 4 0 = x.2.cfg.noError := not_not.mp h3
        simp only [noteError, codeOk, true_or, if_true, h4]
        rw [hdev, ← setLastErr_seq]

end Sys2Proof.Machine
end

