-- ==== Sys2Proof/Laws/Flags.lean ====
section
/-! SUPPORT. The bits of the STATUS word (10_state.md R22). -/

namespace Sys2Proof.Machine

theorem statusWord_busy (t : Status) : (statusWord t).getLsbD 0 = t.busy := by
  obtain ⟨b, d, a, r, c⟩ := t
  revert b d a r c; decide

theorem statusWord_done (t : Status) : (statusWord t).getLsbD 1 = t.done := by
  obtain ⟨b, d, a, r, c⟩ := t
  revert b d a r c; decide

theorem statusWord_anom (t : Status) : (statusWord t).getLsbD 2 = t.anom := by
  obtain ⟨b, d, a, r, c⟩ := t
  revert b d a r c; decide

theorem statusWord_retried (t : Status) : (statusWord t).getLsbD 3 = t.retried := by
  obtain ⟨b, d, a, r, c⟩ := t
  revert b d a r c; decide

theorem statusWord_code (t : Status) : (statusWord t).extractLsb' 8 4 = t.code := by
  obtain ⟨b, d, a, r, c⟩ := t
  revert b d a r c; decide

theorem statusWord_reserved (t : Status) : statusWord t &&& 0xF0F0 = 0 := by
  obtain ⟨b, d, a, r, c⟩ := t
  revert b d a r c; decide

theorem bitWord_getLsbD (b : Bool) (i : Nat) :
    (bitWord b).getLsbD i = (decide (i = 0) && b) := by
  cases b <;> by_cases h : i = 0 <;> simp [bitWord, h]

/-- Bits of STATUS while BUSY = 1. -/
theorem statusWordBusy_getLsbD (t : Status) (f : Word) (i : Nat) (h : i < 16) :
    (statusWordBusy t f).getLsbD i =
      ((f.getLsbD i && (0x0F0C : Word).getLsbD i) || (decide (i = 1) && t.done) ||
        (decide (i = 0) && t.busy)) := by
  simp only [statusWordBusy, BitVec.getLsbD_or, BitVec.getLsbD_and, BitVec.getLsbD_shiftLeft,
    bitWord_getLsbD]
  by_cases h1 : i = 1
  · subst h1; simp
  · by_cases h0 : i = 0
    · subst h0; simp
    · have : i - 1 ≠ 0 := by omega
      simp [h1, h0, this]

end Sys2Proof.Machine
end

