-- ==== Sys2Proof/Laws/Operation.lean ====
section
/-! SUPPORT. A host operation from its GO: the CMD word, what BUILD does with it, and the run of a block that
is ready. -/

namespace Sys2Proof.Machine

/-- The fields of an operation's CMD word (30_encoding.md Table 30-5). -/
theorem encodeCmd_fields (op : HostOp) (nr : Bool) :
    cmdGo (encodeCmd op.bits nr) = true ∧ cmdReserved (encodeCmd op.bits nr) = false ∧
      oplNoresp (cmdOpl (encodeCmd op.bits nr)) = nr ∧
      HostOp.ofBits (oplOp (cmdOpl (encodeCmd op.bits nr))) = op := by
  cases op <;> cases nr <;> decide

@[simp] theorem accepted_curOp (op : HostOp) (nr : Bool) (s : State) :
    curOp (accepted op nr s) = op := (encodeCmd_fields op nr).2.2.2

@[simp] theorem accepted_curNoresp (op : HostOp) (nr : Bool) (s : State) :
    curNoresp (accepted op nr s) = nr := (encodeCmd_fields op nr).2.2.1

/-- What makes an accepted operation illegal (60_exceptions.md R245). -/
theorem accepted_badCmd (op : HostOp) (nr : Bool) (s : State) :
    badCmd (accepted op nr s) = if op = .xchg then badLengths s else badDescriptor nr s := by
  simp only [badCmd, accepted_curOp, accepted_curNoresp]
  cases op <;> exact Bool.false_or _

/-- BUILD of an illegal operation (60_exceptions.md R245). -/
theorem build_illegal {op : HostOp} {nr : Bool} {s : State} (h : badCmd (accepted op nr s) = true) :
    seqStep (accepted op nr s) = endOperation codeBadCmd (accepted op nr s) := by
  have hp : (accepted op nr s).seq.phase = .build := rfl
  simp only [seqStep, hp, phaseBuild, h, if_true]

/-- BUILD of a legal operation (10_state.md R41). -/
theorem build_legal {op : HostOp} {nr : Bool} {s : State} (h : badCmd (accepted op nr s) = false) :
    seqStep (accepted op nr s) =
      match op with
      | .xchg => startExchange (accepted op nr s)
      | .cmd => startExchange (buildFrame (accepted op nr s))
      | .cmdr => startExchange (buildFrame (accepted op nr s))
      | .cks => endOperation codeOk { buildFrame (accepted op nr s) with regs.rxlen := 0 } := by
  have hp : (accepted op nr s).seq.phase = .build := rfl
  simp only [seqStep, hp, phaseBuild, h, accepted_curOp, Bool.false_eq_true, if_false]
  cases op <;> rfl

/-- A GO that an idle block accepts. -/
theorem writeCmd_accepted {op : HostOp} {nr : Bool} {s : State} (h : s.status.busy = false) :
    writeCmd (encodeCmd op.bits nr) s = accepted op nr s := by
  obtain ⟨hg, hr, -, -⟩ := encodeCmd_fields op nr
  simp [writeCmd, h, hg, hr, accepted]

/-- A GO that is dropped (10_state.md R21). -/
theorem writeCmd_busy {w : Word} {s : State} (h : s.status.busy = true) : writeCmd w s = s := by
  simp [writeCmd, h]

/-- An operation of a block that is ready runs to its end. -/
theorem operate_ready {op : HostOp} {nr : Bool} {s : State} (h : Ready s) :
    operate op nr s = seqRun (opTransitions + s.bus.takes.length) (accepted op nr s) := by
  have hp : (accepted op nr s).io.pace = [] := h.pace
  have hb : (accepted op nr s).status.busy = true := rfl
  simp only [operate, writeCmd_accepted h.idle, advance, hp, hb, if_true, seqToEnd]
  rfl

theorem afterAttempt_end {c : BitVec 4} {s : State}
    (h : c = codeOk ∨ curOp s ≠ .cmdr ∨ s.seq.att = true) :
    afterAttempt c s = endOperation c s := if_pos h

theorem afterAttempt_retry {c : BitVec 4} {s : State} (hc : c ≠ codeOk) (ho : curOp s = .cmdr)
    (ha : s.seq.att = false) :
    afterAttempt c s = { s with seq.phase := .backoff, seq.backoffTimer := s.cfg.tBackoff } := by
  simp [afterAttempt, hc, ho, ha]

end Sys2Proof.Machine
end

