-- ==== Sys2Proof/Laws/Results.lean ====
section
/-! SUPPORT. What the pseudocode of an exchange, of BUILD and of an attempt leaves, in closed form. -/

namespace Sys2Proof.Machine

/-! ## The exchange -/

@[simp] theorem responseRead_zero (n : Nat) (s : State) : responseRead n 0 s = [] := by
  simp [responseRead]

theorem responseRead_length_le (n e : Nat) (s : State) : (responseRead n e s).length ≤ e := by
  simp [responseRead]

/-- `Exchange(tx, e)` in closed form (41_exchange.md R151). -/
theorem exchange_eq (tx : List Byte) (e : Nat) (s : State) :
    exchange tx e s =
      (responseRead tx.length e s,
        { s with
          status.anom := s.status.anom || anomaly tx (echoRead tx.length s)
          buf.rxbuf := Memory.writeSeq s.buf.rxbuf 0 (responseRead tx.length e s)
          bus := busAfter tx e s }) := by
  by_cases hn : tx.length = 0 <;> by_cases he : e = 0 <;>
    simp [exchange, rxRead_eq, rxBus, rxBytes, txWrite, markAnomaly, logEvent, hn, he, responseRead,
      busAfter, exchangeEvents, echoRead, queueAfterEcho, arrivalsAfterEcho, queueAtEcho,
      Memory.writeSeq]

/-- The exchange of an operation whose frame is written. -/
theorem exchangeFrame_eq {s : State} {f : List Byte} (hf : readFrame s = (f, s.draws)) :
    exchangeFrame s =
      (responseRead f.length s.regs.xexp.toNat s,
        { s with
          regs.rxlen := BitVec.ofNat 9 (responseRead f.length s.regs.xexp.toNat s).length
          status.anom := s.status.anom || anomaly f (echoRead f.length s)
          buf.rxbuf := Memory.writeSeq s.buf.rxbuf 0 (responseRead f.length s.regs.xexp.toNat s)
          bus := busAfter f s.regs.xexp.toNat s }) := by
  unfold exchangeFrame
  rw [hf]
  simp only [exchange_eq]
  rfl

/-- `Attempt()` with NORESP (42_command.md R173). -/
theorem attempt_noresp (s : State) : attempt true s = (codeOk, (exchangeFrame s).2) := rfl

/-- `Attempt()` without NORESP (42_command.md R172). -/
theorem attempt_eq (s : State) :
    attempt false s =
      (verdict s.cfg s.regs.xexp.toNat (exchangeFrame s).1,
        noteError (verdict s.cfg s.regs.xexp.toNat (exchangeFrame s).1) (exchangeFrame s).1
          (exchangeFrame s).2) := by
  obtain ⟨-, hd⟩ := exchangeFrame_descriptor s
  simp only [attempt, Bool.false_eq_true, if_false, verdict]
  generalize exchangeFrame s = x at *
  have hdev : x.2.regs.devaddr = s.regs.devaddr := by rw [hd]
  have hv : ∀ a b, (s.cfg.rxck && !verify8 a b) = (s.cfg.rxck && b != cks8 a) := fun _ _ => rfl
  simp only [hv]
  split_ifs with h1 h2 h3
  · rfl
  · rfl
  · simp [noteError, codeDevErr, hdev]
  · have h4 : x.1.getD 4 0 = s.cfg.noError := not_not.mp h3
    simp only [noteError, codeOk, true_or, if_true, h4, hdev]

theorem verdict_le (c : Config) (n : Nat) (rx : List Byte) : (verdict c n rx).toNat ≤ 4 := by
  unfold verdict; split_ifs <;> decide

/-! ## The LASTERR file -/

/-- A verdict writes LASTERR only. -/
theorem noteError_eq (c : BitVec 4) (rx : List Byte) (s : State) :
    noteError c rx s = { s with buf.lasterr := (noteError c rx s).buf.lasterr } := by
  unfold noteError setLastErr; split_ifs <;> rfl

/-- A write of one LASTERR entry, read back through any address. -/
theorem lastErr_setLastErr {s : State} (hw : FilesWf s) {a : Nat} (ha : a < s.cfg.naddr) (e : Byte)
    (b : Nat) : lastErr (setLastErr s a e) b = if b = a then e else lastErr s b := by
  have hr : Memory.rising 0 s.buf.lasterr = true := by
    have := hw.lasterr; simp [Memory.wf] at this; exact this.1.1
  have hf := Memory.find_write (d := some s.cfg.noStatus) hr a b e
  have h2 : ∀ m, (Memory.find m b).getD s.cfg.noStatus =
      ((Memory.find m b).or (some s.cfg.noStatus)).getD s.cfg.noStatus := by
    intro m; cases Memory.find m b <;> rfl
  simp only [lastErr, setLastErr, ha, if_true, h2]
  rw [hf]
  by_cases hb : b = a
  · subst hb; simp [ha]
  · simp [hb]

/-! ## BUILD -/

/-- Entries that are all written are read as they stand. -/
theorem Memory.readSeq_find (m : List Host.Cell) (n k : Nat)
    (h : ∀ j < n, (Memory.find m j).isSome = true) :
    Memory.readSeq m 0 n k = ((List.range n).map (fun j => (Memory.find m j).getD 0), k) := by
  apply Memory.readSeq_written _ _ _ _ _ (by simp)
  intro j hj
  obtain ⟨b, hb⟩ := Option.isSome_iff_exists.mp (h j hj)
  simp [hb, hj]

/-- The unit after a run is left holding the sum (40_checksum_frame.md R137). -/
theorem ckRun_eq (acc : Byte) (s : List Byte) : ckRun acc s = BitVec.ofNat 8 (sumBytes s) := by
  have h : ∀ x : Byte,
      s.foldl (fun x b => ckStep false true b x) x = x + BitVec.ofNat 8 (sumBytes s) := by
    induction s with
    | nil => intro x; simp [sumBytes]
    | cons b s ih =>
      intro x
      rw [List.foldl_cons, ih]
      apply BitVec.eq_of_toNat_eq
      simp [ckStep, sumBytes, BitVec.toNat_add]; omega
  rw [ckRun, h]
  simp [ckStep]

theorem frame_covered (a i : Byte) (p : List Byte) :
    ((frame a i p).drop 2).take (p.length + 3) = covered a i p := by
  simp only [frame, framed, List.drop_succ_cons, List.drop_zero]
  have : p.length + 3 = (covered a i p).length := by simp [covered]
  rw [this, List.take_left]

@[simp] theorem payload_length (n : Nat) (s : State) : (payload n s).length = n := by simp [payload]

@[simp] theorem builtFrame_length (s : State) : (builtFrame s).length = s.regs.plen.toNat + 6 := by
  simp [builtFrame]

/-- BUILD of a legal descriptor whose payload is written. -/
theorem buildFrame_eq {nr : Bool} {op : HostOp} {s : State} (h : LegalDescriptor nr s) :
    buildFrame (accepted op nr s) =
      { builtState nr s with status := (accepted op nr s).status, seq := (accepted op nr s).seq } := by
  have hr := Memory.readSeq_find s.buf.pbuf s.regs.plen.toNat s.draws h.written
  have hf := frame_covered s.regs.devaddr s.regs.instr (payload s.regs.plen.toNat s)
  rw [payload_length] at hf
  have hn := accepted_curNoresp op nr s
  obtain ⟨h1, h2, h3⟩ := wire_packet (wire_of_legal h.params)
  simp only [buildFrame, hn, framed_eq_frame (c := (accepted op nr s).cfg) h1 h2]
  have e1 : (accepted op nr s).regs = s.regs := rfl
  have e2 : (accepted op nr s).buf = s.buf := rfl
  have e3 : (accepted op nr s).draws = s.draws := rfl
  rw [e1, e2, e3, hr]
  simp only [ckRun_eq, builtState, builtFrame]
  rw [hf]
  have e4 : (accepted op nr s).cfg.ovh = 6 := h3
  simp only [frameLen, respLen, e4]
  rfl

/-- The frame that BUILD left is what an exchange sends. -/
theorem readFrame_built (nr : Bool) (s : State) (x : Status) (y : Seq) :
    readFrame { builtState nr s with status := x, seq := y } = (builtFrame s, s.draws) := by
  have := s.regs.plen.isLt
  have hl : (BitVec.ofNat 9 (s.regs.plen.toNat + 6)).toNat = (builtFrame s).length := by
    rw [builtFrame_length, BitVec.toNat_ofNat]; omega
  show Memory.readSeq (Memory.writeSeq s.buf.txf 0 (builtFrame s)) 0
    (BitVec.ofNat 9 (s.regs.plen.toNat + 6)).toNat s.draws = _
  rw [hl, Memory.readSeq_writeSeq]

theorem builtState_xexp (nr : Bool) (s : State) :
    (builtState nr s).regs.xexp.toNat = if nr then 0 else expected s := by
  have := s.regs.explen.isLt
  cases nr <;> simp [builtState, expected]; omega

/-- The address of a legal descriptor has a LASTERR entry (10_state.md R23, R43). -/
theorem devaddr_of_good {nr : Bool} {s : State} (h : badDescriptor nr s = false) :
    s.regs.devaddr.toNat < 255 := by
  simp [badDescriptor] at h
  have h1 := h.1.1
  have h2 := s.regs.devaddr.isLt
  have : s.regs.devaddr.toNat ≠ 255 := fun h => h1 (BitVec.eq_of_toNat_eq h)
  omega

end Sys2Proof.Machine
end

