-- ==== Sys2Proof/Laws/HostPort.lean ====
section
/-! SUPPORT. Host accesses to an idle block, the descriptor writes of an expansion in one go,
and the outcome of a pseudo-operation. -/

namespace Sys2Proof.Machine

theorem advance_idle {s : State} (h : s.status.busy = false) : advance s = s := by
  simp [advance, h]

/-- A write never changes BUSY. -/
@[simp] theorem writeReg_status (r : RegNo) (v : Word) (s : State) :
    (writeReg r v s).status = s.status := by
  unfold writeReg; split_ifs <;> rfl

/-- A host write on an idle block is the write alone. -/
theorem hostWrite_idle {r : RegNo} {v : Word} {s : State} (hr : r ≠ rCmd)
    (h : s.status.busy = false) : hostWrite r v s = writeReg r v s := by
  unfold hostWrite
  rw [if_neg hr, advance_idle (by simpa using h)]

theorem writeReg_busy {r : RegNo} {v : Word} {s : State} (h : s.status.busy = true) :
    writeReg r v s = s := by simp [writeReg, h]

/-! ## What a write stores, register by register (10_state.md Table 10-1) -/

theorem writeReg_devaddr {v : Word} {s : State} (h : s.status.busy = false) :
    writeReg rDevaddr v s = { s with regs.devaddr := v.setWidth 8 } := by simp [writeReg, h]

theorem writeReg_instr {v : Word} {s : State} (h : s.status.busy = false) :
    writeReg rInstr v s = { s with regs.instr := v.setWidth 8 } := by
  simp [writeReg, h, rInstr, rDevaddr]

theorem writeReg_plen {v : Word} {s : State} (h : s.status.busy = false) :
    writeReg rPlen v s = { s with regs.plen := v.setWidth 8 } := by
  simp [writeReg, h, rPlen, rInstr, rDevaddr]

theorem writeReg_explen {v : Word} {s : State} (h : s.status.busy = false) :
    writeReg rExplen v s = { s with regs.explen := v.setWidth 8 } := by
  simp [writeReg, h, rExplen, rPlen, rInstr, rDevaddr]

theorem writeReg_bufidx {v : Word} {s : State} (h : s.status.busy = false) :
    writeReg rBufidx v s = { s with regs.bufidx := v.setWidth 9 } := by
  simp [writeReg, h, rBufidx, rXexp, rXlen, rExplen, rPlen, rInstr, rDevaddr]

theorem writeReg_paydata {v : Word} {s : State} (h : s.status.busy = false) :
    writeReg rPaydata v s =
      { s with
        buf.pbuf := portWrite s.cfg.pmax s.buf.pbuf s.regs.bufidx.toNat (v.setWidth 8) } := by
  simp [writeReg, h, rPaydata, rBufidx, rXexp, rXlen, rExplen, rPlen, rInstr, rDevaddr]

/-! ## Reads of an idle block (10_state.md R20, R32) -/

theorem readReg_idle {r : RegNo} {s : State} (h : s.status.busy = false) :
    readReg r s = readRegIdle r s := by simp [readReg, h]

/-- A port read of an unwritten entry takes the free value of the counter and moves the counter past it. -/
theorem portRead_unwritten {size : Nat} {m : List Host.Cell} {i : Nat} (hi : i < size)
    (h : Memory.find m i = none) (k : Nat) : portRead size m i k = (Config.freeByte k, k + 1) := by
  simp [portRead, drawEntry, hi, h]

/-! ## Runs of statements -/

theorem runStmts_write {r : RegNo} {v : Word} {is : List Input} {s : State} (hr : r ≠ rCmd)
    (h : s.status.busy = false) :
    runStmts (.write r v :: is) s = runStmts is (writeReg r v s) := by
  simp [runStmts, hostStmt, hostWrite_idle hr h]

/-- Writes never stop a run. -/
theorem runStmts_append (a b : List Input) (s : State) (h : ∀ i ∈ a, ∃ r v, i = .write r v) :
    runStmts (a ++ b) s = runStmts b (runStmts a s) := by
  induction a generalizing s with
  | nil => rfl
  | cons i a ih =>
    obtain ⟨r, v, rfl⟩ := h i (by simp)
    simp only [List.cons_append, runStmts, reduceCtorEq, false_and, if_false]
    exact ih _ (fun i hi => h i (by simp [hi]))

theorem payloadStmts_writes (p : List Byte) (i : Nat) :
    ∀ x ∈ payloadStmts i p, ∃ r v, x = .write r v := by
  induction p generalizing i with
  | nil => simp [payloadStmts]
  | cons b p ih =>
    intro x hx
    simp only [payloadStmts, stmtPay, List.cons_append, List.nil_append, List.mem_cons] at hx
    rcases hx with rfl | rfl | hx
    · exact ⟨_, _, rfl⟩
    · exact ⟨_, _, rfl⟩
    · exact ih _ _ hx

/-- `pay i, p[0]`, `pay i + 1, p[1]`, ... on an idle block. -/
theorem runStmts_payload (p : List Byte) (i : Nat) (s : State) (h : s.status.busy = false)
    (hp : i + p.length ≤ 512) :
    runStmts (payloadStmts i p) s =
      { s with
        regs.bufidx := if p = [] then s.regs.bufidx else BitVec.ofNat 9 (i + p.length - 1)
        buf.pbuf := loadPayload s.cfg.pmax s.buf.pbuf i p } := by
  induction p generalizing i s with
  | nil => rfl
  | cons b p ih =>
    simp only [payloadStmts, stmtPay, List.cons_append, List.nil_append]
    simp only [List.length_cons] at hp
    have h9 : (BitVec.ofNat 16 i).setWidth 9 = BitVec.ofNat 9 i := by
      apply BitVec.eq_of_toNat_eq; simp
    have h8 : (b.setWidth 16).setWidth 8 = b := by apply BitVec.eq_of_toNat_eq; simp
    have hi : (BitVec.ofNat 9 i).toNat = i := by rw [BitVec.toNat_ofNat]; omega
    rw [runStmts_write (by decide) h, writeReg_bufidx h, h9,
      runStmts_write (by decide) (by exact h), writeReg_paydata (by exact h), h8]
    simp only [hi]
    rw [ih _ _ (by exact h) (by omega)]
    by_cases hp0 : p = []
    · subst hp0; simp [loadPayload]
    · have : i + 1 + p.length - 1 = i + (p.length + 1) - 1 := by omega
      simp [hp0, loadPayload, this]

/-- The descriptor writes of an expansion on an idle block (43_bus_instructions.md R210 to R212). -/
theorem runStmts_descriptor (a i : Byte) (p : List Byte) (e : Byte) (rest : List Input) (s : State)
    (h : s.status.busy = false) (hp : p.length ≤ 255) :
    runStmts (descriptorStmts a i p e ++ rest) s = runStmts rest (loadDescriptor a i p e s) := by
  have e8 : ∀ b : Byte, (b.setWidth 16).setWidth 8 = b := by
    intro b; apply BitVec.eq_of_toNat_eq; simp
  have e9 : (BitVec.ofNat 16 p.length).setWidth 8 = BitVec.ofNat 8 p.length := by
    apply BitVec.eq_of_toNat_eq; simp
  simp only [descriptorStmts, List.append_assoc, List.cons_append, List.nil_append]
  rw [runStmts_write (by decide) h, writeReg_devaddr h, runStmts_write (by decide) (by exact h),
    writeReg_instr (by exact h), runStmts_write (by decide) (by exact h), writeReg_plen (by exact h),
    runStmts_append _ _ _ (payloadStmts_writes p 0), runStmts_payload _ _ _ (by exact h) (by omega),
    runStmts_write (by decide) (by exact h), writeReg_explen (by exact h)]
  simp only [e8, e9, Nat.zero_add]
  rfl

/-! ## Outcomes of a pseudo-operation (43_bus_instructions.md R218) -/

theorem outcome_of_ok {s : State} (h : opEnded s = true) (hc : s.status.code = codeOk) :
    rd1Value s = Memory.find s.buf.rxbuf 5 ∧ pseudoFailure s = none := by
  simp [rd1Value, pseudoFailure, h, hc]

theorem outcome_of_failure {s : State} (h : opEnded s = true) (hc : s.status.code ≠ codeOk) :
    rd1Value s = none ∧ rd2Value s = none ∧
      pseudoFailure s = some (s.status.code, s.regs.instr, s.regs.devaddr) := by
  simp [rd1Value, rd2Value, pseudoFailure, h, hc]

/-- An operation that has not ended has neither a value nor a failure. -/
theorem outcome_of_running {s : State} (h : opEnded s = false) :
    rd1Value s = none ∧ rd2Value s = none ∧ pseudoFailure s = none := by
  simp [rd1Value, rd2Value, pseudoFailure, h]

end Sys2Proof.Machine
end

