-- ==== Sys2Proof/Laws/IdealBus.lean ====
section
/-! SUPPORT. What counts as a request on the ideal bus, and when its device answers. -/

namespace Sys2Proof.Machine

/-- A frame is a request, with its own address, instruction byte and payload. -/
theorem requestOf_frame {a i : Byte} {p : List Byte} (hp : p.length ≤ 253) :
    requestOf (frame a i p) = some (a, i, p) := by
  have h0 : ((frame a i p).drop 5).dropLast = p := by simp [frame, framed, covered]
  have h1 : (frame a i p).getD 2 0 = a := by simp [frame, framed, covered]
  have h2 : (frame a i p).getD 4 0 = i := by simp [frame, framed, covered]
  simp only [requestOf, h0, h1, h2]
  simp [hp]

/-- Only a frame is a request. -/
theorem requestOf_eq_some {bs : List Byte} {a i : Byte} {p : List Byte}
    (h : requestOf bs = some (a, i, p)) : p.length ≤ 253 ∧ bs = frame a i p := by
  simp only [requestOf] at h
  split at h
  · next hc => cases h; exact hc
  · cases h

/-- The device's answer to a request. -/
theorem devAnswer_frame (d : Device) {a i : Byte} {p : List Byte} (hp : p.length ≤ 253) :
    devAnswer d (frame a i p) =
      if d.answersTo a then statusPacket d.addr d.err (devPayload d.regs i p) else [] := by
  simp only [devAnswer, requestOf_frame hp]

/-- Bytes that are no request are not answered. -/
theorem devAnswer_of_no_frame (d : Device) {bs : List Byte}
    (h : ∀ a i p, p.length ≤ 253 → bs ≠ frame a i p) : devAnswer d bs = [] := by
  unfold devAnswer
  split
  · next a i p hr => exact absurd (requestOf_eq_some hr).2 (h a i p (requestOf_eq_some hr).1)
  · rfl

/-- No device answers a request to 254 or 255 (20_memory.md R63, R72 b). -/
theorem answersTo_address {d : Device} {a : Byte} (h : d.answersTo a = true) :
    a = d.addr ∧ a.toNat ≤ 253 := by
  simpa [Device.answersTo, answeringAddress] using h

end Sys2Proof.Machine
end

