-- ==== Sys2Proof/Laws/Invariant.lean ====
section
/-! SUPPORT. The invariant `Inv` and the shared operations: one lemma for each phase, each host access and each
named update. -/

namespace Sys2Proof.Machine

theorem inv_endOperation {s : State} {c : BitVec 4} (hi : Inv s) (hc : c.toNat ≤ 4)
    (h1 : s.seq.turnTimer = 0) (h2 : s.seq.backoffTimer = 0) : Inv (endOperation c s) := by
  obtain ⟨hcfg, hf, hfl, hs, hr⟩ := hi
  refine ⟨hcfg, ⟨hf.1,hf.2,hf.3,hf.4⟩, ⟨?_,?_,?_,?_,hfl.retried⟩, ⟨?_,?_,?_,?_,hs.txCnt,hs.echoCnt,hs.respCnt,?_,?_,?_,?_,?_,?_⟩, ⟨hr.1,hr.2⟩⟩ <;>
   simp [Phase.underWay, Phase.sent, hc, h1, h2]

theorem legal_facts {c : Config} (h : c.legal = true) :
    c.naddr = 255 ∧ c.pmax ≤ 253 ∧ c.emax ≤ 253 ∧ c.xmax ≤ 259 ∧ c.pmax + 6 ≤ c.xmax ∧ c.emax + 6 ≤ c.xmax := by
  have h6 := (wire_packet (wire_of_legal h)).2.2
  simp [Config.legal, Config.wire, h6] at h; omega

theorem badDesc_facts {nr : Bool} {s : State} (h : badDescriptor nr s = false) :
    s.regs.devaddr ≠ 0xFF ∧ s.regs.plen.toNat ≤ s.cfg.pmax ∧ (nr = false → s.regs.explen.toNat ≤ s.cfg.emax) := by
  simp [badDescriptor] at h
  exact ⟨h.1.1, h.1.2, h.2⟩

theorem inv_startExchange {s : State} (hi : Inv s) (hbusy : s.status.busy = true)
   (hleg : badCmd s = false ∧ curOp s ≠ .cks)
   (hx : s.regs.xlen.toNat ≤ s.cfg.xmax) (he : s.regs.xexp.toNat ≤ s.cfg.xmax)
   (hb : curOp s ≠ .xchg → s.regs.xlen = frameLen s.cfg s.regs.plen.toNat ∧ s.regs.xexp = respLen s.cfg (curNoresp s) s.regs.explen)
   (h1 : s.seq.turnTimer = 0) (h2 : s.seq.backoffTimer = 0) : Inv (startExchange s) := by
  obtain ⟨hcfg, hf, hfl, hs, hr⟩ := hi
  refine ⟨hcfg, ⟨hf.1,hf.2,hf.3,hf.4⟩, ⟨?_,hfl.notBoth,hfl.code,hfl.codeBusy,hfl.retried⟩,
   ⟨fun _ => hleg,?_,fun _ => he, fun _ => hb,?_,?_,?_,?_,?_,?_,?_,?_,?_⟩, ⟨?_,?_⟩⟩
  · simp [hbusy]
  · intro _; simpa using hx
  all_goals simp [Phase.sent, h1, h2]

theorem inv_buildFrame {s : State} (hi : Inv s) (hp : s.seq.phase = .build) (hbad : badDescriptor (curNoresp s) s = false) :
    Inv (buildFrame s) := by
  obtain ⟨hcfg, hf, hfl, hs, hr⟩ := hi
  obtain ⟨hn, hpm, hem, hxm, h6, h7⟩ := legal_facts hcfg
  obtain ⟨-, hpl, -⟩ := badDesc_facts hbad
  have h1 := hs.turnTimer
  have h2 := hs.backoffTimer
  have hph : (buildFrame s).seq.phase = .build := hp
  refine ⟨hcfg, ⟨hf.1,hf.2,?_,hf.4⟩,
      ⟨hfl.busyPhase,hfl.notBoth,hfl.code,hfl.codeBusy,hfl.retried⟩,
      ⟨?_,?_,?_,?_,hs.txCnt,hs.echoCnt,hs.respCnt,?_,?_,?_,?_,h1,h2⟩, ⟨hr.1,hr.2⟩⟩
  · apply Memory.wf_writeSeq _ hf.3
    rw [framed_length, Memory.readSeq_length]
    show 0 + _ ≤ s.cfg.xmax
    omega
  all_goals (rw [hph]; simp [Phase.underWay, Phase.sent])

theorem build_bounds {s : State} (hcfg : s.cfg.legal = true) (hbad : badDescriptor (curNoresp s) s = false) :
  (buildFrame s).regs.xlen.toNat ≤ s.cfg.xmax ∧ (buildFrame s).regs.xexp.toNat ≤ s.cfg.xmax := by
  obtain ⟨hn, hpm, hem, hxm, h6, h7⟩ := legal_facts hcfg
  obtain ⟨-, hpl, hel⟩ := badDesc_facts hbad
  have ho := (wire_packet (wire_of_legal hcfg)).2.2
  constructor
  · show (frameLen s.cfg _).toNat ≤ _
    simp [frameLen, ho]; omega
  · show (respLen s.cfg _ _).toNat ≤ _
    unfold respLen
    split_ifs with h
    · simp
    · simp only [Bool.not_eq_true] at h
      have := hel h
      simp [ho]; omega

theorem inv_setLastErr {s : State} (hi : Inv s) (a : Nat) (e : Byte) : Inv (setLastErr s a e) := by
  unfold setLastErr
  split_ifs with h
  · obtain ⟨hcfg, hf, hfl, hs, hr⟩ := hi
    exact ⟨hcfg, ⟨Memory.wf_write hf.1 h,hf.2,hf.3,hf.4⟩, ⟨hfl.1,hfl.2,hfl.3,hfl.4,hfl.5⟩, ⟨hs.1,
        hs.2,hs.3,hs.4,hs.5,hs.6,hs.7,hs.8,hs.9,hs.10,hs.11,hs.12,hs.13⟩, ⟨hr.1,hr.2⟩⟩
  · exact hi

theorem badCmd_build {s : State} (hop : curOp s = .cmd ∨ curOp s = .cmdr) (h1 : s.seq.rsvd = false)
    (h2 : badDescriptor (curNoresp s) s = false) : badCmd (buildFrame s) = false := by
  have e1 : curOp (buildFrame s) = curOp s := rfl
  have e2 : badDescriptor (curNoresp (buildFrame s)) (buildFrame s) = badDescriptor (curNoresp s) s := rfl
  have e3 : (buildFrame s).seq.rsvd = s.seq.rsvd := rfl
  rcases hop with h | h <;> simp [badCmd, e1, e2, e3, h, h1, h2]

theorem inv_phaseBuild {s : State} (hi : Inv s) (hp : s.seq.phase = .build) :
    Inv (phaseBuild s) := by
  have ht1 : s.seq.turnTimer = 0 := by have := hi.seq.turnTimer; rw [hp] at this; simpa using this
  have ht2 : s.seq.backoffTimer = 0 := by have := hi.seq.backoffTimer; rw [hp] at this; simpa using this
  have hb : s.status.busy = true := hi.flags.busyPhase.mpr (by rw [hp]; decide)
  unfold phaseBuild
  split_ifs with hbad
  · exact inv_endOperation hi (by decide) ht1 ht2
  · simp only [Bool.not_eq_true] at hbad
    have hbad' := hbad
    simp only [badCmd, Bool.or_eq_false_iff] at hbad
    cases hop : curOp s <;> rw [hop] at hbad <;> simp only at hbad ⊢
    · have hl := hbad.2
      simp [badLengths] at hl
      exact inv_startExchange hi hb ⟨hbad', by rw [hop]; decide⟩ hl.1 hl.2 (fun h => absurd hop h) ht1 ht2
    · have := build_bounds hi.cfg hbad.2
      exact inv_startExchange (inv_buildFrame hi hp hbad.2) hb ⟨badCmd_build (Or.inl hop) hbad.1 hbad.2, by show curOp s ≠ _; rw [hop]; decide⟩ this.1 this.2 (fun _ => ⟨rfl, rfl⟩) ht1 ht2
    · have := build_bounds hi.cfg hbad.2
      exact inv_startExchange (inv_buildFrame hi hp hbad.2) hb ⟨badCmd_build (Or.inr hop) hbad.1 hbad.2, by show curOp s ≠ _; rw [hop]; decide⟩ this.1 this.2 (fun _ => ⟨rfl, rfl⟩) ht1 ht2
    · have h := inv_buildFrame hi hp hbad.2
      refine inv_endOperation (s := { buildFrame s with regs.rxlen := 0 }) ?_ (by decide) ht1 ht2
      obtain ⟨hcfg, hf, hfl, hs, hr⟩ := h
      refine ⟨hcfg, ⟨hf.1,hf.2,hf.3,hf.4⟩, ⟨hfl.1,hfl.2,hfl.3,hfl.4,hfl.5⟩, ⟨hs.1,hs.2,hs.3,hs.4,
          hs.5,hs.6,hs.7,hs.8,hs.9,hs.10,hs.11,hs.12,hs.13⟩, ⟨by simp,by simp⟩⟩

theorem takeNow_le (rem : Nat) (ts : List Nat) (h : Bool) : (takeNow rem ts h).1 ≤ rem := by
  cases rem <;> cases ts <;> simp [takeNow]
  split_ifs <;> omega

theorem inv_phaseTx {s : State} (hi : Inv s) (hp : s.seq.phase = .tx) : Inv (phaseTx s) := by
  have hk := takeNow_le (s.seq.txSeq.length - s.seq.txCnt) s.bus.takes s.bus.txHung
  have hb : s.status.busy = true := hi.flags.busyPhase.mpr (by rw [hp]; decide)
  obtain ⟨hcfg, hf, hfl, hs, hr⟩ := hi
  have hu : s.seq.phase.underWay = true := by rw [hp]; rfl
  have h1 := hs.turnTimer
  have h2 := hs.backoffTimer
  have h3 := hs.txCnt
  rw [hp] at h1 h2
  unfold phaseTx
  simp only
  split_ifs with h
  · refine ⟨hcfg, ⟨hf.1,hf.2,hf.3,hf.4⟩, ⟨by simp [hb],hfl.2,hfl.3,hfl.4,hfl.5⟩, ⟨fun _ => hs.1 hu,fun _ => hs.2 hu,fun _ => hs.3 hu,fun _ => hs.4 hu,?_,hs.6,hs.7,?_,?_,?_,?_,?_,?_⟩, ⟨hr.1,hr.2⟩⟩
    · simp; omega
    · intro _; simp; omega
    all_goals simp at h1 h2 ⊢ <;> assumption
  · refine ⟨hcfg, ⟨hf.1,hf.2,hf.3,hf.4⟩, ⟨hfl.1,hfl.2,hfl.3,hfl.4,hfl.5⟩, ⟨hs.1 ,hs.2 ,hs.3,hs.4,?_,hs.6,hs.7,?_,hs.9,hs.10,hs.11,hs.12,hs.13⟩, ⟨hr.1,hr.2⟩⟩
    · simp; omega
    · simp [hp, Phase.sent]

theorem inv_phaseEcho {s : State} (hi : Inv s) (hp : s.seq.phase = .echo) : Inv (phaseEcho s) := by
  have hb : s.status.busy = true := hi.flags.busyPhase.mpr (by rw [hp]; decide)
  obtain ⟨hcfg, hf, hfl, hs, hr⟩ := hi
  have hu : s.seq.phase.underWay = true := by rw [hp]; rfl
  have h1 := hs.turnTimer
  have h2 := hs.backoffTimer
  have hsent := hs.sent (by rw [hp]; rfl)
  rw [hp] at h1 h2
  have hle := rxBytes_length_le s.seq.txSeq.length s.bus
  have key : Inv (markAnomaly s.seq.txSeq (rxBytes s.seq.txSeq.length s.bus) { s with bus := rxBus s.seq.txSeq.length s.bus, seq.echoCnt := (rxBytes s.seq.txSeq.length s.bus).length }) := by
    refine ⟨hcfg, ⟨hf.1,hf.2,hf.3,hf.4⟩, ⟨hfl.1,hfl.2,hfl.3,hfl.4,hfl.5⟩, ⟨hs.1 ,hs.2 ,hs.3,hs.4,
        hs.5,hle,hs.7,hs.8,hs.9,hs.10,hs.11,hs.12,hs.13⟩, ⟨hr.1,hr.2⟩⟩
  unfold phaseEcho
  simp only [rxRead_eq]
  set m := markAnomaly s.seq.txSeq (rxBytes s.seq.txSeq.length s.bus) { s with bus := rxBus s.seq.txSeq.length s.bus, seq.echoCnt := (rxBytes s.seq.txSeq.length s.bus).length } with hm
  have hmp : m.seq.phase = .echo := hp
  have hmb : m.status.busy = true := hb
  have h1' : m.seq.turnTimer = 0 := h1
  have h2' : m.seq.backoffTimer = 0 := h2
  clear_value m
  have hu : m.seq.phase.underWay = true := by rw [hmp]; rfl
  have hchk : curOp m ≠ .xchg → Inv { m with seq.phase := .check } := by
    intro hne
    obtain ⟨hcfg, hf, hfl, hs, hr⟩ := key
    refine ⟨hcfg, ⟨hf.1,hf.2,hf.3,hf.4⟩, ⟨by simp [hmb],hfl.2,hfl.3,hfl.4,hfl.5⟩,
        ⟨fun _ => hs.1 hu,fun _ => hs.2 hu,fun _ => hs.3 hu,fun _ => hs.4 hu,hs.5,hs.6,hs.7,
        fun _ => hs.8 (by rw [hmp]; rfl),?_,fun _ => hne,?_,?_,?_⟩, ⟨hr.1,hr.2⟩⟩
    all_goals simp [h1', h2']
  unfold afterEcho
  split_ifs with hx
  · cases hop : curOp m <;> simp only
    · exact inv_endOperation key (by decide) h1' h2'
    all_goals exact hchk (by rw [hop]; decide)
  · obtain ⟨hcfg, hf, hfl, hs, hr⟩ := key
    refine ⟨hcfg, ⟨hf.1,hf.2,hf.3,hf.4⟩, ⟨by simp [hmb],hfl.2,hfl.3,hfl.4,hfl.5⟩,
        ⟨fun _ => hs.1 hu,fun _ => hs.2 hu,fun _ => hs.3 hu,fun _ => hs.4 hu,hs.5,hs.6,hs.7,
        fun _ => hs.8 (by rw [hmp]; rfl),fun _ => hx,?_,?_,?_,?_⟩, ⟨hr.1,hr.2⟩⟩
    all_goals simp [h2']

theorem inv_phaseTurn {s : State} (hi : Inv s) (hp : s.seq.phase = .turn) : Inv (phaseTurn s) := by
  have hb : s.status.busy = true := hi.flags.busyPhase.mpr (by rw [hp]; decide)
  obtain ⟨hcfg, hf, hfl, hs, hr⟩ := hi
  have hu : s.seq.phase.underWay = true := by rw [hp]; rfl
  have h2 := hs.backoffTimer
  rw [hp] at h2
  refine ⟨hcfg, ⟨hf.1,hf.2,hf.3,hf.4⟩, ⟨by simp [phaseTurn, hb],hfl.2,hfl.3,hfl.4,hfl.5⟩,
      ⟨fun _ => hs.1 hu,fun _ => hs.2 hu,fun _ => hs.3 hu,fun _ => hs.4 hu,hs.5,hs.6,hs.7,
      fun _ => hs.8 (by rw [hp]; rfl),fun _ => hs.9 (Or.inl hp),?_,?_,?_,?_⟩, ⟨hr.1,hr.2⟩⟩
  all_goals simp at h2; simp [phaseTurn, h2]

theorem inv_phaseResp {s : State} (hi : Inv s) (hp : s.seq.phase = .resp) : Inv (phaseResp s) := by
  have hb : s.status.busy = true := hi.flags.busyPhase.mpr (by rw [hp]; decide)
  obtain ⟨hcfg, hf, hfl, hs, hr⟩ := hi
  have hu : s.seq.phase.underWay = true := by rw [hp]; rfl
  have h1 := hs.turnTimer
  have h2 := hs.backoffTimer
  rw [hp] at h1 h2
  have hle := rxBytes_length_le s.regs.xexp.toNat s.bus
  have hxm := hs.3 hu
  have hsm := (legal_facts hcfg).2.2.2.1
  unfold phaseResp
  simp only [rxRead_eq]
  set rx := rxBytes s.regs.xexp.toNat s.bus
  have key : Inv (storeResponse rx { s with bus := rxBus s.regs.xexp.toNat s.bus }) := by
    have hlen : (BitVec.ofNat 9 rx.length).toNat = rx.length := by
      rw [BitVec.toNat_ofNat]; exact Nat.mod_eq_of_lt (by omega)
    refine ⟨hcfg, ⟨hf.1,hf.2,hf.3,?_⟩, ⟨hfl.1,hfl.2,hfl.3,hfl.4,hfl.5⟩, ⟨hs.1 ,hs.2 ,hs.3,hs.4,
        hs.5,hs.6,?_,hs.8,hs.9,hs.10,hs.11,hs.12,hs.13⟩, ⟨?_,?_⟩⟩
    · exact Memory.wf_writeSeq _ hf.4 (by show 0 + _ ≤ s.cfg.xmax; omega)
    · show rx.length ≤ s.cfg.xmax; omega
    · simp only [storeResponse, hlen]; omega
    · intro j hj
      simp only [storeResponse, hlen] at hj
      simp only [storeResponse, Memory.find_writeSeq]
      rw [if_pos (by omega)]
      simp; omega
  set m := storeResponse rx { s with bus := rxBus s.regs.xexp.toNat s.bus }
  have hmp : m.seq.phase = .resp := hp
  have hmb : m.status.busy = true := hb
  have h1' : m.seq.turnTimer = 0 := h1
  have h2' : m.seq.backoffTimer = 0 := h2
  clear_value m
  have hu : m.seq.phase.underWay = true := by rw [hmp]; rfl
  have hchk : curOp m ≠ .xchg → Inv { m with seq.phase := .check } := by
    intro hne
    obtain ⟨hcfg, hf, hfl, hs, hr⟩ := key
    refine ⟨hcfg, ⟨hf.1,hf.2,hf.3,hf.4⟩, ⟨by simp [hmb],hfl.2,hfl.3,hfl.4,hfl.5⟩,
        ⟨fun _ => hs.1 hu,fun _ => hs.2 hu,fun _ => hs.3 hu,fun _ => hs.4 hu,hs.5,hs.6,hs.7,
        fun _ => hs.8 (by rw [hmp]; rfl),?_,fun _ => hne,?_,?_,?_⟩, ⟨hr.1,hr.2⟩⟩
    all_goals simp [h1', h2']
  unfold afterResponse
  cases hop : curOp m <;> simp only
  · exact inv_endOperation key (by decide) h1' h2'
  all_goals exact hchk (by rw [hop]; decide)

theorem inv_afterAttempt {s : State} {c : BitVec 4} (hi : Inv s) (hp : s.seq.phase = .check) (hc : c.toNat ≤ 4) :
    Inv (afterAttempt c s) := by
  have hb : s.status.busy = true := hi.flags.busyPhase.mpr (by rw [hp]; decide)
  have h1 := hi.seq.turnTimer
  have h2 := hi.seq.backoffTimer
  rw [hp] at h1 h2
  unfold afterAttempt
  split_ifs with h
  · exact inv_endOperation hi hc h1 h2
  · push Not at h
    obtain ⟨hcfg, hf, hfl, hs, hr⟩ := hi
    have hu : s.seq.phase.underWay = true := by rw [hp]; rfl
    refine ⟨hcfg, ⟨hf.1,hf.2,hf.3,hf.4⟩, ⟨by simp [hb],hfl.2,hfl.3,hfl.4,hfl.5⟩,
        ⟨fun _ => hs.1 hu,fun _ => hs.2 hu,fun _ => hs.3 hu,fun _ => hs.4 hu,hs.5,hs.6,hs.7,
        fun _ => hs.8 (by rw [hp]; rfl),?_,?_,fun _ => ⟨h.2.1, by simpa using h.2.2⟩,?_,?_⟩,
        ⟨hr.1,hr.2⟩⟩
    all_goals simp at h1; simp [h1]

theorem inv_draws {s : State} (hi : Inv s) (d : Nat) : Inv { s with draws := d } := by
  obtain ⟨hcfg, hf, hfl, hs, hr⟩ := hi
  exact ⟨hcfg, ⟨hf.1,hf.2,hf.3,hf.4⟩, ⟨hfl.1,hfl.2,hfl.3,hfl.4,hfl.5⟩, ⟨hs.1,hs.2,hs.3,hs.4,hs.5,
      hs.6,hs.7,hs.8,hs.9,hs.10,hs.11,hs.12,hs.13⟩, ⟨hr.1,hr.2⟩⟩

theorem inv_io {s : State} (hi : Inv s) (d : HostSide) : Inv { s with io := d } := by
  obtain ⟨hcfg, hf, hfl, hs, hr⟩ := hi
  exact ⟨hcfg, ⟨hf.1,hf.2,hf.3,hf.4⟩, ⟨hfl.1,hfl.2,hfl.3,hfl.4,hfl.5⟩, ⟨hs.1,hs.2,hs.3,hs.4,hs.5,
      hs.6,hs.7,hs.8,hs.9,hs.10,hs.11,hs.12,hs.13⟩, ⟨hr.1,hr.2⟩⟩

theorem inv_acc {s : State} (hi : Inv s) (d : Byte) : Inv { s with acc := d } := by
  obtain ⟨hcfg, hf, hfl, hs, hr⟩ := hi
  exact ⟨hcfg, ⟨hf.1,hf.2,hf.3,hf.4⟩, ⟨hfl.1,hfl.2,hfl.3,hfl.4,hfl.5⟩, ⟨hs.1,hs.2,hs.3,hs.4,hs.5,
      hs.6,hs.7,hs.8,hs.9,hs.10,hs.11,hs.12,hs.13⟩, ⟨hr.1,hr.2⟩⟩

theorem inv_phaseCheck {s : State} (hi : Inv s) (hp : s.seq.phase = .check) :
    Inv (phaseCheck s) := by
  unfold phaseCheck
  split_ifs
  · exact inv_afterAttempt hi hp (by decide)
  · apply inv_afterAttempt _ _ (verdict_le _ _ _)
    · unfold noteError; split_ifs
      · exact inv_setLastErr (inv_draws hi _) _ _
      · exact inv_draws hi _
    · unfold noteError; split_ifs
      · rw [setLastErr_eq]; exact hp
      · exact hp

theorem inv_phaseBackoff {s : State} (hi : Inv s) (hp : s.seq.phase = .backoff) :
    Inv (phaseBackoff s) := by
  have hb : s.status.busy = true := hi.flags.busyPhase.mpr (by rw [hp]; decide)
  obtain ⟨hcfg, hf, hfl, hs, hr⟩ := hi
  have hu : s.seq.phase.underWay = true := by rw [hp]; rfl
  have h1 := hs.turnTimer
  rw [hp] at h1
  have hleg := hs.1 hu
  have hl := hs.2 hu
  have he := hs.3 hu
  have hbt := hs.4 hu
  refine ⟨hcfg, ⟨hf.1,hf.2,hf.3,hf.4⟩, ⟨?_,hfl.notBoth,hfl.code,hfl.codeBusy,rfl⟩,
   ⟨fun _ => hleg,?_,fun _ => he, fun _ => hbt,?_,?_,?_,?_,?_,?_,?_,?_,?_⟩, ⟨?_,?_⟩⟩
  · simp [phaseBackoff, hb]
  · intro _; simpa [phaseBackoff] using hl.2
  all_goals simp at h1; simp [phaseBackoff, Phase.sent, h1]

theorem inv_seqStep {s : State} (hi : Inv s) : Inv (seqStep s) := by
  unfold seqStep
  split
  · exact hi
  · exact inv_phaseBuild hi ‹_›
  · exact inv_phaseTx hi ‹_›
  · exact inv_phaseEcho hi ‹_›
  · exact inv_phaseTurn hi ‹_›
  · exact inv_phaseResp hi ‹_›
  · exact inv_phaseCheck hi ‹_›
  · exact inv_phaseBackoff hi ‹_›

theorem inv_seqRun {s : State} (hi : Inv s) (n : Nat) : Inv (seqRun n s) := by
  induction n generalizing s with
  | zero => exact hi
  | succ n ih => exact ih (inv_seqStep hi)

theorem inv_advance {s : State} (hi : Inv s) : Inv (advance s) := by
  unfold advance seqToEnd
  split_ifs
  · split
    · exact inv_seqRun hi _
    · exact inv_seqRun (inv_io hi _) _
  · exact hi

theorem inv_poll (ps : List Nat) {s : State} (hi : Inv s) : Inv (pollUntilDone ps s) := by
  induction ps generalizing s with
  | nil => unfold pollUntilDone seqToEnd; split_ifs; exact inv_seqRun (inv_io hi _) _; exact inv_io hi _
  | cons n ps ih => unfold pollUntilDone; split_ifs; exact ih (inv_seqRun hi _); exact inv_io hi _

theorem inv_acceptGo {s : State} (hi : Inv s) (hb : s.status.busy = false) (o : BitVec 3) (r : Bool) :
    Inv (acceptGo o r s) := by
  have hp : s.seq.phase = .idle := by
    by_contra h; rw [hi.flags.busyPhase.mpr h] at hb; exact absurd hb (by decide)
  obtain ⟨hcfg, hf, hfl, hs, hr⟩ := hi
  have h1 := hs.turnTimer
  have h2 := hs.backoffTimer
  rw [hp] at h1 h2
  refine ⟨hcfg, ⟨hf.1,hf.2,hf.3,hf.4⟩, ⟨?_,?_,?_,?_,?_⟩, ⟨?_,?_,?_,?_,hs.5,hs.6,
      hs.7,?_,?_,?_,?_,?_,?_⟩, ⟨hr.1,hr.2⟩⟩
  all_goals simp at h1 h2; simp [Phase.underWay, Phase.sent, h1, h2]

theorem inv_writeCmd {s : State} (hi : Inv s) (w : Word) : Inv (writeCmd w s) := by
  unfold writeCmd; split_ifs with h
  · exact hi
  · push Not at h; exact inv_acceptGo hi (by simpa using h.1) _ _

theorem inv_writeReg {s : State} (hi : Inv s) (r : RegNo) (v : Word) : Inv (writeReg r v s) := by
  unfold writeReg
  by_cases hb : s.status.busy = true
  · simp [hb]; exact hi
  have hp : s.seq.phase = .idle := by
    by_contra h; exact hb (hi.flags.busyPhase.mpr h)
  obtain ⟨hcfg, hf, hfl, hs, hr⟩ := hi
  have hs' : ∀ t : State, t.seq = s.seq → t.cfg = s.cfg → SeqWf t := by
    intro t h1 h2
    have hp' : t.seq.phase = .idle := by rw [h1]; exact hp
    refine ⟨?_,?_,?_,?_,by rw [h1]; exact hs.5,by rw [h1]; exact hs.6,by rw [h1,h2]; exact hs.7,?_,?_,?_,?_,by rw [h1,h2]; exact hs.12,by rw [h1,h2]; exact hs.13⟩
    all_goals simp [hp', Phase.underWay, Phase.sent]
  split_ifs
  all_goals first
    | exact ⟨hcfg, ⟨hf.1,hf.2,hf.3,hf.4⟩,
        ⟨hfl.1,hfl.2,hfl.3,hfl.4,hfl.5⟩, hs' _ rfl rfl, ⟨hr.1,hr.2⟩⟩
    | exact ⟨hcfg, ⟨hf.1,portWrite_wf hf.2,hf.3,hf.4⟩,
        ⟨hfl.1,hfl.2,hfl.3,hfl.4,hfl.5⟩, hs' _ rfl rfl, ⟨hr.1,hr.2⟩⟩
    | exact ⟨hcfg, ⟨hf.1,hf.2,portWrite_wf hf.3,hf.4⟩,
        ⟨hfl.1,hfl.2,hfl.3,hfl.4,hfl.5⟩, hs' _ rfl rfl, ⟨hr.1,hr.2⟩⟩

theorem inv_hostWrite {s : State} (hi : Inv s) (r : RegNo) (v : Word) : Inv (hostWrite r v s) := by
  unfold hostWrite; apply inv_advance; split_ifs; exact inv_writeCmd hi _; exact inv_writeReg hi _ _
theorem inv_hostRead {s : State} (hi : Inv s) (r : RegNo) : Inv (hostRead r s) := by
  unfold hostRead
  exact inv_advance (inv_draws (inv_io hi { s.io with reads := s.io.reads ++ [(readReg r s).1] }) (readReg r s).2)
theorem inv_hostRxbOk {s : State} (hi : Inv s) (i : Nat) : Inv (hostRxbOk i s) := by
  unfold hostRxbOk; split_ifs; exact inv_hostRead (inv_hostWrite hi _ _) _; exact hi
theorem inv_hostStmt {s : State} (hi : Inv s) (i : Input) : Inv (hostStmt i s) := by
  cases i
  exacts [inv_hostWrite hi _ _, inv_hostRead hi _, inv_poll _ hi, inv_hostRxbOk hi _, hi, hi]
theorem inv_runStmts (is : List Input) {s : State} (hi : Inv s) : Inv (runStmts is s) := by
  induction is generalizing s with
  | nil => exact hi
  | cons i is ih =>
    unfold runStmts; simp only; split_ifs
    · exact inv_io (inv_hostStmt hi i) _
    · exact ih (inv_hostStmt hi i)

theorem inv_operate {s : State} (hi : Inv s) (op : HostOp) (nr : Bool) : Inv (operate op nr s) :=
  inv_advance (inv_writeCmd hi _)

theorem inv_resetBlock {s : State} (hi : Inv s) : Inv (resetBlock s) := by
  refine ⟨hi.cfg, ⟨rfl,rfl,rfl,rfl⟩, ⟨?_,?_,?_,?_,?_⟩, ⟨?_,?_,?_,?_,?_,?_,?_,?_,?_,?_,?_,?_,?_⟩,
      ⟨?_,?_⟩⟩
  all_goals simp [Seq.reset, Status.reset, Regs.reset, Phase.underWay, Phase.sent]

end Sys2Proof.Machine
end

