-- ==== Sys2Proof/Laws/PerInstr.lean ====
section
/-! SUPPORT. Family TableForm: the encoding of a well-formed instruction has the fixed bits of its row of
spec/opcode_table.json. -/

namespace Sys2Proof.Laws.TableForm

/-- The fixed bits of a row: a mask and a match for the CMD word and the CK8 port, the instruction byte (and LEN,
where the row fixes it) for a packet. -/
inductive Row where
  | hostcmd (mask value : Word)
  | ck8port (mask value : BitVec 2)
  | buspkt (instr : Byte) (len : Option Byte)

/-- The row of each instruction. -/
def row : Instr → Row
  | .xchg _ => .hostcmd 0xFFFB 0x8000
  | .cmd _ => .hostcmd 0xFFFB 0x8001
  | .cmdr _ => .hostcmd 0xFFFB 0x8002
  | .cks _ => .hostcmd 0xFFFB 0x8003
  | .ckClr _ _ => .ck8port 2 2
  | .ckAdd _ => .ck8port 3 1
  | .ckHold _ => .ck8port 3 0
  | .ping _ => .buspkt 0x01 (some 0x02)
  | .read _ _ _ => .buspkt 0x02 (some 0x04)
  | .write _ _ _ => .buspkt 0x03 none
  | .write1 _ _ _ => .buspkt 0x03 (some 0x04)
  | .write2 _ _ _ => .buspkt 0x03 (some 0x05)
  | .regWrite _ _ => .buspkt 0x04 none
  | .action _ _ => .buspkt 0x05 none
  | .resetDevice _ _ => .buspkt 0x06 none
  | .syncWrite _ _ => .buspkt 0x83 none

/-- What is presented has a row's fixed bits; a packet has the length its LEN byte says (30_encoding.md R91). -/
def Fits : Row → Fetch → Prop
  | .hostcmd m v, .cmdWord w => w &&& m = v
  | .ck8port m v, .ckCtl c _ => c &&& m = v
  | .buspkt i l, .packet bs =>
    bs.take 2 = [0xFF, 0xFF] ∧ bs.getD 4 0 = i ∧ (∀ b, l = some b → bs.getD 3 0 = b) ∧
      bs.length = (bs.getD 3 0).toNat + 4
  | _, _ => False

/-- The encoding of a well-formed instruction has the fixed bits of its row. -/
def Statement (i : Instr) : Prop := i.wellFormed = true → Fits (row i) (encode i)

/-- A frame fits a BUSPKT row. -/
theorem fits_frame {a i : Byte} {p : List Byte} {l : Option Byte} (hp : p.length ≤ 253)
    (hl : ∀ b, l = some b → lenByte p.length = b) : Fits (.buspkt i l) (.packet (frame a i p)) := by
  refine ⟨rfl, rfl, hl, ?_⟩
  have h3 : (frame a i p).getD 3 0 = lenByte p.length := rfl
  rw [h3, lenByte_toNat hp, frame_length]

theorem xchg (n : Bool) : Statement (.xchg n) := fun _ => by cases n <;> rfl
theorem cmd (n : Bool) : Statement (.cmd n) := fun _ => by cases n <;> rfl
theorem cmdr (n : Bool) : Statement (.cmdr n) := fun _ => by cases n <;> rfl
theorem cks (n : Bool) : Statement (.cks n) := fun _ => by cases n <;> rfl
theorem ckClr (e : Bool) (d : Byte) : Statement (.ckClr e d) := fun _ => by cases e <;> rfl
theorem ckAdd (d : Byte) : Statement (.ckAdd d) := fun _ => rfl
theorem ckHold (d : Byte) : Statement (.ckHold d) := fun _ => rfl
theorem ping (a : Byte) : Statement (.ping a) := fun _ => fits_frame (by simp) (by simp [lenByte])
theorem read (a r n : Byte) : Statement (.read a r n) :=
  fun _ => fits_frame (by simp) (by simp [lenByte])
theorem write (a r : Byte) (ds : List Byte) : Statement (.write a r ds) := fun h => by
  simp only [Instr.wellFormed, Bool.and_eq_true, decide_eq_true_eq] at h
  exact fits_frame (by simp; omega) (by simp)
theorem write1 (a r v : Byte) : Statement (.write1 a r v) :=
  fun _ => fits_frame (by simp) (by simp [lenByte])
theorem write2 (a r : Byte) (v : Word) : Statement (.write2 a r v) :=
  fun _ => fits_frame (by simp) (by simp [lenByte])
theorem regWrite (a : Byte) (p : List Byte) : Statement (.regWrite a p) := fun h => by
  simp only [Instr.wellFormed, payloadFits, Bool.and_eq_true, decide_eq_true_eq] at h
  exact fits_frame h.2 (by simp)
theorem action (a : Byte) (p : List Byte) : Statement (.action a p) := fun h => by
  simp only [Instr.wellFormed, payloadFits, Bool.and_eq_true, decide_eq_true_eq] at h
  exact fits_frame h.2 (by simp)
theorem resetDevice (a : Byte) (p : List Byte) : Statement (.resetDevice a p) := fun h => by
  simp only [Instr.wellFormed, payloadFits, Bool.and_eq_true, decide_eq_true_eq] at h
  exact fits_frame h.2 (by simp)
theorem syncWrite (a : Byte) (p : List Byte) : Statement (.syncWrite a p) := fun h => by
  simp only [Instr.wellFormed, payloadFits, Bool.and_eq_true, decide_eq_true_eq] at h
  exact fits_frame h.2 (by simp)

end Sys2Proof.Laws.TableForm
end

