-- ==== Sys2Proof/Tests/Slice0.lean ====
section
/-! SUPPORT. Tests: ill-formed terms, words written out from the encoding tables, vectors of
95_test_vectors.md (named by their id), and for each statement a state that meets its hypotheses. -/

namespace Sys2Proof.Tests

open Sys2Proof Sys2Proof.Machine

/-! ## States -/

/-- A block just reset, with a descriptor and what arrives at its read attempts. -/
def descr (a i explen : Byte) (p : List Byte) (arr : List (List Byte)) : State :=
  { State.reset with
    regs := { Regs.reset with
      devaddr := a, instr := i, plen := BitVec.ofNat 8 p.length, explen := explen }
    buf := { Buffers.reset with pbuf := Memory.writeSeq [] 0 p }
    bus := { State.reset.bus with arrivals := arr } }

/-- The frame of `PING 1`, and a good answer. -/
def ping1 : List Byte := [0xFF, 0xFF, 0x01, 0x02, 0x01, 0xFB]
def good1 : List Byte := [0xFF, 0xFF, 0x01, 0x02, 0x00, 0xFC]
def hot1 : List Byte := [0xFF, 0xFF, 0x01, 0x02, 0x04, 0xF8]

/-- The descriptor of `PING 1`. -/
def pinging (arr : List (List Byte)) : State := descr 1 0x01 0 [] arr

/-- A block just reset with bytes in TXF. -/
def raw (tx : List Byte) (xexp : Len) (arr : List (List Byte)) : State :=
  { State.reset with
    regs := { Regs.reset with xlen := BitVec.ofNat 9 tx.length, xexp := xexp }
    buf := { Buffers.reset with txf := Memory.writeSeq [] 0 tx }
    bus := { State.reset.bus with arrivals := arr } }

/-- A running CMDR, three transitions after its GO. -/
def running : State := seqRun 3 (accepted .cmdr false (pinging [ping1, good1]))

/-- A running CMDR whose transport takes no byte. -/
def hanging : State :=
  seqRun 3 (accepted .cmdr false { pinging [] with bus.txHung := true })

def ends (o : Host.Outcome State Fault Refusal) (p : State → Bool) : Bool :=
  match o with
  | .next t => p t
  | .fault _ => false
  | .refused _ => false

/-! ## Ill-formed terms (WellFormed.lean) -/

theorem test_wf_ping_broadcast : (Instr.ping 254).wellFormed = false := by decide
theorem test_wf_read_address : (Instr.read 255 0 1).wellFormed = false := by decide
theorem test_wf_write_address : (Instr.write 255 0 [1, 2, 3]).wellFormed = false := by decide
theorem test_wf_write_two_bytes : (Instr.write 1 0 [1, 2]).wellFormed = false := by decide
theorem test_wf_write_long : (Instr.write 1 0 (List.replicate 253 0)).wellFormed = false := by
  decide +kernel
theorem test_wf_write1_address : (Instr.write1 255 0 1).wellFormed = false := by decide
theorem test_wf_write2_address : (Instr.write2 255 0 1).wellFormed = false := by decide
theorem test_wf_regWrite_payload : (Instr.regWrite 1 (List.replicate 254 0)).wellFormed = false := by
  decide +kernel
theorem test_wf_action_address : (Instr.action 255 []).wellFormed = false := by decide
theorem test_wf_resetDevice_address : (Instr.resetDevice 255 []).wellFormed = false := by decide
theorem test_wf_syncWrite_payload :
    (Instr.syncWrite 1 (List.replicate 254 0)).wellFormed = false := by decide +kernel

/-! ## Decoding: words from 30_encoding.md Tables 30-1, 30-3, 30-5, 30-6 -/

theorem test_decode_xchg : decode (.cmdWord 0b1000000000000100) = .instr (.xchg true) := by decide
theorem test_decode_cmd : decode (.cmdWord 0b1000000000000001) = .instr (.cmd false) := by decide
theorem test_decode_cmdr : decode (.cmdWord 0b1000000000000110) = .instr (.cmdr true) := by decide
theorem test_decode_cks : decode (.cmdWord 0b1000000000000011) = .instr (.cks false) := by decide
theorem test_decode_reserved : decode (.cmdWord 0x8009) = .reject .reservedBits := by decide
theorem test_decode_no_go : decode (.cmdWord 0x7FFF) = .reject .notGo := by decide
theorem test_decode_ckClr : decode (.ckCtl 0b10 0) = .instr (.ckClr false 0) := by decide
theorem test_decode_ckAdd : decode (.ckCtl 0b01 0x20) = .instr (.ckAdd 0x20) := by decide
theorem test_decode_ckHold : decode (.ckCtl 0b00 0xAA) = .instr (.ckHold 0xAA) := by decide
theorem test_decode_ping : decode (.packet ping1) = .instr (.ping 1) := by decide
theorem test_decode_read :
    decode (.packet [0xFF, 0xFF, 0x01, 0x04, 0x02, 0x2B, 0x01, 0xCC]) = .instr (.read 1 0x2B 1) := by
  decide
theorem test_decode_write1 :
    decode (.packet [0xFF, 0xFF, 0xFE, 0x04, 0x03, 0x19, 0x01, 0xE0]) =
      .instr (.write1 254 0x19 1) := by decide
theorem test_decode_write2 :
    decode (.packet [0xFF, 0xFF, 0x01, 0x05, 0x03, 0x20, 0xFF, 0x03, 0xD4]) =
      .instr (.write2 1 0x20 0x03FF) := by decide
/-- The checksum by hand: 0x01 + 0x06 + 0x03 + 0x1E + 0x00 + 0x02 + 0xFF = 0x129. -/
theorem test_decode_write :
    decode (.packet [0xFF, 0xFF, 0x01, 0x06, 0x03, 0x1E, 0x00, 0x02, 0xFF, 0xD6]) =
      .instr (.write 1 0x1E [0x00, 0x02, 0xFF]) := by decide
theorem test_decode_regWrite :
    decode (.packet [0xFF, 0xFF, 0x01, 0x02, 0x04, 0xF8]) = .instr (.regWrite 1 []) := by decide
theorem test_decode_action :
    decode (.packet [0xFF, 0xFF, 0xFE, 0x02, 0x05, 0xFA]) = .instr (.action 254 []) := by decide
theorem test_decode_resetDevice :
    decode (.packet [0xFF, 0xFF, 0x01, 0x02, 0x06, 0xF6]) = .instr (.resetDevice 1 []) := by decide
/-- D-FR-10. -/
theorem test_decode_syncWrite :
    decode (.packet [0xFF, 0xFF, 0x01, 0x07, 0x83, 0x1E, 0x02, 0x01, 0x00, 0x02, 0x51]) =
      .instr (.syncWrite 1 [0x1E, 0x02, 0x01, 0x00, 0x02]) := by decide
theorem test_decode_bad_checksum :
    decode (.packet [0xFF, 0xFF, 0x01, 0x02, 0x01, 0xFA]) = .reject .badChecksum := by decide
theorem test_decode_unnamed :
    decode (.packet [0xFF, 0xFF, 0x01, 0x02, 0x07, 0xF5]) = .reject .unnamedCode := by decide

/-- Table words: a packet as it stands, and a row's match with all operands 0 (log 14). -/
theorem test_table_words :
    decodeTableWord 16 0x8006 = some (.cmdr true) ∧ decodeTableWord 8 0x3 = some (.ckClr true 0) ∧
    decodeTableWord 48 0xFFFF010201FB = some (.ping 1) ∧
    decodeTableWord 64 0xFFFF000402000000 = some (.read 0 0 0) ∧
    decodeTableWord 48 0xFFFF00000300 = some (.write 0 0 [0, 0, 0]) ∧
    decodeTableWord 40 0xFFFF000083 = some (.syncWrite 0 []) := by decide

/-- The step after a placed word is the instruction's. -/
theorem test_placed_word_runs :
    ends (step (State.reset.withFetchWord 64 0xFFFF000402000000)) (fun t =>
      decide (t.bus.wire = [0xFF, 0xFF, 0, 4, 2, 0, 0, 0xF9, 0xFF, 0xFF, 0, 4, 2, 0, 0, 0xF9])) =
      true := by decide

/-! ## Vectors -/

/-- D-CS-7. -/
theorem test_cks8 : cks8 [0xFD, 0x05, 0x03, 0xFF, 0xFF, 0xFF] = 0xFD := by decide

/-- D-CK-10. -/
theorem test_ckClr : ends (exec (.ckClr true 0xAA) { State.reset with acc := 0x37 })
    (fun t => t.acc == 0x00) = true := by decide
/-- D-CK-5. -/
theorem test_ckAdd : ends (exec (.ckAdd 0x20) { State.reset with acc := 0xF0 })
    (fun t => t.acc == 0x10 && ckOut t.acc == 0xEF) = true := by decide
/-- D-CK-9. -/
theorem test_ckHold : ends (exec (.ckHold 0xAA) { State.reset with acc := 0x37 })
    (fun t => t.acc == 0x37 && ckOut t.acc == 0xC8) = true := by decide

/-- D-FR-5. -/
theorem test_cks : ends (exec (.cks false) (descr 1 0x02 2 [0x24, 0x02] [])) (fun t =>
    t.regs.ckout == 0xD2 && t.regs.xlen == 8 && t.regs.xexp == 8 && t.status.code == 0 &&
      decide (txfBytes 8 t = [0xFF, 0xFF, 0x01, 0x04, 0x02, 0x24, 0x02, 0xD2])) = true := by decide
/-- D-FR-14: EXPLEN is not checked when NORESP = 1. -/
theorem test_cks_noresp : ends (exec (.cks true) (descr 1 0x02 254 [0x24, 0x02] [])) (fun t =>
    t.regs.ckout == 0xD2 && t.regs.xexp == 0 && t.status.code == 0) = true := by decide

/-- D-X-3: a short echo and a short answer. -/
theorem test_xchg : ends (exec (.xchg false) (raw ping1 6 [ping1.dropLast, [0xFF, 0xFF, 0x01]]))
    (fun t => t.regs.rxlen == 3 && t.status.anom && t.status.code == 0 &&
      decide (t.buf.rxbuf = [(0, 0xFF), (1, 0xFF), (2, 0x01)])) = true := by decide
/-- D-X-7. -/
theorem test_xchg_bad_length : ends (exec (.xchg true) (raw ping1 260 []))
    (fun t => t.status.code == 4 && decide (t.bus.trace = [])) = true := by decide

/-- D-CMD-4. -/
theorem test_cmd : ends (exec (.cmd false) (pinging [ping1, hot1])) (fun t =>
    t.status.code == 2 && !t.status.anom && t.regs.rxlen == 6 && lastErr t 1 == 0x04 &&
      decide (t.bus.trace = [.txWrite ping1, .rxRead 6 ping1, .delay 1000, .rxRead 6 hot1])) =
    true := by decide
/-- D-CMD-11: no echo on the line, the answer is taken as echo. -/
theorem test_cmd_no_echo : ends (exec (.cmd false) (pinging [good1, []])) (fun t =>
    t.status.code == 1 && t.status.anom && t.regs.rxlen == 0 && lastErr t 1 == 0x80) = true := by
  decide

/-- D-CMDR-4: DEV_ERR, then no answer. -/
theorem test_cmdr : ends (exec (.cmdr false) (pinging [ping1, hot1, ping1, []])) (fun t =>
    t.status.code == 1 && t.status.retried && t.regs.rxlen == 0 && lastErr t 1 == 0x04 &&
      decide (t.buf.rxbuf =
        [(0, 0xFF), (1, 0xFF), (2, 0x01), (3, 0x02), (4, 0x04), (5, 0xF8)])) = true := by decide
/-- D-CMDR-6: a bad checksum, then success. -/
theorem test_cmdr_bad_checksum :
    ends (exec (.cmdr false) (pinging [ping1, [0xFF, 0xFF, 0x01, 0x02, 0x00, 0xFD], ping1, good1]))
      (fun t => t.status.code == 0 && t.status.retried && lastErr t 1 == 0x00 &&
        countWrites t.bus.trace == 2 && countReads t.bus.trace == 4) = true := by decide

/-- D-ACC-1. -/
theorem test_ping : ends (exec (.ping 1) (descr 9 9 9 [] [ping1, good1])) (fun t =>
    decide (t.io.reads = [0x0002]) && decide (t.bus.wire = ping1)) = true := by decide
/-- D-ACC-2. -/
theorem test_read : ends
    (exec (.read 1 0x24 2) (descr 0 0 0 []
      [[0xFF, 0xFF, 0x01, 0x04, 0x02, 0x24, 0x02, 0xD2],
        [0xFF, 0xFF, 0x01, 0x04, 0x00, 0x34, 0x12, 0xB4]]))
    (fun t => decide (t.io.reads = [0x0002, 0x0034, 0x0012]) && rd2Value t == some 0x1234) =
    true := by decide
/-- 43_bus_instructions.md R212, the example. -/
theorem test_write : ends
    (exec (.write 254 0x19 [1]) (descr 0 0 0 [] [[0xFF, 0xFF, 0xFE, 0x04, 0x03, 0x19, 0x01, 0xE0]]))
    (fun t => decide (t.bus.wire = [0xFF, 0xFF, 0xFE, 0x04, 0x03, 0x19, 0x01, 0xE0]) &&
      t.regs.rxlen == 0 && countReads t.bus.trace == 1 && lastErr t 254 == 0x80) = true := by decide
/-- D-ACC-4. -/
theorem test_write1 : ends
    (exec (.write1 1 0x18 1) (descr 0 0 0 []
      [[0xFF, 0xFF, 0x01, 0x04, 0x03, 0x18, 0x01, 0xDE], good1]))
    (fun t => decide (t.bus.wire = [0xFF, 0xFF, 0x01, 0x04, 0x03, 0x18, 0x01, 0xDE]) &&
      decide (t.io.reads = [0x0002])) = true := by decide
/-- D-ACC-7. -/
theorem test_write2 : ends
    (exec (.write2 1 0x1E 0xFFFF) (descr 0 0 0 []
      [[0xFF, 0xFF, 0x01, 0x05, 0x03, 0x1E, 0xFF, 0xFF, 0xDA], good1]))
    (fun t => decide (t.bus.wire = [0xFF, 0xFF, 0x01, 0x05, 0x03, 0x1E, 0xFF, 0xFF, 0xDA]) &&
      decide (t.io.reads = [0x0002])) = true := by decide

/-- 43_bus_instructions.md R205. -/
theorem test_unimplemented :
    exec (.regWrite 1 []) State.reset = .refused (.noPseudoOperation 4) ∧
    exec (.action 1 []) State.reset = .refused (.noPseudoOperation 5) ∧
    exec (.resetDevice 1 []) State.reset = .refused (.noPseudoOperation 6) ∧
    exec (.syncWrite 1 []) State.reset = .refused (.noPseudoOperation 0x83) := ⟨rfl, rfl, rfl, rfl⟩
/-- D-ACC-12. -/
theorem test_toolchain_refuses :
    exec (.ping 254) State.reset = .refused (.toolchainAddress 254) ∧
    exec (.write1 255 0 1) State.reset = .refused (.toolchainAddress 255) := ⟨rfl, rfl⟩

/-- D-RS-4. -/
theorem test_devaddr_truncated : (readReg rDevaddr (writeReg rDevaddr 0x1234 State.reset)).1 = 0x34 := by
  decide
/-- D-RS-3. -/
theorem test_lasterr_255 : (readReg rLasterr (writeReg rDevaddr 255 State.reset)).1 = 0x80 := by decide
/-- D-RS-12. -/
theorem test_index_beyond_buffer :
    (readReg rTxdata (writeReg rTxdata 0x55 (writeReg rBufidx 300 State.reset))).1 = 0 := by decide
/-- D-RS-5. -/
theorem test_no_go : present (.write rCmd 0x0001) State.reset = .next State.reset := by rfl
/-- D-RS-10, D-RS-11: STATUS 0x000A and 0x0006. -/
theorem test_status_word :
    statusWord (ended false true 0) = 0x000A ∧ statusWord (ended true false 0) = 0x0006 := by decide
/-- D-RS-8. -/
theorem test_reset_clears_lasterr :
    ends (exec (.cmd false) (pinging [ping1, hot1])) (fun t => lastErr (resetBlock t) 1 == 0x80) =
      true := by decide

/-- 30_encoding.md R104: `rd STATUS` repeats until DONE reads 1, and with no operation it goes on. -/
theorem test_wait_pending :
    ends (step { State.reset with io.inputs := [.wait] }) (fun t =>
      decide (t.io.inputs = [.wait]) && !t.status.done) = true := by decide
/-- 20_memory.md R72 b: on a request to 254 the device appends nothing, and carries it out (R63). -/
theorem test_ideal_bus_broadcast :
    let d : Device := { addr := 1, err := 0x00, regs := [] }
    let f : List Byte := [0xFF, 0xFF, 0xFE, 0x04, 0x03, 0x19, 0x01, 0xE0]
    idealArrivals d f 0 = [f] ∧ (devAfter d f).regs = [(0x19, 1)] := by decide
/-- R72 a, c: bytes that are no request are echoed and not answered. -/
theorem test_ideal_bus_no_request :
    idealArrivals { addr := 1, err := 0x00, regs := [] } [0xFF, 0xFF, 0x01, 0x02, 0x01, 0xFA] 6 =
      [[0xFF, 0xFF, 0x01, 0x02, 0x01, 0xFA], []] := by decide

/-- 20_memory.md R63, R72 b: 254 names no one device, so nothing given that address answers a request to it
(log 24); one at 253 does. -/
theorem test_ideal_bus_last_address :
    let f : List Byte := [0xFF, 0xFF, 0xFE, 0x02, 0x01, 0xFE]
    let g : List Byte := [0xFF, 0xFF, 0xFD, 0x02, 0x01, 0xFF]
    devAnswer { addr := 254, err := 0x00, regs := [] } f = [] ∧
    devAnswer { addr := 253, err := 0x00, regs := [] } g = [0xFF, 0xFF, 0xFD, 0x02, 0x00, 0x00] := by
  decide
/-- 43_bus_instructions.md R218, 60_exceptions.md R253: a READ whose `TxWrite` hangs has not ended, and the
byte an earlier response left at `RXBUF[5]` is no value of it. -/
theorem test_hung_read_yields_nothing :
    ends
      (exec (.read 1 0x2B 1)
        { State.reset with
          buf.rxbuf := Memory.writeSeq [] 0 [0xFF, 0xFF, 1, 3, 0, 0x20, 0xDB]
          bus.txHung := true })
      (fun t => t.status.busy && t.status.code == 0 && Memory.find t.buf.rxbuf 5 == some 0x20 &&
        rd1Value t == none && rd2Value t == none && pseudoFailure t == none) = true := by decide

/-- The byte files after reset are in canonical form. -/
theorem test_reset_files :
    Memory.wf (some 0x80) 255 State.reset.buf.lasterr = true ∧
    Memory.wf none 253 State.reset.buf.pbuf = true ∧ Memory.wf none 259 State.reset.buf.txf = true ∧
    Memory.wf none 259 State.reset.buf.rxbuf = true := by decide

/-! ## Witnesses: for each statement, states and operands that meet its hypotheses -/

theorem pinging_ready (arr : List (List Byte)) : Ready (pinging arr) := ⟨rfl, rfl, rfl⟩
theorem raw_ready (tx : List Byte) (e : Len) (arr : List (List Byte)) : Ready (raw tx e arr) :=
  ⟨rfl, rfl, rfl⟩
theorem descr_ready (a i e : Byte) (p : List Byte) (arr : List (List Byte)) :
    Ready (descr a i e p arr) := ⟨rfl, rfl, rfl⟩
theorem pinging_legal (nr : Bool) (arr : List (List Byte)) : LegalDescriptor nr (pinging arr) :=
  ⟨by show Config.hdx.legal = true; decide, by cases nr <;> rfl, fun j hj => absurd hj (Nat.not_lt_zero j)⟩
theorem pinging_files (arr : List (List Byte)) : FilesWf (pinging arr) := ⟨rfl, rfl, rfl, rfl⟩

/-- The idle block with the descriptor of `PING 1` meets the invariant. -/
theorem pinging_inv (arr : List (List Byte)) (h : Bool) :
    Inv { pinging arr with bus.txHung := h } := by
  refine ⟨by show Config.hdx.legal = true; decide, ⟨rfl, rfl, rfl, rfl⟩, ⟨?_, ?_, ?_, ?_, ?_⟩,
    ⟨?_, ?_, ?_, ?_, ?_, ?_, ?_, ?_, ?_, ?_, ?_, ?_, ?_⟩, ⟨?_, ?_⟩⟩
  all_goals
    simp [pinging, descr, State.reset, Seq.reset, Status.reset, Regs.reset, Phase.underWay, Phase.sent]

theorem running_inv : Inv running :=
  inv_seqRun (inv_acceptGo (pinging_inv [ping1, good1] false) rfl _ _) 3

theorem hanging_inv : Inv hanging := inv_seqRun (inv_acceptGo (pinging_inv [] true) rfl _ _) 3

theorem witness_DecodeEncodeRoundTrip :
    (Instr.write 254 0x20 (List.replicate 252 0xFF)).wellFormed = true ∧
    (Instr.ping 253).wellFormed = true ∧ (Instr.read 253 0xFF 0xFF).wellFormed = true ∧
    (Instr.syncWrite 254 (List.replicate 253 0)).wellFormed = true := by decide +kernel

theorem witness_DecodedIsEncoded :
    decode (.cmdWord 0x8006) = .instr (.cmdr true) ∧ decode (.packet ping1) = .instr (.ping 1) := by
  decide

theorem witness_HostWordsByMask :
    (0x8004 : Word) &&& 0xFFFB = 0x8000 ∧ (0x8005 : Word) &&& 0xFFFB = 0x8001 ∧
    (0x8006 : Word) &&& 0xFFFB = 0x8002 ∧ (0x8007 : Word) &&& 0xFFFB = 0x8003 ∧
    (0x8008 : Word).getLsbD 15 = true ∧ (0x7FFF : Word).getLsbD 15 = false := by decide

theorem witness_FrameLayout : (List.replicate 253 (0xFF : Byte)).length ≤ 253 := by decide +kernel

theorem witness_ChecksumFormula :
    sumBytes [0xFF] = 255 ∧ sumBytes [0xFF, 0xFF, 0x01] = 511 ∧ sumBytes [0xFF, 0x01] = 256 := by decide

theorem witness_UnitComputesCks8 : [(1 : Byte), 2].Perm [2, 1] := by decide

theorem witness_DetectionPower :
    6 ≤ ping1.length ∧ packetVerifies ping1 = true ∧ (0xFA : Byte) ≠ ping1.getD 5 0 ∧
    (0x02 : Byte) + 0x01 = ping1.getD 2 0 + ping1.getD 3 0 ∧
    [(0xFB : Byte), 0x01, 0x02, 0x01].Perm (ping1.drop 2) := by decide

theorem witness_SixteenBitOperands :
    let s : State :=
      { State.reset with
        status := ended false false 0
        buf.rxbuf := Memory.writeSeq [] 0 [0xFF, 0xFF, 1, 4, 0, 0x34, 0x12] }
    s.status.busy = false ∧ s.status.done = true ∧ s.status.code = 0 ∧ Memory.find s.buf.rxbuf 5 = some 0x34 ∧ Memory.find s.buf.rxbuf 6 = some 0x12 ∧
    rd2Value s = some 0x1234 := by decide

theorem witness_CkAddResult : ({ State.reset with acc := 0xFF } : State).acc = 0xFF ∧
    ({ State.reset with acc := 0xF0 } : State).acc = 0xF0 := ⟨rfl, rfl⟩

theorem witness_CmdRegister :
    cmdGo 0x7FFF = false ∧ running.status.busy = true ∧ (0x8009 : Word).getLsbD 15 = true ∧
    State.reset.status.busy = false ∧
    ({ State.reset with io.pace := [0, 5] } : State).io.pace = 0 :: [5] := by decide

theorem witness_StatusRegister : State.reset.status.busy = false ∧ running.status.busy = true := by
  decide

/-- BUSY = 0 here, and BUSY = 1. -/
theorem witness_RegisterPort : State.reset.status.busy = false ∧ running.status.busy = true ∧ (15 : RegNo) ≠ rCmd := by decide

theorem witness_RegisterWrites :
    (pinging []).status.busy = false ∧
    ((15 : RegNo) = rStatus ∨ (15 : RegNo) = rRxlen ∨ (15 : RegNo) = rCkout ∨ (15 : RegNo) = rLasterr ∨
      (15 : RegNo) = rRxdata ∨ (15 : RegNo) = 15) := by decide

theorem witness_BusyAccess :
    running.status.busy = true ∧ (15 : RegNo) ≠ rStatus ∧ rCmd ≠ rStatus ∧ rCmd ≠ rDevaddr ∧
    rCmd ≠ rInstr ∧ rCmd ≠ rPlen ∧ rCmd ≠ rExplen ∧ rCmd ≠ rBufidx := by decide

theorem witness_LasterrWindow :
    State.reset.cfg.wire = true ∧ State.reset.status.busy = false ∧
    (descr 254 0 0 [] []).regs.devaddr.toNat ≤ 254 ∧ (descr 255 0 0 [] []).regs.devaddr = 255 := by
  decide

theorem witness_DataPorts :
    State.reset.status.busy = false ∧
    (writeReg rBufidx 252 State.reset).regs.bufidx.toNat < Config.hdx.pmax ∧
    Config.hdx.pmax ≤ (writeReg rBufidx 253 State.reset).regs.bufidx.toNat ∧
    (writeReg rBufidx 258 State.reset).regs.bufidx.toNat < Config.hdx.xmax ∧
    Config.hdx.xmax ≤ (writeReg rBufidx 259 State.reset).regs.bufidx.toNat ∧
    Memory.find (descr 0 0 0 [7] []).buf.pbuf 0 = some 7 ∧
    Memory.find State.reset.buf.pbuf 252 = none ∧ Memory.find State.reset.buf.rxbuf 258 = none ∧
    Memory.find (raw [7] 0 []).buf.txf 0 = some 7 := by decide

theorem witness_CksFollowsPseudocode : Ready (descr 255 1 0 [] []) := descr_ready _ _ _ _ _
theorem witness_XchgFollowsPseudocode : Ready (raw ping1 6 [ping1, good1]) := raw_ready _ _ _
theorem witness_CmdFollowsPseudocode : Ready (pinging [ping1, hot1]) := pinging_ready _
theorem witness_CmdrFollowsPseudocode : Ready (pinging [ping1, [], ping1, good1]) := pinging_ready _

theorem witness_CksResult :
    Ready (descr 1 0x02 254 [0x24, 0x02] []) ∧ LegalDescriptor true (descr 1 0x02 254 [0x24, 0x02] []) ∧
    badDescriptor false (descr 1 0x02 254 [0x24, 0x02] []) = true :=
  ⟨descr_ready _ _ _ _ _, ⟨by decide, by decide, by unfold payloadWritten; decide⟩, by decide⟩

theorem witness_LengthOperands :
    Ready (descr 254 3 253 [0x20] []) ∧ (descr 254 3 253 [0x20] []).cfg.legal = true ∧
    badDescriptor false (descr 254 3 253 [0x20] []) = false :=
  ⟨descr_ready _ _ _ _ _, by decide, by decide⟩

theorem witness_ChecksumProperty :
    Ready (descr 0 3 0 (0x20 :: List.replicate 252 0xFF) []) ∧
    LegalDescriptor false (descr 0 3 0 (0x20 :: List.replicate 252 0xFF) []) :=
  ⟨descr_ready _ _ _ _ _, ⟨by decide, by decide +kernel, by unfold payloadWritten; decide +kernel⟩⟩

theorem witness_XchgResult :
    Ready (raw ping1 259 []) ∧ badLengths (raw ping1 259 []) = false ∧
    ∀ j < (raw ping1 259 []).regs.xlen.toNat,
      (Memory.find (raw ping1 259 []).buf.txf j).isSome = true :=
  ⟨raw_ready _ _ _, by decide, by decide⟩

theorem witness_NoResponseRequested :
    Ready (pinging [ping1]) ∧ LegalDescriptor true (pinging [ping1]) :=
  ⟨pinging_ready _, pinging_legal _ _⟩

theorem witness_ShortResponse :
    Ready (pinging [ping1, good1.dropLast]) ∧ LegalDescriptor false (pinging [ping1, good1.dropLast]) ∧
    (response (pinging [ping1, good1.dropLast])).length ≠
      expected (pinging [ping1, good1.dropLast]) :=
  ⟨pinging_ready _, pinging_legal _ _, by decide⟩

theorem witness_BadChecksum :
    let s := pinging [ping1, [0xFF, 0xFF, 0x01, 0x02, 0x04, 0xFC]]
    let s' : State := { s with cfg.rxck := false }
    Ready s ∧ LegalDescriptor false s ∧ (response s).length = expected s ∧ s.cfg.rxck = true ∧
    (response s).getD (expected s - 1) 0 ≠
      cks8 (((response s).drop 2).take (s.regs.explen.toNat + 3)) ∧
    Ready s' ∧ LegalDescriptor false s' ∧ s'.cfg.rxck = false :=
  ⟨pinging_ready _, pinging_legal _ _, by decide, by decide, by decide, ⟨rfl, rfl, rfl⟩,
    ⟨by decide, by decide, fun j hj => absurd hj (Nat.not_lt_zero j)⟩, rfl⟩

theorem witness_DeviceError :
    let s := pinging [ping1, hot1]
    Ready s ∧ LegalDescriptor false s ∧ FilesWf s ∧
    (response s).length = expected s ∧
    (response s).getD (expected s - 1) 0 =
      cks8 (((response s).drop 2).take (s.regs.explen.toNat + 3)) ∧
    (response s).getD 4 0 ≠ 0x00 :=
  ⟨pinging_ready _, pinging_legal _ _, pinging_files _, by decide, by decide, by decide⟩

theorem witness_CommandSuccess :
    let s := pinging [ping1, good1]
    Ready s ∧ LegalDescriptor false s ∧ FilesWf s ∧
    (response s).length = expected s ∧
    (response s).getD (expected s - 1) 0 =
      cks8 (((response s).drop 2).take (s.regs.explen.toNat + 3)) ∧
    (response s).getD 4 0 = 0x00 :=
  ⟨pinging_ready _, pinging_legal _ _, pinging_files _, by decide, by decide, by decide⟩

theorem witness_RetryTaken :
    let s := pinging [ping1, hot1, ping1, []]
    Ready s ∧ LegalDescriptor false s ∧ FilesWf s ∧ firstVerdict s ≠ 0 :=
  ⟨pinging_ready _, pinging_legal _ _, pinging_files _, by decide⟩

theorem witness_AttemptCount :
    let s := pinging [ping1, hot1]
    Ready s ∧ s.cfg.wire = true ∧ badDescriptor true s = false ∧ badDescriptor true (descr 255 0 0 [] []) = true ∧
    LegalDescriptor false s ∧ firstVerdict s ≠ 0 ∧ badLengths (raw ping1 260 []) = true ∧
    badLengths (raw ping1 259 []) = false :=
  ⟨pinging_ready _, by decide, by decide, by decide, pinging_legal _ _, by decide, by decide, by decide⟩

theorem witness_BadCommand :
    Ready (pinging []) ∧ (0x8009 : Word).getLsbD 15 = true ∧ Illegal 0x8009 (pinging []) ∧
    Illegal 0x8000 (raw [] 260 []) ∧
    Illegal 0x8000 { raw [] 0 [] with regs := { Regs.reset with xlen := 260 } } ∧
    Illegal 0x8005 { descr 1 0 0 [] [] with regs := { Regs.reset with plen := 254 } } ∧
    Illegal 0x8001 (descr 255 0 0 [] []) ∧
    Illegal 0x8003 (descr 1 0 254 [] []) ∧ ¬ Illegal 0x8007 (descr 254 0 254 [] []) ∧
    ¬ Illegal 0x8000 (raw [] 259 []) := by
  refine ⟨pinging_ready _, by decide, ?_, ?_, ?_, ?_, ?_, ?_, ?_, ?_⟩ <;> unfold Illegal <;> decide

theorem witness_AnomalyIsNoFailure :
    Ready (pinging []) ∧ (pinging []).cfg.wire = true ∧ 6 = (pinging []).regs.plen.toNat + 6 ∧
    (ping1 ++ good1).drop 6 = ([1, 2, 3, 4, 5, 6] ++ good1).drop 6 ∧ ping1 ≠ [1, 2, 3, 4, 5, 6] ∧
    Ready (raw ping1 6 []) ∧ 6 = (raw ping1 6 []).regs.xlen.toNat :=
  ⟨pinging_ready _, by decide, by decide, by decide, by decide, raw_ready _ _ _, by decide⟩

theorem witness_InstrIsData : Ready (pinging []) ∧ ∃ nr, Instr.cks true = .cks nr :=
  ⟨pinging_ready _, true, rfl⟩

theorem witness_DescriptorKept : ∃ nr, Instr.xchg true = .xchg nr := ⟨true, rfl⟩

theorem witness_XchgFrame : Ready (raw [] 259 []) := raw_ready _ _ _

theorem witness_CommandFrame :
    Ready (pinging [ping1, hot1]) ∧ (pinging [ping1, hot1]).cfg.wire = true ∧
    FilesWf (pinging [ping1, hot1]) ∧ (2 : Nat) ≠ 1 :=
  ⟨pinging_ready _, by decide, pinging_files _, by decide⟩

theorem witness_PingRuns : Ready (pinging []) ∧ (253 : Byte).toNat ≤ 253 :=
  ⟨pinging_ready _, by decide⟩

theorem witness_ReadRuns : Ready (pinging []) ∧ (0 : Byte).toNat ≤ 253 := ⟨pinging_ready _, by decide⟩

theorem witness_WriteRuns :
    Ready (pinging []) ∧ (pinging []).cfg.wire = true ∧ (254 : Byte).toNat ≤ 254 ∧ 1 ≤ [(7 : Byte)].length ∧
    (List.replicate 252 (0 : Byte)).length ≤ 252 :=
  ⟨pinging_ready _, by decide, by decide, by decide, by decide +kernel⟩

/-- The first attempt succeeds; or the first gets no answer and the second succeeds. -/
theorem witness_ReadYieldsPayload :
    let f : List Byte := [0xFF, 0xFF, 0x01, 0x04, 0x02, 0x24, 0x02, 0xD2]
    let g : List Byte := [0xFF, 0xFF, 0x01, 0x04, 0x00, 0x34, 0x12, 0xB4]
    let s := pinging [f, g]
    let u := pinging [f, [], f, g]
    let u2 : State := { u with bus := busAfter (packetBytes (.read 1 0x24 2)) 8 u }
    Ready s ∧ s.cfg = Config.hdx ∧ FilesWf s ∧ (1 : Byte).toNat ≤ 253 ∧ (2 : Byte).toNat ≤ 253 ∧
    verdict s.cfg 8 (responseRead 8 8 s) = 0 ∧ Ready u ∧ FilesWf u ∧
    verdict u.cfg 8 (responseRead 8 8 u) ≠ 0 ∧ verdict u.cfg 8 (responseRead 8 8 u2) = 0 :=
  ⟨pinging_ready _, rfl, pinging_files _, by decide, by decide, by decide, pinging_ready _,
    pinging_files _, by decide, by decide⟩

theorem witness_PseudoFailure :
    Ready (pinging []) ∧ (253 : Byte).toNat ≤ 253 ∧
    ends (exec (.ping 253) (pinging [])) (fun t => t.status.code == 1) = true :=
  ⟨pinging_ready _, by decide, by decide⟩

theorem witness_WireCarriesPacket :
    Ready (pinging []) ∧ (pinging []).cfg = Config.hdx ∧
    (Instr.write2 254 0x1E 0x0200).wellFormed = true ∧ (Instr.read 253 0 253).wellFormed = true :=
  ⟨pinging_ready _, rfl, by decide, by decide⟩

theorem witness_AddressRanges :
    Ready (pinging []) ∧ (pinging []).cfg.wire = true ∧ 252 < (List.replicate 253 (0 : Byte)).length ∧ 1 ≤ [(7 : Byte)].length ∧ [(7 : Byte)].length ≤ 252 ∧
    (253 : Byte).toNat ≤ 253 ∧ 254 ≤ (254 : Byte).toNat ∧ (254 : Byte).toNat ≤ 254 :=
  ⟨pinging_ready _, by decide, by decide +kernel, by decide, by decide, by decide, by decide, by decide⟩

theorem witness_UnimplementedRefused :
    Ready (descr 1 0x83 0 [] []) ∧ (descr 1 0x83 0 [] []).regs.instr = 0x83 ∧
    ends (exec (.cks false) (descr 1 0x83 0 [] [])) (fun t => t.status.code != 4) = true :=
  ⟨descr_ready _ _ _ _ _, rfl, by decide⟩

/-- `PING 1` in TXF, sent with XCHG; the device is the addressed one, or another. Then the device at 253, the
last address R63 names, and a request to 254. -/
theorem witness_IdealBusExchange :
    let d : Device := { addr := 1, err := 0x00, regs := [] }
    let s := raw ping1 6 (idealArrivals d ping1 6)
    Ready s ∧ badLengths s = false ∧
    (∀ j < s.regs.xlen.toNat, (Memory.find s.buf.txf j).isSome = true) ∧ s.bus.rxq = [] ∧
    txfBytes s.regs.xlen.toNat s = ping1 ∧ s.bus.arrivals = [ping1 ++ good1, []] ∧
    ping1 = frame 1 0x01 [] ∧ idealArrivals { d with addr := 2 } ping1 6 = [ping1, []] ∧
    d.addr.toNat ≤ 253 :=
  ⟨raw_ready _ _ _, by decide, by decide, rfl, by decide, by decide, by decide, by decide, by decide⟩

theorem witness_IdealBusExchange_edge :
    let d : Device := { addr := 253, err := 0x00, regs := [] }
    let f : List Byte := [0xFF, 0xFF, 0xFE, 0x02, 0x01, 0xFE]
    let s := raw f 6 (idealArrivals d f 6)
    Ready s ∧ badLengths s = false ∧
    (∀ j < s.regs.xlen.toNat, (Memory.find s.buf.txf j).isSome = true) ∧ s.bus.rxq = [] ∧
    d.addr.toNat ≤ 253 ∧ txfBytes s.regs.xlen.toNat s = f ∧ f = frame 254 0x01 [] ∧
    s.bus.arrivals = [f, []] ∧ devAnswer d f = [] ∧
    devAnswer d (frame 253 0x01 []) = [0xFF, 0xFF, 0xFD, 0x02, 0x00, 0x00] :=
  ⟨raw_ready _ _ _, by decide, by decide, rfl, by decide, by decide, by decide, by decide, by decide,
    by decide⟩

/-- D-ACC-5, with a device that holds nothing yet. -/
theorem witness_RegisterRoundTrip :
    let d : Device := { addr := 1, err := 0x00, regs := [] }
    let s := pinging
      (idealRun d [(packetBytes (.write2 1 0x1E 0x1234), 6), (packetBytes (rd2 1 0x1E), 8)]).1
    Ready s ∧ s.cfg = Config.hdx ∧ d.addr.toNat ≤ 253 ∧ s.bus.rxq = [] ∧
    s.bus.arrivals =
      [[0xFF, 0xFF, 0x01, 0x05, 0x03, 0x1E, 0x34, 0x12, 0x92] ++ good1, [],
        [0xFF, 0xFF, 0x01, 0x04, 0x02, 0x1E, 0x02, 0xD8,
          0xFF, 0xFF, 0x01, 0x04, 0x00, 0x34, 0x12, 0xB4], []] :=
  ⟨pinging_ready _, rfl, by decide, rfl, by decide⟩

/-- One pending input of each kind. -/
theorem witness_StepRunsDecoded :
    let s := presentNext (.packet ping1) State.reset
    decode (.packet ping1) = .instr (.ping 1) ∧ s.io.inputs = inputOf (.packet ping1) :: [] ∧
    s.io.rstPin.headD false = false ∧ decode (.packet []) = .reject .shortPacket ∧
    (0x7FFF : Word).getLsbD 15 = false ∧ (0x8009 : Word).getLsbD 15 = true ∧
    (0x8009 : Word).extractLsb' 3 12 ≠ 0 ∧ (15 : RegNo) ≠ rCmd ∧
    (pushInputs [.read 15] s).io.inputs = .read 15 :: s.io.inputs ∧
    State.reset.io.inputs = [] ∧ State.reset.io.rstPin.headD false = false := by decide

theorem witness_StepKeepsInvariant : Inv running ∧ ∃ t, step running = .next t :=
  ⟨running_inv, _, rfl⟩

theorem witness_ResetStep :
    ({ running with io.rstPin := [true] } : State).io.rstPin = true :: [] ∧ running.cfg.wire = true :=
  ⟨rfl, by decide⟩

theorem witness_OnlyTxWriteHangs :
    Inv running ∧ running.status.busy = true ∧ running.bus.txHung = false ∧
    Inv hanging ∧ hanging.status.busy = true ∧ (seqToEnd hanging).status.busy = true :=
  ⟨running_inv, by decide, by decide, hanging_inv, by decide, by decide⟩

theorem witness_OperationIsAtomic :
    Inv running ∧ running.status.busy = true ∧ running.bus.txHung = false :=
  ⟨running_inv, by decide, by decide⟩

/-- A step; a read while BUSY = 1; the last entry of each buffer unwritten and read while BUSY = 0; a first
attempt whose response is to be checked. -/
theorem witness_StepOnlyAppends :
    (∃ t, step (presentNext (.packet ping1) (pinging [])) = .next t) ∧ running.status.busy = true ∧
    (let s := writeReg rBufidx 252 State.reset
     s.status.busy = false ∧ s.regs.bufidx.toNat < s.cfg.pmax ∧
       Memory.find s.buf.pbuf s.regs.bufidx.toNat = none) ∧
    (let s := writeReg rBufidx 258 State.reset
     s.status.busy = false ∧ s.regs.bufidx.toNat < s.cfg.xmax ∧
       Memory.find s.buf.txf s.regs.bufidx.toNat = none ∧
       Memory.find s.buf.rxbuf s.regs.bufidx.toNat = none) ∧
    curNoresp running = false :=
  ⟨⟨_, rfl⟩, by decide, by decide, by decide, by decide⟩

theorem witness_WaitStatement :
    Inv running ∧ running.bus.txHung = false ∧ running.status.busy = true ∧
    State.reset.status.busy = false ∧ State.reset.status.done = false :=
  ⟨running_inv, by decide, by decide, rfl, rfl⟩

end Sys2Proof.Tests
end

section
/-! PROOFS. The host register port (10_state.md R20 to R32): presented writes, reads register by register, and
the data ports over their buffers; then STATUS, the LASTERR window and the data ports. -/

namespace Sys2Proof.Machine

/-! ## A presented write of a register other than CMD -/

theorem present_write {r : RegNo} (hr : r ≠ rCmd) (v : Word) (s : State) :
    present (.write r v) s = .next (hostWrite r v s) := if_neg hr

/-- On an idle block no transition follows, so a presented write is the write alone. -/
theorem present_write_idle {r : RegNo} {s : State} (hr : r ≠ rCmd) (h : s.status.busy = false)
    (v : Word) : present (.write r v) s = .next (writeReg r v s) := by
  rw [present_write hr, hostWrite_idle hr h]

/-- The registers that a write leaves as they are (10_state.md Table 10-1). -/
theorem writeReg_readOnly {r : RegNo}
    (hr : r = rStatus ∨ r = rRxlen ∨ r = rCkout ∨ r = rLasterr ∨ r = rRxdata ∨ r = 15)
    (v : Word) (s : State) : writeReg r v s = s := by
  have hne : r ≠ rDevaddr ∧ r ≠ rInstr ∧ r ≠ rPlen ∧ r ≠ rExplen ∧ r ≠ rXlen ∧ r ≠ rXexp ∧
      r ≠ rBufidx ∧ r ≠ rPaydata ∧ r ≠ rTxdata := by revert r; decide
  simp [writeReg, hne]

theorem writeReg_txdata {v : Word} {s : State} (h : s.status.busy = false) :
    writeReg rTxdata v s =
      { s with buf.txf := portWrite s.cfg.xmax s.buf.txf s.regs.bufidx.toNat (v.setWidth 8) } := by
  simp [writeReg, h, rTxdata, rPaydata, rBufidx, rXexp, rXlen, rExplen, rPlen, rInstr, rDevaddr]

/-! ## Reads, register by register -/

theorem readReg_status_idle {s : State} (h : s.status.busy = false) :
    (readReg rStatus s).1 = statusWord s.status := by rw [readReg_idle h]; rfl

theorem readReg_status_busy {s : State} (h : s.status.busy = true) :
    (readReg rStatus s).1 = statusWordBusy s.status (Config.freeWord s.draws) := by
  simp [readReg, readRegBusy, h]

theorem readReg_lasterr_idle {s : State} (h : s.status.busy = false) :
    (readReg rLasterr s).1 = (lastErr s s.regs.devaddr.toNat).setWidth 16 := by
  rw [readReg_idle h]; rfl

theorem readReg_paydata_idle {s : State} (h : s.status.busy = false) :
    (readReg rPaydata s).1 =
      (portRead s.cfg.pmax s.buf.pbuf s.regs.bufidx.toNat s.draws).1.setWidth 16 := by
  rw [readReg_idle h]; rfl

theorem readReg_txdata_idle {s : State} (h : s.status.busy = false) :
    (readReg rTxdata s).1 =
      (portRead s.cfg.xmax s.buf.txf s.regs.bufidx.toNat s.draws).1.setWidth 16 := by
  rw [readReg_idle h]; rfl

theorem readReg_rxdata_idle {s : State} (h : s.status.busy = false) :
    (readReg rRxdata s).1 =
      (portRead s.cfg.xmax s.buf.rxbuf s.regs.bufidx.toNat s.draws).1.setWidth 16 := by
  rw [readReg_idle h]; rfl

/-! ## STATUS (10_state.md R22) -/

/-- While BUSY = 1 the bits of ANOM, RETRIED and CODE are those of the free word: DONE and BUSY stand at bits
1 and 0, which the mask 0x0F0C leaves out. -/
theorem statusWordBusy_free (t : Status) (f : Word) :
    statusWordBusy t f &&& 0x0F0C = f &&& 0x0F0C := by
  have hdone : (bitWord t.done <<< 1) &&& 0x0F0C = 0 := by cases t.done <;> rfl
  have hbusy : bitWord t.busy &&& 0x0F0C = 0 := by cases t.busy <;> rfl
  rw [statusWordBusy, BitVec.and_or_distrib_right, BitVec.and_or_distrib_right, hdone, hbusy,
    BitVec.and_assoc]
  simp

/-- Settles O15: the fields of the STATUS word, and STATUS as a read-only register. -/
theorem statusRegister : Obligations.StatusRegister := by
  intro s
  refine ⟨fun h => ?_, fun h => ?_, fun v => ?_⟩
  · rw [readReg_status_idle h]
    exact ⟨statusWord_busy _, statusWord_done _, statusWord_anom _, statusWord_retried _,
      statusWord_code _⟩
  · rw [readReg_status_busy h]
    refine ⟨?_, ?_, statusWordBusy_free _ _⟩
    · rw [statusWordBusy_getLsbD _ _ _ (by decide)]; simp
    · rw [statusWordBusy_getLsbD _ _ _ (by decide)]; simp
  · rw [present_write (by decide), hostWrite, if_neg (by decide), writeReg_readOnly (.inl rfl)]

/-! ## The LASTERR window (10_state.md R31) -/

theorem wire_lasterr {c : Config} (h : c.wire = true) : c.naddr = 255 ∧ c.noStatus = 0x80 := by
  simp only [Config.wire, Bool.and_eq_true, beq_iff_eq] at h
  exact ⟨h.1.1.1.1.1.1.2, h.2⟩

theorem lastErr_of_entry {s : State} {a : Nat} (h : a < s.cfg.naddr) :
    lastErr s a = (Memory.find s.buf.lasterr a).getD s.cfg.noStatus := if_pos h

theorem lastErr_of_no_entry {s : State} {a : Nat} (h : s.cfg.naddr ≤ a) :
    lastErr s a = s.cfg.noStatus := if_neg (by omega)

/-- Settles O19: the address in DEVADDR has an entry exactly when it is below NADDR = 255. -/
theorem lasterrWindow : Obligations.LasterrWindow := by
  intro s hw h
  obtain ⟨hn, hns⟩ := wire_lasterr hw
  rw [readReg_lasterr_idle h]
  refine ⟨fun ha => ?_, fun ha => ?_, fun v => ?_⟩
  · rw [lastErr_of_entry (by omega), hns]
  · rw [lastErr_of_no_entry (by rw [hn, ha]; decide), hns]; rfl
  · rw [present_write_idle (by decide) h, writeReg_devaddr h]

/-! ## The data ports (10_state.md R32) -/

section
variable {size i : Nat} {m : List Host.Cell}

/-- A port read of a written entry gives it and draws no free value. -/
theorem portRead_written {b : Byte} (hi : i < size) (h : Memory.find m i = some b) (k : Nat) :
    portRead size m i k = (b, k) := by
  simp [portRead, drawEntry, hi, h]

theorem portRead_beyond (hi : size ≤ i) (k : Nat) : portRead size m i k = (0, k) :=
  if_neg (by omega)

/-- A port write below the size changes the entry at the index alone. -/
theorem find_portWrite (hi : i < size) (v : Byte) (j : Nat) :
    Memory.find (portWrite size m i v) j = if j = i then some v else Memory.find m j := by
  rw [portWrite, if_pos hi, Memory.find_put]

theorem portWrite_beyond (hi : size ≤ i) (v : Byte) : portWrite size m i v = m :=
  if_neg (by omega)

end

theorem present_paydata_idle {s : State} (h : s.status.busy = false) (v : Word) :
    present (.write rPaydata v) s =
      .next
        { s with
          buf.pbuf := portWrite s.cfg.pmax s.buf.pbuf s.regs.bufidx.toNat (v.setWidth 8) } := by
  rw [present_write_idle (by decide) h, writeReg_paydata h]

theorem present_txdata_idle {s : State} (h : s.status.busy = false) (v : Word) :
    present (.write rTxdata v) s =
      .next
        { s with
          buf.txf := portWrite s.cfg.xmax s.buf.txf s.regs.bufidx.toNat (v.setWidth 8) } := by
  rw [present_write_idle (by decide) h, writeReg_txdata h]

/-- Settles O20: each port is a port read or a port write of its buffer at BUFIDX, within the buffer or beyond
it. -/
theorem dataPorts : Obligations.DataPorts := by
  refine ⟨fun s h => ?_, rfl, rfl⟩
  rw [readReg_paydata_idle h, readReg_txdata_idle h, readReg_rxdata_idle h]
  refine ⟨?pbufWithin, ?pbufBeyond, ?framesWithin, ?framesBeyond, ?rxdataWrite⟩
  case pbufWithin =>
    refine fun hi => ⟨fun b hb => ?_, fun hn => ?_, fun v => ?_⟩
    · rw [portRead_written hi hb]
    · rw [portRead_unwritten hi hn]
    · exact ⟨_, present_paydata_idle h v, find_portWrite hi _⟩
  case pbufBeyond =>
    refine fun hi => ⟨?_, fun v => ?_⟩
    · rw [portRead_beyond hi]; rfl
    · rw [present_paydata_idle h, portWrite_beyond hi]
  case framesWithin =>
    refine fun hi =>
      ⟨fun b hb => ?_, fun hn => ?_, fun b hb => ?_, fun hn => ?_, fun v => ?_⟩
    · rw [portRead_written hi hb]
    · rw [portRead_unwritten hi hn]
    · rw [portRead_written hi hb]
    · rw [portRead_unwritten hi hn]
    · exact ⟨_, present_txdata_idle h v, find_portWrite hi _⟩
  case framesBeyond =>
    refine fun hi => ⟨?_, ?_, fun v => ?_⟩
    · rw [portRead_beyond hi]; rfl
    · rw [portRead_beyond hi]; rfl
    · rw [present_txdata_idle h, portWrite_beyond hi]
  case rxdataWrite =>
    intro v
    rw [present_write_idle (by decide) h, writeReg_readOnly (by simp)]

end Sys2Proof.Machine
end

section
/-! PROOFS. Length operands (30_encoding.md R98): what CKS of a legal descriptor leaves in LEN, XLEN and XEXP,
whether or not its payload is written. -/

namespace Sys2Proof.Machine

/-! ## The lengths of a packet -/

section
variable {c : Config} (h : c.ovh = 6)
include h

/-- XLEN holds the frame length: the nine bits do not wrap for any PLEN. -/
theorem frameLen_toNat (plen : Byte) : (frameLen c plen.toNat).toNat = plen.toNat + 6 := by
  have := plen.isLt
  rw [frameLen, h, BitVec.toNat_ofNat]
  omega

/-- XEXP holds the response length: the nine bits do not wrap for any EXPLEN. -/
theorem respLen_toNat (noresp : Bool) (explen : Byte) :
    (respLen c noresp explen).toNat = if noresp then 0 else 6 + explen.toNat := by
  have := explen.isLt
  cases noresp with
  | true => rfl
  | false =>
    simp only [respLen, h, Bool.false_eq_true, if_false, BitVec.toNat_ofNat]
    omega

end

/-! ## What BUILD writes (40_checksum_frame.md R137) -/

/-- TXF holds the frame of the descriptor and of the payload as read, an unwritten entry by a free value. -/
theorem find_buildFrame_txf {s : State} {j : Nat} (hj : j < s.regs.plen.toNat + 6) :
    Memory.find (buildFrame s).buf.txf j =
      (framed s.cfg s.regs.devaddr s.regs.instr
        (Memory.readSeq s.buf.pbuf 0 s.regs.plen.toNat s.draws).1)[j]? := by
  rw [buildFrame, Memory.find_writeSeq, if_pos (by simpa using hj), Nat.sub_zero]

/-- LEN stands at offset 3 of the frame. -/
theorem find_buildFrame_len (s : State) :
    Memory.find (buildFrame s).buf.txf 3 = some (lenByte s.regs.plen.toNat) := by
  rw [find_buildFrame_txf (by omega)]
  simp [framed, covered]

/-! ## CKS -/

/-- CKS of a legal descriptor on a block that is ready: BUILD is its one transition (40_checksum_frame.md
R138). -/
theorem exec_cks_legal {nr : Bool} {s : State} (hs : Ready s) (h : badDescriptor nr s = false) :
    exec (.cks nr) s =
      .next (endOperation codeOk { buildFrame (accepted .cks nr s) with regs.rxlen := 0 }) := by
  have hgood : badCmd (accepted .cks nr s) = false := by rw [accepted_badCmd]; exact h
  rw [exec, execCks, operate_ready hs]
  congr 1
  exact seqRun_over (k := 1) (build_legal hgood) rfl (by simp [opTransitions]; omega)

/-- Settles O26: LEN, XLEN and XEXP are those of BUILD, which CKS leaves as it ends. -/
theorem lengthOperands : Obligations.LengthOperands := by
  intro nr s hs hc h
  obtain ⟨-, -, hovh⟩ := wire_packet (wire_of_legal hc)
  refine ⟨_, exec_cks_legal hs h, ?len, ?xlen, ?xexp⟩
  case len => exact find_buildFrame_len (accepted .cks nr s)
  case xlen => exact frameLen_toNat hovh s.regs.plen
  case xexp =>
    show (respLen s.cfg (curNoresp (accepted .cks nr s)) s.regs.explen).toNat = _
    rw [accepted_curNoresp, respLen_toNat hovh]

end Sys2Proof.Machine
end

section
/-! PROOFS. The checksum and the frame (40_checksum_frame.md R130 to R138): the three operations of the CK8
unit and their encoding, the sum that the unit holds after a sequence of bytes, verification, the layout of a
frame, and CKS. -/

namespace Sys2Proof.Machine

/-! ## The operations of the CK8 unit (30_encoding.md R102) -/

theorem exec_ckClr (en : Bool) (d : Byte) (s : State) :
    exec (.ckClr en d) s = .next { s with acc := 0 } := rfl

theorem exec_ckAdd (d : Byte) (s : State) :
    exec (.ckAdd d) s = .next { s with acc := s.acc + d } := rfl

theorem exec_ckHold (d : Byte) (s : State) : exec (.ckHold d) s = .next s := rfl

/-- The control bits by name: `ck_clr` wins over `ck_en`. -/
theorem decode_encodeCk (clr en : Bool) (d : Byte) :
    decode (.ckCtl (encodeCk clr en) d) =
      .instr (if clr then .ckClr en d else if en then .ckAdd d else .ckHold d) := by
  cases clr <;> cases en <;> rfl

/-- Settles O11: ACC after the clear does not depend on `ck_en` and `ck_din`. -/
theorem ckClrResult : Obligations.CkClrResult :=
  fun en d s => ⟨exec_ckClr en d s, rfl, decode_encodeCk true en d⟩

/-- Settles O13: neither `ck_clr` nor `ck_en` is set, so the unit keeps ACC. -/
theorem ckHoldResult : Obligations.CkHoldResult :=
  fun d s => ⟨exec_ckHold d s, decode_encodeCk false false d⟩

/-! ## Sequences of additions -/

/-- CK.ADD of every byte of a sequence adds their sum, modulo 256, and changes nothing else. -/
theorem runInstrs_ckAdd (bs : List Byte) (s : State) :
    runInstrs (bs.map .ckAdd) s = .next { s with acc := s.acc + BitVec.ofNat 8 (sumBytes bs) } := by
  induction bs generalizing s with
  | nil => simp [runInstrs, sumBytes]
  | cons b bs ih =>
    rw [List.map_cons, runInstrs, exec_ckAdd]
    simp [ih, sumBytes, BitVec.ofNat_add, BitVec.add_assoc]

/-- After CK.CLR and CK.ADD of every byte of a sequence the unit holds their sum, modulo 256. -/
theorem runInstrs_ckClr_ckAdd (en : Bool) (d : Byte) (bs : List Byte) (s : State) :
    runInstrs (.ckClr en d :: bs.map .ckAdd) s =
      .next { s with acc := BitVec.ofNat 8 (sumBytes bs) } := by
  rw [runInstrs, exec_ckClr]
  simp [runInstrs_ckAdd]

/-- Settles O12: the byte sum wraps at 256, and two additions commute because their sum does not see the
order of the bytes. -/
theorem ckAddResult : Obligations.CkAddResult := by
  refine ⟨fun d s => ?sum, fun b c s => ?commute, fun s h => ?wrap, fun s => ?zero, fun s h => ?carryDiscarded,
    rfl, decode_encodeCk false true⟩
  case sum => rw [exec_ckAdd, BitVec.ofNat_add]; simp
  case commute =>
    have hsum : sumBytes [b, c] = sumBytes [c, b] := sumBytes_perm (.swap c b [])
    calc runInstrs ([b, c].map .ckAdd) s
      _ = .next { s with acc := s.acc + BitVec.ofNat 8 (sumBytes [b, c]) } := runInstrs_ckAdd _ s
      _ = .next { s with acc := s.acc + BitVec.ofNat 8 (sumBytes [c, b]) } := by rw [hsum]
      _ = runInstrs ([c, b].map .ckAdd) s := (runInstrs_ckAdd _ s).symm
  case wrap => rw [exec_ckAdd, h]; rfl
  case zero => simp [exec_ckAdd]
  case carryDiscarded => rw [exec_ckAdd, h]; rfl

/-! ## The checksum function and verification -/

/-- Settles O7: both readings are the one value 255 - (sum mod 256), and the corner cases are the formula at
these sums. -/
theorem checksumFormula : Obligations.ChecksumFormula := by
  refine ⟨fun s => ⟨cks8_eq_not s, cks8_toNat s, ?negated, fun h => ?_, fun h => ?_, fun h => ?_⟩,
    rfl, rfl⟩
  case negated => rw [cks8_toNat]; omega
  all_goals rw [cks8_eq_not, h]; rfl

theorem ofNat8_eq_ones_iff (n : Nat) : BitVec.ofNat 8 n = 0xFF ↔ n % 256 = 255 := by
  rw [← BitVec.toNat_inj, BitVec.toNat_ofNat]; rfl

theorem ckOut_eq_zero_iff (acc : Byte) : ckOut acc = 0x00 ↔ acc = 0xFF :=
  BitVec.not_eq_comm

/-- Verification by the unit's sum over the covered bytes and the checksum (40_checksum_frame.md R135). -/
theorem verify8_iff_ofNat_sum (s : List Byte) (c : Byte) :
    verify8 s c = true ↔ BitVec.ofNat 8 (sumBytes s + c.toNat) = 0xFF := by
  rw [ofNat8_eq_ones_iff, verify8_iff]

/-- Settles O8: the unit holds the sum over s and c, which is 0xFF modulo 256 exactly when c is the checksum. -/
theorem verifyIff : Obligations.VerifyIff := by
  refine ⟨fun s c => ⟨beq_iff_eq, verify8_iff_ofNat_sum s c, fun st en d => ?_⟩, rfl⟩
  have hacc : verify8 s c = true ↔ BitVec.ofNat 8 (sumBytes (s ++ [c])) = 0xFF := by
    rw [sumBytes_append]; exact verify8_iff_ofNat_sum s c
  exact ⟨_, runInstrs_ckClr_ckAdd en d (s ++ [c]) st, hacc, hacc.trans (ckOut_eq_zero_iff _).symm⟩

/-! ## The frame -/

/-- The layout of a frame, byte by byte. -/
theorem frame_layout (a i : Byte) (p : List Byte) :
    frame a i p =
      [0xFF, 0xFF, a, lenByte p.length, i] ++ p ++ [cks8 ([a, lenByte p.length, i] ++ p)] := rfl

/-- Settles O5: the layout is the frame's definition with the table's markers. -/
theorem frameLayout : Obligations.FrameLayout :=
  ⟨fun a i p _ => ⟨frame_layout a i p, frame_length a i p⟩, rfl⟩

/-! ## CKS (40_checksum_frame.md R138) -/

/-- The latched OPL of an operation's CMD word (30_encoding.md Table 30-5). -/
theorem cmdOpl_encodeCmd (op : HostOp) (nr : Bool) :
    cmdOpl (encodeCmd op.bits nr) = BitVec.ofBool nr ++ op.bits := by
  cases op <;> cases nr <;> decide

/-- An operation that ends in BUILD leaves the sequencer as its GO latched it, in IDLE. -/
theorem atRest_accepted (op : HostOp) (nr : Bool) (s : State) :
    AtRest op nr false { (accepted op nr s).seq with phase := .idle } :=
  ⟨rfl, cmdOpl_encodeCmd op nr, rfl⟩

/-- CKS of an illegal descriptor on a block that is ready: BUILD ends it before anything is written
(60_exceptions.md R245). -/
theorem exec_cks_illegal {nr : Bool} {s : State} (hs : Ready s) (h : badDescriptor nr s = true) :
    exec (.cks nr) s = .next (endOperation codeBadCmd (accepted .cks nr s)) := by
  have hbad : badCmd (accepted .cks nr s) = true := by rw [accepted_badCmd]; exact h
  rw [exec, execCks, operate_ready hs]
  congr 1
  exact seqRun_over (k := 1) (build_illegal hbad) rfl (by simp [opTransitions]; omega)

/-- Settles O25: BUILD is the one transition of CKS, so what it leaves is the built frame, or BAD_CMD alone. -/
theorem cksResult : Obligations.CksResult := by
  refine fun nr s hs => ⟨fun h => ?legal, fun h => ?illegal, ?decodes⟩
  case legal =>
    refine ⟨_, atRest_accepted .cks nr s, ?_⟩
    rw [exec_cks_legal hs h.good, buildFrame_eq h]
    rfl
  case illegal => exact ⟨_, atRest_accepted .cks nr s, exec_cks_illegal hs h⟩
  case decodes => cases nr <;> rfl

end Sys2Proof.Machine
end

section
/-! PROOFS. The raw exchange (41_exchange.md R150 to R157): what XCHG of legal lengths runs through, and the
state it leaves when the TXF entries that it sends are written. -/

namespace Sys2Proof.Machine

/-! ## XCHG of legal lengths -/

/-- Nothing follows the response of XCHG: it ends the operation with OK (41_exchange.md R150). -/
theorem afterResponse_xchg {s : State} (h : curOp s = .xchg) :
    afterResponse s = endOperation codeOk s := by
  simp only [afterResponse, h]

/-- XCHG of legal lengths on a block that is ready: BUILD and the phases of one exchange, which the transitions
of an operation suffice for. -/
theorem exec_xchg_legal {nr : Bool} {s : State} (hs : Ready s) (h : badLengths s = false) :
    exec (.xchg nr) s =
      .next (endOperation codeOk
        { (exchangeFrame (accepted .xchg nr s)).2 with seq := exchangeSeq (accepted .xchg nr s) }) := by
  have hgood : badCmd (accepted .xchg nr s) = false := by rw [accepted_badCmd]; exact h
  obtain ⟨k, hk, hrun⟩ := seqRun_exchange (accepted .xchg nr s) hs.taken
  have hfuel : k ≤ 4 + s.bus.takes.length := (Nat.le_add_right _ _).trans hk
  rw [exec, execXchg, operate_ready hs]
  congr 1
  refine seqRun_over (k := k + 1) ?ends rfl (by simp only [opTransitions]; omega)
  case ends =>
    rw [seqRun, build_legal hgood, hrun]
    exact afterResponse_xchg (accepted_curOp .xchg nr s)

/-- An operation that ends in its first exchange leaves OPL and ATT as its GO latched them. -/
theorem atRest_exchanged (op : HostOp) (nr : Bool) (s : State) :
    AtRest op nr false { exchangeSeq (accepted op nr s) with phase := .idle } :=
  ⟨rfl, cmdOpl_encodeCmd op nr, rfl⟩

/-! ## The bytes sent -/

/-- TXF entries that are all written are sent as they stand, and no free value is drawn. -/
theorem readFrame_written {s : State}
    (h : ∀ j < s.regs.xlen.toNat, (Memory.find s.buf.txf j).isSome = true) :
    readFrame s = (txfBytes s.regs.xlen.toNat s, s.draws) :=
  Memory.readSeq_find s.buf.txf _ s.draws h

/-- Settles O28: the one exchange in closed form, on the bytes as they stand in TXF; ANOM, cleared by the GO,
is the comparison alone. -/
theorem xchgResult : Obligations.XchgResult := by
  intro nr s hs hlen hw
  refine ⟨_, atRest_exchanged .xchg nr s, ?_⟩
  have hread : readFrame (accepted .xchg nr s) = (txfBytes s.regs.xlen.toNat s, s.draws) :=
    readFrame_written (s := accepted .xchg nr s) hw
  rw [exec_xchg_legal hs hlen, exchangeFrame_eq hread]
  rfl

end Sys2Proof.Machine
end

section
/-! PROOFS. The phases of CMD and CMDR against their pseudocode (42_command.md R170 to R172, R176): what BUILD
and the attempts run through, whatever the descriptor and its payload. -/

namespace Sys2Proof.Machine

/-- An illegal operation on a block that is ready ends in BUILD, before anything is written
(60_exceptions.md R245). -/
theorem operate_illegal {op : HostOp} {nr : Bool} {s : State} (hs : Ready s)
    (h : badCmd (accepted op nr s) = true) :
    operate op nr s = endOperation codeBadCmd (accepted op nr s) := by
  rw [operate_ready hs]
  exact seqRun_over (k := 1) (build_illegal h) rfl (by simp only [opTransitions]; omega)

/-! ## What an attempt leaves of STATUS and of the registers -/

theorem attempt_retried (nr : Bool) (s : State) :
    (attempt nr s).2.status.retried = s.status.retried := by
  have hx : (exchangeFrame s).2.status.retried = s.status.retried := by
    simp only [exchangeFrame, exchange_eq]
  cases nr with
  | true => exact hx
  | false => rw [attempt_eq, noteError_eq]; exact hx

theorem attempt_xexp (nr : Bool) (s : State) : (attempt nr s).2.regs.xexp = s.regs.xexp := by
  have hx : (exchangeFrame s).2.regs.xexp = s.regs.xexp := by rw [(exchangeFrame_descriptor s).2]
  cases nr with
  | true => exact hx
  | false => rw [attempt_eq, noteError_eq]; exact hx

/-! ## The first attempt -/

/-- The first `Attempt()` of an accepted CMD or CMDR, on the frame that BUILD left (R170, R171). -/
def firstAttempt (op : HostOp) (nr : Bool) (s : State) : BitVec 4 × State :=
  attempt nr (buildFrame (accepted op nr s))

/-- The sequencer as the first attempt of an accepted operation ends, in the phase `p`. -/
def firstAttemptSeq (op : HostOp) (nr : Bool) (s : State) (p : Phase) : Seq :=
  { exchangeSeq (buildFrame (accepted op nr s)) with phase := p }

section
variable {op : HostOp} {nr : Bool} {s : State}

theorem atRest_firstAttempt : AtRest op nr false (firstAttemptSeq op nr s .idle) :=
  ⟨rfl, cmdOpl_encodeCmd op nr, rfl⟩

/-- BUILD of a legal descriptor goes on to an exchange of the frame it built. -/
theorem seqStep_build_attempt (hop : op = .cmd ∨ op = .cmdr) (h : badDescriptor nr s = false) :
    seqStep (accepted op nr s) = startExchange (buildFrame (accepted op nr s)) := by
  have hgood : badCmd (accepted op nr s) = false := by
    rw [accepted_badCmd]; rcases hop with rfl | rfl <;> exact h
  rw [build_legal hgood]
  rcases hop with rfl | rfl <;> rfl

/-- From the GO to the end of the first attempt. -/
theorem seqRun_firstAttempt (hop : op = .cmd ∨ op = .cmdr) (ht : s.bus.txHung = false)
    (h : badDescriptor nr s = false) :
    ∃ k, k + (firstAttempt op nr s).2.bus.takes.length ≤ 6 + s.bus.takes.length ∧
      seqRun k (accepted op nr s) =
        afterAttempt (firstAttempt op nr s).1
          { (firstAttempt op nr s).2 with seq := firstAttemptSeq op nr s .check } := by
  have hcur : curOp (buildFrame (accepted op nr s)) = op := accepted_curOp op nr s
  have hnr : curNoresp (buildFrame (accepted op nr s)) = nr := accepted_curNoresp op nr s
  have hnox : curOp (buildFrame (accepted op nr s)) ≠ .xchg := by
    rw [hcur]; rcases hop with rfl | rfl <;> decide
  obtain ⟨k, hk, hrun⟩ := seqRun_attempt (buildFrame (accepted op nr s)) ht hnox
  have htakes : (buildFrame (accepted op nr s)).bus.takes = s.bus.takes := rfl
  rw [hnr] at hk hrun
  rw [htakes] at hk
  refine ⟨k + 1, by rw [firstAttempt]; omega, ?_⟩
  rw [seqRun, seqStep_build_attempt hop h, hrun]
  rfl

/-- A first attempt that succeeds, or any of CMD, ends the operation. -/
theorem operate_once (hs : Ready s) (hop : op = .cmd ∨ op = .cmdr)
    (h : badDescriptor nr s = false) (hend : (firstAttempt op nr s).1 = codeOk ∨ op ≠ .cmdr) :
    operate op nr s =
      { endOperation (firstAttempt op nr s).1 (firstAttempt op nr s).2 with
        seq := firstAttemptSeq op nr s .idle } := by
  obtain ⟨k, hk, hrun⟩ := seqRun_firstAttempt hop hs.taken h
  have hcur : curOp { (firstAttempt op nr s).2 with seq := firstAttemptSeq op nr s .check } = op :=
    accepted_curOp op nr s
  rw [afterAttempt_end (by rw [hcur]; exact hend.imp_right .inl)] at hrun
  rw [operate_ready hs, seqRun_over hrun rfl (by simp only [opTransitions]; omega)]
  rfl

end

/-! ## CMD -/

theorem runCmd_illegal {nr : Bool} {s : State} (h : badDescriptor nr s = true) :
    runCmd nr s = endOperation codeBadCmd (accepted .cmd nr s) := if_pos h

theorem runCmd_legal {nr : Bool} {s : State} (h : badDescriptor nr s = false) :
    runCmd nr s = endOperation (firstAttempt .cmd nr s).1 (firstAttempt .cmd nr s).2 := by
  simp only [runCmd, h, Bool.false_eq_true, if_false, firstAttempt]

/-- CMD on a block that is ready leaves what its pseudocode leaves (R170, R172). -/
theorem exec_cmd_runCmd (nr : Bool) {s : State} (hs : Ready s) :
    ∃ q, AtRest .cmd nr false q ∧ exec (.cmd nr) s = .next { runCmd nr s with seq := q } := by
  cases h : badDescriptor nr s with
  | true =>
    have hbad : badCmd (accepted .cmd nr s) = true := by rw [accepted_badCmd]; exact h
    rw [exec, execCmd, operate_illegal hs hbad, runCmd_illegal h]
    exact ⟨_, atRest_accepted .cmd nr s, rfl⟩
  | false =>
    rw [exec, execCmd, operate_once hs (.inl rfl) h (.inr (by decide)), runCmd_legal h]
    exact ⟨_, atRest_firstAttempt, rfl⟩

/-! ## CMDR -/

/-- The state in which the second attempt of CMDR begins: what the first left, after the retry step (R176). -/
def retriedState (nr : Bool) (s : State) : State := retryStep (firstAttempt .cmdr nr s).2

/-- The second `Attempt()` of CMDR (R171, R176). -/
def secondAttempt (nr : Bool) (s : State) : BitVec 4 × State := attempt nr (retriedState nr s)

section
variable {nr : Bool} {s : State}

theorem runCmdr_illegal (h : badDescriptor nr s = true) :
    runCmdr nr s = endOperation codeBadCmd (accepted .cmdr nr s) := if_pos h

theorem runCmdr_once (h : badDescriptor nr s = false) (hok : (firstAttempt .cmdr nr s).1 = codeOk) :
    runCmdr nr s = endOperation codeOk (firstAttempt .cmdr nr s).2 := by
  rw [firstAttempt] at hok ⊢
  simp only [runCmdr, h, hok, Bool.false_eq_true, if_false, if_true]

theorem runCmdr_twice (h : badDescriptor nr s = false)
    (hfail : (firstAttempt .cmdr nr s).1 ≠ codeOk) :
    runCmdr nr s = endOperation (secondAttempt nr s).1 (secondAttempt nr s).2 := by
  rw [firstAttempt] at hfail
  simp only [runCmdr, h, hfail, Bool.false_eq_true, if_false, secondAttempt, retriedState,
    firstAttempt]

theorem firstAttempt_retried (op : HostOp) : (firstAttempt op nr s).2.status.retried = false :=
  attempt_retried nr (buildFrame (accepted op nr s))

theorem secondAttempt_retried : (secondAttempt nr s).2.status.retried = true :=
  attempt_retried nr (retriedState nr s)

/-- RETRIED after CMDR tells whether there was a second attempt (10_state.md R35). -/
theorem runCmdr_once_retried (h : badDescriptor nr s = false)
    (hok : (firstAttempt .cmdr nr s).1 = codeOk) : (runCmdr nr s).status.retried = false := by
  rw [runCmdr_once h hok, endOperation_status, firstAttempt_retried]

theorem runCmdr_twice_retried (h : badDescriptor nr s = false)
    (hfail : (firstAttempt .cmdr nr s).1 ≠ codeOk) : (runCmdr nr s).status.retried = true := by
  rw [runCmdr_twice h hfail, endOperation_status, secondAttempt_retried]

/-- From BACKOFF to the end of the second attempt, for a sequencer `q` in which CMDR runs (R176): `s` is what
the first attempt left. -/
theorem seqRun_retry {q : Seq} (ht : s.bus.txHung = false)
    (hop : HostOp.ofBits (oplOp q.opl) = .cmdr) (hnr : oplNoresp q.opl = nr)
    (hp : q.phase = .backoff) :
    ∃ k q', k + (attempt nr (retryStep s)).2.bus.takes.length ≤ 6 + s.bus.takes.length ∧
      q'.phase = .idle ∧ q'.opl = q.opl ∧ q'.att = true ∧
      seqRun k { s with seq := q } =
        { endOperation (attempt nr (retryStep s)).1 (attempt nr (retryStep s)).2 with
          seq := q' } := by
  let s2 : State := { retryStep s with seq := { q with att := true, backoffTimer := 0 } }
  have hstep : seqStep { s with seq := q } = startExchange s2 := by
    simp only [seqStep, hp]; rfl
  have hcur : curOp s2 = .cmdr := hop
  have hnr2 : curNoresp s2 = nr := hnr
  obtain ⟨k, hk, hrun⟩ := seqRun_attempt s2 ht (by rw [hcur]; decide)
  have htakes : s2.bus.takes = s.bus.takes := rfl
  rw [hnr2, attempt_seq] at hk hrun
  rw [htakes] at hk
  rw [afterAttempt_end (.inr (.inr rfl))] at hrun
  refine ⟨k + 1, { exchangeSeq s2 with phase := .idle }, by dsimp only at hk; omega, rfl, rfl, rfl, ?_⟩
  rw [seqRun, hstep, hrun]
  rfl

/-- A first attempt of CMDR that fails is followed by the second, which ends the operation. -/
theorem operate_twice (hs : Ready s) (h : badDescriptor nr s = false)
    (hfail : (firstAttempt .cmdr nr s).1 ≠ codeOk) :
    ∃ q, AtRest .cmdr nr true q ∧
      operate .cmdr nr s =
        { endOperation (secondAttempt nr s).1 (secondAttempt nr s).2 with seq := q } := by
  obtain ⟨k, hk, hrun⟩ := seqRun_firstAttempt (op := .cmdr) (.inr rfl) hs.taken h
  have hcur : curOp { (firstAttempt .cmdr nr s).2 with seq := firstAttemptSeq .cmdr nr s .check } =
      .cmdr := accepted_curOp .cmdr nr s
  rw [afterAttempt_retry hfail hcur rfl] at hrun
  obtain ⟨-, -, -, -, hhung⟩ := attempt_keeps nr (buildFrame (accepted .cmdr nr s))
  obtain ⟨k', q', hk', hphase, hopl, hatt, hrun'⟩ :=
    seqRun_retry (s := (firstAttempt .cmdr nr s).2)
      (q := { firstAttemptSeq .cmdr nr s .backoff with
        backoffTimer := (firstAttempt .cmdr nr s).2.cfg.tBackoff })
      (hhung.trans hs.taken) (accepted_curOp .cmdr nr s) (accepted_curNoresp .cmdr nr s) rfl
  have hend := (seqRun_add k k' _).trans ((congrArg (seqRun k') hrun).trans hrun')
  refine ⟨q', ⟨hphase, hopl.trans (cmdOpl_encodeCmd .cmdr nr), hatt⟩, ?_⟩
  rw [operate_ready hs, seqRun_over hend hphase (by simp only [opTransitions]; omega)]
  rfl

/-- CMDR on a block that is ready leaves what its pseudocode leaves (R171, R172, R176). -/
theorem exec_cmdr_runCmdr (nr : Bool) (hs : Ready s) :
    ∃ q, AtRest .cmdr nr (runCmdr nr s).status.retried q ∧
      exec (.cmdr nr) s = .next { runCmdr nr s with seq := q } := by
  rw [exec, execCmdr]
  cases h : badDescriptor nr s with
  | true =>
    have hbad : badCmd (accepted .cmdr nr s) = true := by rw [accepted_badCmd]; exact h
    rw [operate_illegal hs hbad, runCmdr_illegal h]
    exact ⟨_, atRest_accepted .cmdr nr s, rfl⟩
  | false =>
    by_cases hok : (firstAttempt .cmdr nr s).1 = codeOk
    · rw [operate_once hs (.inr rfl) h (.inl hok), runCmdr_once_retried h hok,
        runCmdr_once h hok, hok]
      exact ⟨_, atRest_firstAttempt, rfl⟩
    · obtain ⟨q, hq, hrun⟩ := operate_twice hs h hok
      rw [hrun, runCmdr_twice_retried h hok, runCmdr_twice h hok]
      exact ⟨q, hq, rfl⟩

end

end Sys2Proof.Machine
end

section
/-! PROOFS. The outcomes of a command (42_command.md R172 to R175, R177, R178): the verdict on a response, and
the state that an operation of one attempt leaves in closed form. -/

namespace Sys2Proof.Machine

/-! ## The verdict on a response (R172) -/

section
variable {c : Config} {n : Nat} {rx : List Byte}

theorem verdict_of_length_ne (h : rx.length ≠ n) : verdict c n rx = codeNoResp := if_pos h

/-- The bytes that the checksum of a response of n + 6 bytes covers, by offset and by number. -/
theorem covered_response (rx : List Byte) (n : Nat) :
    (rx.take (n + 6 - 1)).drop 2 = (rx.drop 2).take (n + 3) := by
  rw [List.drop_take]; rfl

theorem verdict_of_badChecksum (hlen : rx.length = n + 6) (hck : c.rxck = true)
    (hbad : rx.getD (n + 6 - 1) 0 ≠ cks8 ((rx.drop 2).take (n + 3))) :
    verdict c (n + 6) rx = codeBadCksum := by
  rw [verdict, if_neg (not_not.mpr hlen), covered_response, if_pos]
  simpa [verify8, hck] using hbad

/-- A response that passes the checks of length and checksum is judged by its error byte. -/
theorem verdict_of_validated (hlen : rx.length = n + 6)
    (hck : c.rxck = true → rx.getD (n + 6 - 1) 0 = cks8 ((rx.drop 2).take (n + 3))) :
    verdict c (n + 6) rx = if rx.getD 4 0 ≠ c.noError then codeDevErr else codeOk := by
  have hpass : (c.rxck && !verify8 ((rx.drop 2).take (n + 3)) (rx.getD (n + 6 - 1) 0)) = false := by
    cases h : c.rxck with
    | false => rfl
    | true => simpa [verify8] using hck h
  rw [verdict, if_neg (not_not.mpr hlen), covered_response, hpass, if_neg Bool.false_ne_true]

theorem verdict_ne_badCksum (h : c.rxck = false) : verdict c n rx ≠ codeBadCksum := by
  simp only [verdict, h, Bool.false_and, Bool.false_eq_true, if_false]
  split_ifs <;> decide

end

/-! ## An attempt on a legal descriptor whose payload is written -/

/-- What the attempt on the built frame leaves, but for the end of the operation: `les` is the LASTERR file. -/
def attempted (op : HostOp) (nr : Bool) (les : List Host.Cell) (s : State) : State :=
  { commandEnd nr 0 les s (accepted op nr s).seq with
    status := { (accepted op nr s).status with
      anom := anomaly (builtFrame s) (echoRead (builtFrame s).length s) } }

theorem endOperation_attempted (op : HostOp) (nr : Bool) (code : BitVec 4) (les : List Host.Cell)
    (s : State) (q : Seq) :
    { endOperation code (attempted op nr les s) with seq := q } = commandEnd nr code les s q := rfl

/-- The LASTERR file after a response with result `code` (R174, R175, R180). -/
def lasterrAfter (code : BitVec 4) (s : State) : List Host.Cell :=
  if code = codeOk ∨ code = codeDevErr then lasterrWith ((response s).getD 4 0) s else s.buf.lasterr

theorem wire_noError {c : Config} (h : c.wire = true) : c.noError = 0x00 := by
  simp only [Config.wire, Bool.and_eq_true, beq_iff_eq] at h
  exact h.1.2

section
variable {nr : Bool} {s : State}

/-- The address of a legal descriptor has an entry in the LASTERR file. -/
theorem LegalDescriptor.devaddr_lt (h : LegalDescriptor nr s) :
    s.regs.devaddr.toNat < s.cfg.naddr := by
  rw [(wire_lasterr (wire_of_legal h.params)).1]
  exact devaddr_of_good h.good

/-- The exchange of the built frame. -/
theorem exchangeFrame_built (op : HostOp) (h : LegalDescriptor nr s) :
    exchangeFrame (buildFrame (accepted op nr s)) =
      (responseRead (builtFrame s).length (if nr then 0 else expected s) s,
        attempted op nr s.buf.lasterr s) := by
  rw [buildFrame_eq h, exchangeFrame_eq (readFrame_built nr s _ _)]
  dsimp only
  rw [builtState_xexp]
  rfl

theorem firstAttempt_noresp (op : HostOp) (h : LegalDescriptor true s) :
    firstAttempt op true s = (codeOk, attempted op true s.buf.lasterr s) := by
  rw [firstAttempt, attempt_noresp, exchangeFrame_built op h]

/-- The frame of the descriptor is what the first response read waits behind. -/
theorem responseRead_builtFrame (s : State) :
    responseRead (builtFrame s).length (expected s) s = response s := by
  rw [builtFrame_length, response]

theorem noteError_attempted (op : HostOp) (h : LegalDescriptor false s) (code : BitVec 4) :
    noteError code (response s) (attempted op false s.buf.lasterr s) =
      attempted op false (lasterrAfter code s) s := by
  rw [noteError, lasterrAfter]
  split_ifs
  · exact if_pos h.devaddr_lt
  · rfl

theorem firstAttempt_response (op : HostOp) (h : LegalDescriptor false s) :
    firstAttempt op false s =
      (firstVerdict s, attempted op false (lasterrAfter (firstVerdict s) s) s) := by
  have hexp : (buildFrame (accepted op false s)).regs.xexp.toNat = expected s := by
    rw [buildFrame_eq h]; exact builtState_xexp false s
  rw [firstAttempt, attempt_eq, hexp, exchangeFrame_built op h, if_neg Bool.false_ne_true,
    responseRead_builtFrame, ← noteError_attempted op h]
  rfl

theorem firstAttempt_code (op : HostOp) (h : LegalDescriptor false s) :
    (firstAttempt op false s).1 = firstVerdict s := by rw [firstAttempt_response op h]

/-! ## CMD and CMDR in closed form -/

theorem exec_cmd_noresp (hs : Ready s) (h : LegalDescriptor true s) :
    ∃ q, AtRest .cmd true false q ∧
      exec (.cmd true) s = .next (commandEnd true codeOk s.buf.lasterr s q) := by
  obtain ⟨q, hq, hrun⟩ := exec_cmd_runCmd true hs
  rw [runCmd_legal h.good, firstAttempt_noresp .cmd h, endOperation_attempted] at hrun
  exact ⟨q, hq, hrun⟩

theorem exec_cmdr_noresp (hs : Ready s) (h : LegalDescriptor true s) :
    ∃ q, AtRest .cmdr true false q ∧
      exec (.cmdr true) s = .next (commandEnd true codeOk s.buf.lasterr s q) := by
  have hok : (firstAttempt .cmdr true s).1 = codeOk := by rw [firstAttempt_noresp .cmdr h]
  obtain ⟨q, hq, hrun⟩ := exec_cmdr_runCmdr true hs
  rw [runCmdr_once h.good hok, firstAttempt_noresp .cmdr h] at hq hrun
  exact ⟨q, hq, hrun⟩

/-- CMD ends with the verdict on its response (R172). -/
theorem exec_cmd_response (hs : Ready s) (h : LegalDescriptor false s) :
    ∃ q, AtRest .cmd false false q ∧
      exec (.cmd false) s =
        .next (commandEnd false (firstVerdict s) (lasterrAfter (firstVerdict s) s) s q) := by
  obtain ⟨q, hq, hrun⟩ := exec_cmd_runCmd false hs
  rw [runCmd_legal h.good, firstAttempt_response .cmd h, endOperation_attempted] at hrun
  exact ⟨q, hq, hrun⟩

/-- CMDR whose first attempt succeeds ends as CMD does (R171, R175). -/
theorem exec_cmdr_ok (hs : Ready s) (h : LegalDescriptor false s) (hok : firstVerdict s = codeOk) :
    ∃ q, AtRest .cmdr false false q ∧
      exec (.cmdr false) s = .next (commandEnd false codeOk (lasterrAfter codeOk s) s q) := by
  have hfirst := firstAttempt_response .cmdr h
  rw [hok] at hfirst
  obtain ⟨q, hq, hrun⟩ := exec_cmdr_runCmdr false hs
  rw [runCmdr_once h.good (by rw [hfirst]), hfirst] at hq hrun
  exact ⟨q, hq, hrun⟩

/-- CMDR whose first attempt fails makes a second one (R176). -/
theorem exec_cmdr_retried (hs : Ready s) (h : LegalDescriptor false s)
    (hfail : firstVerdict s ≠ codeOk) :
    ∃ t, exec (.cmdr false) s = .next t ∧ t.status.retried = true := by
  rw [← firstAttempt_code .cmdr h] at hfail
  obtain ⟨q, -, hrun⟩ := exec_cmdr_runCmdr false hs
  exact ⟨_, hrun, runCmdr_twice_retried h.good hfail⟩

/-! ## The files after a command -/

/-- Of the LASTERR entries a validated response changes the addressed device's alone. -/
theorem lastErr_commandEnd (h : LegalDescriptor nr s) (hf : FilesWf s) (code : BitVec 4) (e : Byte)
    (q : Seq) (b : Nat) :
    lastErr (commandEnd nr code (lasterrWith e s) s q) b =
      if b = s.regs.devaddr.toNat then e else lastErr s b := by
  rw [← lastErr_setLastErr hf h.devaddr_lt, setLastErr, if_pos h.devaddr_lt]
  rfl

/-- The response stands in RXBUF from entry 0 (10_state.md R46). -/
theorem find_commandEnd_rxbuf (code : BitVec 4) (les : List Host.Cell) (s : State) (q : Seq)
    {j : Nat} (hj : j < (response s).length) :
    Memory.find (commandEnd false code les s q).buf.rxbuf j = (response s)[j]? := by
  show Memory.find (Memory.writeSeq s.buf.rxbuf 0
    (responseRead (builtFrame s).length (expected s) s)) j = _
  rw [responseRead_builtFrame, Memory.find_writeSeq, if_pos (by omega), Nat.sub_zero]

/-- The conditions of R174 and R175: the response is validated, and its error byte decides. -/
theorem firstVerdict_of_validated (h : LegalDescriptor nr s)
    (hlen : (response s).length = expected s)
    (hck : s.cfg.rxck = true →
      (response s).getD (expected s - 1) 0 =
        cks8 (((response s).drop 2).take (s.regs.explen.toNat + 3))) :
    firstVerdict s = if (response s).getD 4 0 ≠ 0x00 then codeDevErr else codeOk := by
  rw [firstVerdict, expected, verdict_of_validated hlen hck, wire_noError (wire_of_legal h.params)]

end

/-! ## The statements -/

/-- Settles O29: with NORESP the first attempt is OK without a look at RXBUF, so CMDR makes no other. -/
theorem noResponseRequested : Obligations.NoResponseRequested := by
  refine fun s hs h => ⟨exec_cmd_noresp hs h, exec_cmdr_noresp hs h, fun q => ⟨?rxlen, ?rxbuf⟩⟩
  case rxlen => simp [commandEnd]
  case rxbuf => simp [commandEnd, Memory.writeSeq]

/-- Settles O30: the length is the first check, and a read never returns more than it asks for. -/
theorem shortResponse : Obligations.ShortResponse := by
  intro s hs h hlen
  have hv : firstVerdict s = codeNoResp := verdict_of_length_ne hlen
  have hcmd := exec_cmd_response hs h
  rw [hv] at hcmd
  exact ⟨hcmd, (responseRead_length_le _ _ s).lt_of_ne hlen,
    exec_cmdr_retried hs h (by rw [hv]; decide)⟩

/-- Settles O31: the checksum is looked at only with RXCK, and only in a response of the right length. -/
theorem badChecksum : Obligations.BadChecksum := by
  refine fun s hs h => ⟨fun hlen hck hbad => ?checked, fun hck => ?unchecked⟩
  case checked =>
    have hv : firstVerdict s = codeBadCksum := verdict_of_badChecksum hlen hck hbad
    have hcmd := exec_cmd_response hs h
    rw [hv] at hcmd
    exact ⟨hcmd, exec_cmdr_retried hs h (by rw [hv]; decide)⟩
  case unchecked =>
    obtain ⟨q, -, hrun⟩ := exec_cmd_response hs h
    exact ⟨_, hrun, verdict_ne_badCksum hck⟩

/-- Settles O32: the validated response is judged by its error byte, which its LASTERR entry takes. -/
theorem deviceError : Obligations.DeviceError := by
  intro s hs h hf hlen hck herr
  have hv : firstVerdict s = codeDevErr := by rw [firstVerdict_of_validated h hlen hck, if_pos herr]
  obtain ⟨q, hq, hrun⟩ := exec_cmd_response hs h
  rw [hv] at hrun
  refine ⟨_, q, hrun, hq, rfl, ?entry, fun b hb => ?others, fun j hj => ?packet⟩
  case entry => exact (lastErr_commandEnd h hf _ _ q _).trans (if_pos rfl)
  case others => exact (lastErr_commandEnd h hf _ _ q b).trans (if_neg hb)
  case packet => exact find_commandEnd_rxbuf _ _ s q (by rw [hlen]; exact hj)

/-- Settles O33: as for a device error, with the error byte 0; the first attempt of CMDR succeeds as well. -/
theorem commandSuccess : Obligations.CommandSuccess := by
  intro s hs h hf hlen hck hok
  have hv : firstVerdict s = codeOk := by
    rw [firstVerdict_of_validated h hlen hck, if_neg (not_not.mpr hok)]
  have hles : lasterrAfter codeOk s = lasterrWith 0x00 s := by rw [← hok]; exact if_pos (.inl rfl)
  obtain ⟨q, hq, hrun⟩ := exec_cmd_response hs h
  have hcmdr := exec_cmdr_ok hs h hv
  rw [hv, hles] at hrun
  rw [hles] at hcmdr
  have hpacket : ∀ j < expected s,
      Memory.find (commandEnd false 0 (lasterrWith 0x00 s) s q).buf.rxbuf j = (response s)[j]? :=
    fun j hj => find_commandEnd_rxbuf _ _ s q (by rw [hlen]; exact hj)
  refine ⟨_, q, hrun, hq, rfl, ?entry, fun b hb => ?others, hpacket, fun k hk => ?payload, hcmdr⟩
  case entry => exact (lastErr_commandEnd h hf _ _ q _).trans (if_pos rfl)
  case others => exact (lastErr_commandEnd h hf _ _ q b).trans (if_neg hb)
  case payload => exact hpacket (5 + k) (by rw [expected]; omega)

end Sys2Proof.Machine
end

section
/-! PROOFS. How often an attempt runs (42_command.md R179), counted in transport events: an exchange is one
write and one or two reads, and an operation makes no exchange, one, or with a retry two. -/

namespace Sys2Proof.Machine

/-! ## Counting -/

theorem countWrites_append (es fs : List Event) :
    countWrites (es ++ fs) = countWrites es + countWrites fs := by
  induction es with
  | nil => simp [countWrites]
  | cons e es ih => cases e <;> simp [countWrites, ih, Nat.add_right_comm]

theorem countReads_append (es fs : List Event) :
    countReads (es ++ fs) = countReads es + countReads fs := by
  induction es with
  | nil => simp [countReads]
  | cons e es ih => cases e <;> simp [countReads, ih, Nat.add_right_comm]

/-! ## The events of one exchange -/

/-- What the exchange of the frame in TXF adds to the record of transport events. -/
def frameEvents (s : State) : List Event := exchangeEvents (readFrame s).1 s.regs.xexp.toNat s

theorem exchangeFrame_bus (s : State) :
    (exchangeFrame s).2.bus = busAfter (readFrame s).1 s.regs.xexp.toNat s := by
  simp only [exchangeFrame, exchange_eq]
  rfl

theorem attempt_bus (nr : Bool) (s : State) :
    (attempt nr s).2.bus = busAfter (readFrame s).1 s.regs.xexp.toNat s := by
  rw [← exchangeFrame_bus]
  cases nr with
  | true => rfl
  | false => rw [attempt_eq, noteError_eq]

theorem exchangeFrame_trace (s : State) :
    (exchangeFrame s).2.bus.trace = s.bus.trace ++ frameEvents s := by
  rw [exchangeFrame_bus]; rfl

theorem attempt_trace (nr : Bool) (s : State) :
    (attempt nr s).2.bus.trace = s.bus.trace ++ frameEvents s := by
  rw [attempt_bus]; rfl

theorem countWrites_frameEvents (s : State) : countWrites (frameEvents s) = 1 := by
  rw [frameEvents, exchangeEvents]
  split_ifs <;> rfl

/-- One read for the echo, and one for the response if one is expected. -/
theorem countReads_frameEvents (s : State) :
    countReads (frameEvents s) = if s.regs.xexp = 0 then 1 else 2 := by
  have hzero : s.regs.xexp.toNat = 0 ↔ s.regs.xexp = 0 := BitVec.toNat_inj (y := 0)
  rw [frameEvents, exchangeEvents]
  simp only [hzero]
  split_ifs <;> rfl

/-! ## The events of an attempt -/

section
variable {op : HostOp} {nr : Bool} {s : State}

/-- Only NORESP makes BUILD write 0 to XEXP: a response has OVH bytes at least. -/
theorem respLen_eq_zero {c : Config} (hw : c.wire = true) (explen : Byte) :
    respLen c nr explen = 0 ↔ nr = true := by
  rw [← BitVec.toNat_inj, respLen_toNat (wire_packet hw).2.2]
  cases nr <;> simp

theorem buildFrame_xexp :
    (buildFrame (accepted op nr s)).regs.xexp = respLen s.cfg nr s.regs.explen := by
  show respLen s.cfg (curNoresp (accepted op nr s)) s.regs.explen = _
  rw [accepted_curNoresp]

theorem retriedState_xexp : (retriedState nr s).regs.xexp = respLen s.cfg nr s.regs.explen :=
  (attempt_xexp nr _).trans buildFrame_xexp

theorem countReads_firstAttempt (hw : s.cfg.wire = true) :
    countReads (frameEvents (buildFrame (accepted op nr s))) = if nr then 1 else 2 := by
  simp only [countReads_frameEvents, buildFrame_xexp, respLen_eq_zero hw]

theorem countReads_secondAttempt (hw : s.cfg.wire = true) :
    countReads (frameEvents (retriedState nr s)) = if nr then 1 else 2 := by
  simp only [countReads_frameEvents, retriedState_xexp, respLen_eq_zero hw]

/-! ## The events of CMD and CMDR -/

theorem firstAttempt_trace :
    (firstAttempt op nr s).2.bus.trace =
      s.bus.trace ++ frameEvents (buildFrame (accepted op nr s)) := attempt_trace nr _

theorem runCmd_legal_trace (h : badDescriptor nr s = false) :
    (runCmd nr s).bus.trace = s.bus.trace ++ frameEvents (buildFrame (accepted .cmd nr s)) := by
  rw [runCmd_legal h, endOperation_bus, firstAttempt_trace]

/-- What CMDR of a legal descriptor adds to the record: one exchange, and the delay and another exchange when
the first attempt fails (R176). -/
def cmdrEvents (nr : Bool) (s : State) : List Event :=
  frameEvents (buildFrame (accepted .cmdr nr s)) ++
    if (firstAttempt .cmdr nr s).1 = codeOk then []
    else .delay (firstAttempt .cmdr nr s).2.cfg.tBackoff :: frameEvents (retriedState nr s)

theorem runCmdr_legal_trace (h : badDescriptor nr s = false) :
    (runCmdr nr s).bus.trace = s.bus.trace ++ cmdrEvents nr s := by
  rw [cmdrEvents]
  split_ifs with hok
  · rw [runCmdr_once h hok, endOperation_bus, firstAttempt_trace, List.append_nil]
  · have hbackoff : (retriedState nr s).bus.trace = (firstAttempt .cmdr nr s).2.bus.trace ++
        [.delay (firstAttempt .cmdr nr s).2.cfg.tBackoff] := rfl
    rw [runCmdr_twice h hok, endOperation_bus, secondAttempt, attempt_trace, hbackoff,
      firstAttempt_trace]
    simp only [List.append_assoc, List.singleton_append]

/-- One write an attempt, so RETRIED tells the number. -/
theorem countWrites_cmdrEvents (h : badDescriptor nr s = false) :
    countWrites (cmdrEvents nr s) = if (runCmdr nr s).status.retried then 2 else 1 := by
  rw [cmdrEvents, countWrites_append, countWrites_frameEvents]
  split_ifs with hok hret hret
  · exact absurd (runCmdr_once_retried h hok) (by rw [hret]; decide)
  · rfl
  · rw [countWrites, countWrites_frameEvents]
  · exact absurd (runCmdr_twice_retried h hok) hret

/-- Every attempt reads as often as the first. -/
theorem countReads_cmdrEvents (hw : s.cfg.wire = true) :
    countReads (cmdrEvents nr s) = (if nr then 1 else 2) * countWrites (cmdrEvents nr s) := by
  rw [cmdrEvents, countWrites_append, countReads_append, countWrites_frameEvents,
    countReads_firstAttempt hw]
  by_cases hok : (firstAttempt .cmdr nr s).1 = codeOk
  · rw [if_pos hok, countReads, countWrites, Nat.mul_one, Nat.add_zero]
  · rw [if_neg hok, countReads, countWrites, countReads_secondAttempt hw, countWrites_frameEvents,
      Nat.mul_two]

/-! ## The second attempt on a legal descriptor whose payload is written -/

/-- TXF, XLEN and the counter of free values stand as BUILD left them, so the second attempt sends the frame
again. -/
theorem readFrame_retriedState (h : LegalDescriptor false s) :
    readFrame (retriedState false s) = (builtFrame s, (retriedState false s).draws) := by
  rw [retriedState, firstAttempt_response .cmdr h]
  exact readFrame_built false s Status.reset Seq.reset

/-- The second attempt ends with the verdict on what the first left on the transport (R176). -/
theorem secondAttempt_code (h : LegalDescriptor false s) :
    (secondAttempt false s).1 = firstVerdict (afterFirst s) := by
  have hexp : (retriedState false s).regs.xexp.toNat = expected s := by
    rw [retriedState, firstAttempt_response .cmdr h]; exact builtState_xexp false s
  have hbus : responseRead (s.regs.plen.toNat + 6) (expected s) (retriedState false s) =
      response (afterFirst s) := by
    rw [retriedState, firstAttempt_response .cmdr h]; rfl
  have hcfg : (retriedState false s).cfg = s.cfg := by
    rw [retriedState, firstAttempt_response .cmdr h]; rfl
  rw [secondAttempt, attempt_eq, exchangeFrame_eq (readFrame_retriedState h), hexp,
    builtFrame_length, hbus, hcfg]
  rfl

/-! ## What the claim says of each operation -/

theorem cmdr_events (hs : Ready s) (hw : s.cfg.wire = true) :
    ∃ t evs, exec (.cmdr nr) s = .next t ∧ t.bus.trace = s.bus.trace ++ evs ∧
      (badDescriptor nr s = true → evs = []) ∧
      (badDescriptor nr s = false →
        (countWrites evs = 1 ∨ countWrites evs = 2) ∧
        countReads evs = (if nr then 1 else 2) * countWrites evs ∧
        (countWrites evs = 2 ↔ t.status.retried = true)) ∧
      (LegalDescriptor false s → nr = false → firstVerdict s ≠ 0 →
        countWrites evs = 2 ∧ t.status.code = firstVerdict (afterFirst s)) := by
  obtain ⟨q, -, hrun⟩ := exec_cmdr_runCmdr nr hs
  cases h : badDescriptor nr s with
  | true =>
    refine ⟨_, [], hrun, ?trace, fun _ => rfl, nofun, fun hl hnr => ?legal⟩
    case trace => simp [runCmdr_illegal h, accepted]
    case legal => subst hnr; exact absurd (h.symm.trans hl.good) (by decide)
  | false =>
    have hwrites := countWrites_cmdrEvents h
    refine ⟨_, cmdrEvents nr s, hrun, runCmdr_legal_trace h, nofun,
      fun _ => ⟨?oneOrTwo, countReads_cmdrEvents hw, ?retried⟩, fun hl hnr hfail => ?second⟩
    case oneOrTwo => rw [hwrites]; split_ifs <;> simp
    case retried => simp [hwrites]
    case second =>
      subst hnr
      rw [← firstAttempt_code .cmdr hl] at hfail
      refine ⟨by rw [hwrites, runCmdr_twice_retried h hfail]; rfl, ?_⟩
      show (runCmdr false s).status.code = _
      rw [runCmdr_twice h hfail, endOperation_status, secondAttempt_code hl]

theorem cmd_events (hs : Ready s) (hw : s.cfg.wire = true) :
    ∃ t evs, exec (.cmd nr) s = .next t ∧ t.bus.trace = s.bus.trace ++ evs ∧
      (badDescriptor nr s = true → evs = []) ∧
      (badDescriptor nr s = false →
        countWrites evs = 1 ∧ countReads evs = if nr then 1 else 2) := by
  obtain ⟨q, -, hrun⟩ := exec_cmd_runCmd nr hs
  cases h : badDescriptor nr s with
  | true => exact ⟨_, [], hrun, by simp [runCmd_illegal h, accepted], fun _ => rfl, nofun⟩
  | false =>
    exact ⟨_, _, hrun, runCmd_legal_trace h, nofun,
      fun _ => ⟨countWrites_frameEvents _, countReads_firstAttempt hw⟩⟩

theorem xchg_events (hs : Ready s) :
    ∃ t evs, exec (.xchg nr) s = .next t ∧ t.bus.trace = s.bus.trace ++ evs ∧
      (badLengths s = true → evs = []) ∧
      (badLengths s = false →
        countWrites evs = 1 ∧ countReads evs = if s.regs.xexp = 0 then 1 else 2) := by
  cases h : badLengths s with
  | true =>
    have hbad : badCmd (accepted .xchg nr s) = true := by rw [accepted_badCmd]; exact h
    rw [exec, execXchg, operate_illegal hs hbad]
    exact ⟨_, [], rfl, (List.append_nil _).symm, fun _ => rfl, nofun⟩
  | false =>
    exact ⟨_, _, exec_xchg_legal hs h, exchangeFrame_trace (accepted .xchg nr s), nofun,
      fun _ => ⟨countWrites_frameEvents _, countReads_frameEvents _⟩⟩

theorem cks_events (hs : Ready s) : ∃ t, exec (.cks nr) s = .next t ∧ t.bus.trace = s.bus.trace := by
  cases h : badDescriptor nr s with
  | true => exact ⟨_, exec_cks_illegal hs h, rfl⟩
  | false => exact ⟨_, exec_cks_legal hs h, rfl⟩

end

/-- Settles O35: each operation's events are those of its exchanges, and a retry adds one exchange. -/
theorem attemptCount : Obligations.AttemptCount :=
  fun _ _ hs hw => ⟨cmdr_events hs hw, cmd_events hs hw, xchg_events hs, cks_events hs⟩

end Sys2Proof.Machine
end

section
/-! PROOFS. The named accessors (43_bus_instructions.md R213 to R217, Table 43-1): the width of a name decides
which read GET is, and with it which write SET is. -/

namespace Sys2Proof.Machine

/-! ## GET and SET by width -/

@[simp] theorem rd1_ne_rd2 (a r : Byte) : rd1 a r ≠ rd2 a r := by simp [rd1, rd2]

theorem getInstr_eq_rd2_iff (n : DevReg) (a : Byte) : getInstr n a = rd2 a n.addr ↔ n.wide = true := by
  rw [getInstr]
  split <;> simp [*]

theorem wr1_eq (a r : Byte) (v : Nat) :
    wr1 a r v = if v ≤ 0xFF then some (.write1 a r (BitVec.ofNat 8 v)) else none := by
  simp only [wr1, Nat.lt_succ_iff]

theorem wr2_eq (a r : Byte) (v : Nat) :
    wr2 a r v = if v ≤ 0xFFFF then some (.write2 a r (BitVec.ofNat 16 v)) else none := by
  simp only [wr2, Nat.lt_succ_iff]

/-- SET writes two bytes exactly where GET reads two. -/
theorem setInstr_eq_of_getInstr (n : DevReg) (a : Byte) (v : Nat) :
    setInstr n a v = if getInstr n a = rd2 a n.addr then wr2 a n.addr v else wr1 a n.addr v := by
  simp only [setInstr, getInstr_eq_rd2_iff]

/-! ## The rows of Table 43-1 -/

/-- Settles O50: GET is the table read off at each name; SET follows GET's width, and its ranges are those of WR1
and WR2. -/
theorem namedAccessors : Obligations.NamedAccessors := by
  refine ⟨fun a => ?rows, fun n a v => ?set⟩
  case rows => exact ⟨rfl, rfl, rfl, rfl, rfl, rfl, rfl, rfl, rfl, rfl, rfl, rfl, rfl⟩
  case set => rw [setInstr_eq_of_getInstr, wr1_eq, wr2_eq, rd2]

end Sys2Proof.Machine
end

section
/-! PROOFS. Reset (70_reset_and_hazards.md R280, R281): the step that samples `rst` high, the LASTERR file after
it, and the output pins. -/

namespace Sys2Proof.Machine

/-- A step that samples `rst` high is the reset of the block: no pending input is taken. -/
theorem step_of_rst_high {s : State} {ps : List Bool} (h : s.io.rstPin = true :: ps) :
    step s = .next (resetBlock { s with io.rstPin := ps }) := by
  rw [step, stepOnce, h]

/-- After reset no LASTERR entry is listed, so every address reads as NO_STATUS (10_state.md R43). -/
theorem lastErr_resetBlock (s : State) (a : Nat) : lastErr (resetBlock s) a = s.cfg.noStatus := by
  by_cases ha : a < s.cfg.naddr
  · exact lastErr_of_entry (s := resetBlock s) ha
  · exact lastErr_of_no_entry (s := resetBlock s) (Nat.le_of_not_lt ha)

/-- In IDLE the block offers the transport no byte and asks it for none (10_state.md R39). -/
theorem transportPins_idle {s : State} (h : s.seq.phase = .idle) :
    txValidPin s = false ∧ rdReqPin s = false ∧ rxReadyPin s = false := by
  simp [txValidPin, rdReqPin, rxReadyPin, h]

/-- Settles O56: the step is `resetBlock`, whose fields are Table 10-2; BUSY = 0 and PHASE = IDLE keep the pins low
and the block at rest. -/
theorem resetStep : Obligations.ResetStep := by
  intro s ps h
  obtain ⟨htx, hrd, hrx⟩ := transportPins_idle (s := resetBlock { s with io.rstPin := ps }) rfl
  refine ⟨_, step_of_rst_high h, fun hw a _ => ?lasterr, rfl, rfl, rfl, rfl, rfl, rfl, rfl, rfl, rfl,
    fun _ => ⟨rfl, rfl, rfl⟩, rfl, rfl, htx, hrd, hrx, rfl, advance_idle rfl⟩
  case lasterr => rw [lastErr_resetBlock, (wire_lasterr hw).2]

end Sys2Proof.Machine
end

section
/-! PROOFS. The encoding (30_encoding.md): the CMD words of the four host operations, the packets that the decoder
takes, and that decoding and encoding are inverse to each other. -/

namespace Sys2Proof.Machine

/-! ## The CMD word (Table 30-5) -/

/-- The instruction of a host operation. -/
def HostOp.instr : HostOp → Bool → Instr
  | .xchg, nr => .xchg nr
  | .cmd, nr => .cmd nr
  | .cmdr, nr => .cmdr nr
  | .cks, nr => .cks nr

theorem HostOp.instr_wellFormed (op : HostOp) (nr : Bool) : (op.instr nr).wellFormed = true := by
  cases op <;> rfl

theorem encode_hostOp (op : HostOp) (nr : Bool) :
    encode (op.instr nr) = .cmdWord (encodeCmd op.bits nr) := by cases op <;> rfl

theorem decodeCmd_encodeCmd (op : HostOp) (nr : Bool) :
    decodeCmd (encodeCmd op.bits nr) = .instr (op.instr nr) := by
  cases op <;> cases nr <;> rfl

theorem HostOp.bits_surjective (b : BitVec 2) : ∃ op : HostOp, op.bits = b := by
  have hall : ∀ b : BitVec 2, (HostOp.ofBits b).bits = b := by decide
  exact ⟨_, hall b⟩

/-- A word is its four fields: GO, the reserved bits, NORESP, OP. -/
theorem cmdWord_fields (w : Word) :
    w = w.extractLsb' 15 1 ++ w.extractLsb' 3 12 ++ w.extractLsb' 2 1 ++ w.extractLsb' 0 2 := by
  apply BitVec.eq_of_toNat_eq
  have := w.isLt
  simp only [BitVec.toNat_append, BitVec.extractLsb'_toNat, Nat.shiftRight_eq_div_pow]
  rw [← Nat.shiftLeft_add_eq_or_of_lt (by omega), ← Nat.shiftLeft_add_eq_or_of_lt (by omega),
    ← Nat.shiftLeft_add_eq_or_of_lt (by omega)]
  simp only [Nat.shiftLeft_eq]
  omega

/-- Every word with GO and without a reserved bit is the word of an operation: OP has no unassigned value. -/
theorem exists_encodeCmd {w : Word} (hgo : cmdGo w = true) (hres : cmdReserved w = false) :
    ∃ (op : HostOp) (nr : Bool), w = encodeCmd op.bits nr := by
  have hgo' : w.extractLsb' 15 1 = 1#1 := by
    apply BitVec.eq_of_getLsbD_eq; intro i hi
    obtain rfl : i = 0 := by omega
    simpa [cmdGo] using hgo
  have hres' : w.extractLsb' 3 12 = 0#12 := by simpa [cmdReserved] using hres
  have hnr : w.extractLsb' 2 1 = BitVec.ofBool (w.getLsbD 2) := by
    apply BitVec.eq_of_getLsbD_eq; intro i hi
    obtain rfl : i = 0 := by omega
    simp
  obtain ⟨op, hop⟩ := HostOp.bits_surjective (w.extractLsb' 0 2)
  refine ⟨op, w.getLsbD 2, ?_⟩
  rw [encodeCmd, hop, ← hgo', ← hres', ← hnr]
  exact cmdWord_fields w

theorem decodeCmd_of_not_go {w : Word} (h : cmdGo w = false) : decodeCmd w = .reject .notGo :=
  if_pos h

theorem decodeCmd_of_reserved {w : Word} (hgo : cmdGo w = true) (hres : cmdReserved w = true) :
    decodeCmd w = .reject .reservedBits := by simp [decodeCmd, hgo, hres]

/-- The mask of Table 30-5 leaves GO and the reserved bits. -/
theorem cmdGo_mask (w : Word) : cmdGo (w &&& 0xFFFB) = cmdGo w := by simp [cmdGo]

theorem cmdReserved_mask (w : Word) : cmdReserved (w &&& 0xFFFB) = cmdReserved w := by
  have h : (w &&& 0xFFFB).extractLsb' 3 12 = w.extractLsb' 3 12 := by
    rw [BitVec.extractLsb'_and]
    exact BitVec.and_allOnes
  simp only [cmdReserved, h]

/-- No word without GO, or with a reserved bit, has the match of an operation. -/
theorem mask_ne_match {w : Word} (h : cmdGo w = false ∨ cmdReserved w = true) :
    w &&& 0xFFFB ≠ 0x8000 ∧ w &&& 0xFFFB ≠ 0x8001 ∧ w &&& 0xFFFB ≠ 0x8002 ∧
      w &&& 0xFFFB ≠ 0x8003 := by
  rw [← cmdGo_mask, ← cmdReserved_mask] at h
  refine ⟨?_, ?_, ?_, ?_⟩ <;> (intro hm; rw [hm] at h; revert h; decide)

/-- Settles O4: a word is without GO, or has a reserved bit, or is one of the eight words of the operations. -/
theorem hostWordsByMask : Obligations.HostWordsByMask := by
  intro w
  show decodeCmd w = _
  cases hgo : cmdGo w with
  | false =>
    obtain ⟨h0, h1, h2, h3⟩ := mask_ne_match (.inl hgo)
    have hbit : w.getLsbD 15 = false := hgo
    rw [decodeCmd_of_not_go hgo, if_neg h0, if_neg h1, if_neg h2, if_neg h3, hbit,
      if_neg Bool.false_ne_true]
  | true =>
    cases hres : cmdReserved w with
    | true =>
      obtain ⟨h0, h1, h2, h3⟩ := mask_ne_match (.inr hres)
      have hbit : w.getLsbD 15 = true := hgo
      rw [decodeCmd_of_reserved hgo hres, if_neg h0, if_neg h1, if_neg h2, if_neg h3, if_pos hbit]
    | false =>
      obtain ⟨op, nr, rfl⟩ := exists_encodeCmd hgo hres
      rw [decodeCmd_encodeCmd]
      cases op <;> cases nr <;> rfl

/-! ## Packets -/

/-- A packet that decodes is a frame, of an address on the bus and a payload that its LEN byte counts. -/
theorem exists_frame_of_decodePacket {bs : List Byte} {x : Instr} (h : decodePacket bs = .instr x) :
    ∃ a i p, bs = frame a i p ∧ p.length ≤ 253 ∧ busAddress a = true ∧
      decodeBody a i p = .instr x := by
  unfold decodePacket at h
  split at h
  · next m0 m1 a l i c body =>
    split_ifs at h with hmark hlen hck haddr
    obtain ⟨rfl, rfl⟩ := not_or.mp hmark |>.imp not_not.mp not_not.mp
    rw [not_not] at hlen
    rw [Bool.not_eq_false] at hck haddr
    have hl := l.isLt
    have hsplit : (c :: body).dropLast ++ [(c :: body).getLastD 0] = c :: body := by
      rw [List.getLastD_cons, ← List.getLast_eq_getLastD (h := List.cons_ne_nil c body),
        List.dropLast_concat_getLast]
    have hp : (c :: body).dropLast.length = body.length := by simp
    have hlb : l = lenByte (c :: body).dropLast.length := by
      apply BitVec.eq_of_toNat_eq
      rw [hp, lenByte_toNat (by omega), hlen]
    have hcks := beq_iff_eq.mp hck
    refine ⟨a, i, (c :: body).dropLast, ?_, by omega, haddr, h⟩
    rw [hlb] at hcks ⊢
    simp only [frame, framed, covered]
    rw [← hcks, ← hsplit]
    simp
  · cases h

/-- What a packet's fields decode to is well-formed, and they are the fields of its encoding. -/
theorem encode_of_decodeBody {a i : Byte} {p : List Byte} {x : Instr} (ha : busAddress a = true)
    (hp : p.length ≤ 253) (h : decodeBody a i p = .instr x) :
    x.wellFormed = true ∧ encode x = .packet (frame a i p) := by
  unfold decodeBody at h
  split_ifs at h with h1 h2 h3 h4 h5 h6 h7
  · unfold decodePing at h
    split at h
    · split_ifs at h with haddr; cases h; exact ⟨haddr, by rw [h1]; rfl⟩
    · cases h
  · unfold decodeRead at h
    split at h
    · split_ifs at h with haddr; cases h; exact ⟨haddr, by rw [h2]; rfl⟩
    all_goals cases h
  · unfold decodeWrite at h
    split at h
    · cases h
    · cases h
    · cases h; exact ⟨ha, by rw [h3]; rfl⟩
    · cases h; exact ⟨ha, by rw [h3]; simp [encode]⟩
    · cases h
      simp only [List.length_cons] at hp
      refine ⟨?_, by rw [h3]; rfl⟩
      simp only [Instr.wellFormed, ha, Bool.true_and, Bool.and_eq_true, decide_eq_true_eq,
        List.length_cons]
      omega
  all_goals
    cases h
    simp [Instr.wellFormed, payloadFits, encode, *]

theorem decode_frame {a i : Byte} {p : List Byte} (ha : busAddress a = true) (hp : p.length ≤ 253) :
    decode (.packet (frame a i p)) = decodeBody a i p := decodePacket_frame a i p hp ha

/-- The addresses that answer are addresses of the bus. -/
theorem busAddress_of_answering {a : Byte} (h : answeringAddress a = true) : busAddress a = true := by
  simp only [answeringAddress, busAddress, decide_eq_true_eq] at h ⊢
  omega

/-- A payload of at least three data bytes is that of WRITE. -/
theorem decodeWrite_long (a r : Byte) {ds : List Byte} (h : 3 ≤ ds.length) :
    decodeWrite a (r :: ds) = .instr (.write a r ds) := by
  match ds, h with
  | d0 :: d1 :: d2 :: ds, _ => rfl

/-! ## Decoding and encoding -/

/-- Settles O1: family by family; a packet's frame decodes to its fields, and those name the instruction. -/
theorem decodeEncodeRoundTrip : Obligations.DecodeEncodeRoundTrip := by
  intro i h
  cases i with
  | xchg nr => exact decodeCmd_encodeCmd .xchg nr
  | cmd nr => exact decodeCmd_encodeCmd .cmd nr
  | cmdr nr => exact decodeCmd_encodeCmd .cmdr nr
  | cks nr => exact decodeCmd_encodeCmd .cks nr
  | ckClr en d => exact decode_encodeCk true en d
  | ckAdd d => exact decode_encodeCk false true d
  | ckHold d => exact decode_encodeCk false false d
  | ping a =>
    rw [encode, decode_frame (busAddress_of_answering h) (by simp)]
    exact if_pos h
  | read a r n =>
    rw [encode, decode_frame (busAddress_of_answering h) (by simp)]
    exact if_pos h
  | write a r ds =>
    simp only [Instr.wellFormed, Bool.and_eq_true, decide_eq_true_eq] at h
    obtain ⟨⟨ha, hmin⟩, hmax⟩ := h
    rw [encode, decode_frame ha (by simp; omega)]
    exact decodeWrite_long a r hmin
  | write1 a r v => rw [encode, decode_frame h (by simp)]; rfl
  | write2 a r v =>
    rw [encode, decode_frame h (by simp)]
    show Decoded.instr (.write2 a r (join16 (lowByte v) (highByte v))) = _
    rw [join16_split]
  | regWrite a p | action a p | resetDevice a p | syncWrite a p =>
    simp only [Instr.wellFormed, payloadFits, Bool.and_eq_true, decide_eq_true_eq] at h
    rw [encode, decode_frame h.1 h.2]
    rfl

/-- Settles O2: each form that decodes is written as an encoding, and its fields are those of the instruction. -/
theorem decodedIsEncoded : Obligations.DecodedIsEncoded := by
  intro f i h
  cases f with
  | cmdWord w =>
    replace h : decodeCmd w = .instr i := h
    cases hgo : cmdGo w with
    | false => rw [decodeCmd_of_not_go hgo] at h; cases h
    | true =>
      cases hres : cmdReserved w with
      | true => rw [decodeCmd_of_reserved hgo hres] at h; cases h
      | false =>
        obtain ⟨op, nr, rfl⟩ := exists_encodeCmd hgo hres
        rw [decodeCmd_encodeCmd] at h
        cases h
        exact ⟨op.instr_wellFormed nr, encode_hostOp op nr⟩
  | ckCtl ctl din =>
    have hctl : ∀ c : BitVec 2, c = encodeCk (c.getLsbD 1) (c.getLsbD 0) := by decide
    rw [hctl ctl] at h ⊢
    rw [decode_encodeCk] at h
    cases hclr : ctl.getLsbD 1 <;> cases hen : ctl.getLsbD 0 <;> rw [hclr, hen] at h <;> cases h <;>
      exact ⟨rfl, rfl⟩
  | packet bs =>
    obtain ⟨a, c, p, rfl, hp, ha, hbody⟩ := exists_frame_of_decodePacket h
    exact encode_of_decodeBody ha hp hbody

/-- Settles O3: each sample is a closed word of the tables, which the decoder computes. -/
theorem sampleWordsDecode : Obligations.SampleWordsDecode := by
  unfold Obligations.SampleWordsDecode
  decide

/-! ## Sixteen-bit operands (30_encoding.md R99) -/

theorem join16_eq_or (low high : Byte) :
    join16 low high = low.setWidth 16 ||| (high.setWidth 16 <<< 8) := by
  apply BitVec.eq_of_toNat_eq
  have hl := low.isLt
  have hh := high.isLt
  rw [join16_toNat, BitVec.or_comm, BitVec.toNat_or, BitVec.toNat_shiftLeft, BitVec.toNat_setWidth,
    BitVec.toNat_setWidth, Nat.mod_eq_of_lt (a := high.toNat) (by omega),
    Nat.mod_eq_of_lt (a := low.toNat) (by omega),
    Nat.mod_eq_of_lt (by rw [Nat.shiftLeft_eq]; omega), ← Nat.shiftLeft_add_eq_or_of_lt hl,
    Nat.shiftLeft_eq]
  omega

/-- The value of RD2 after an operation that ended with CODE = OK (43_bus_instructions.md R214). -/
theorem rd2Value_of_ok {s : State} {low high : Byte} (h : opEnded s = true)
    (hc : s.status.code = codeOk) (hlow : Memory.find s.buf.rxbuf 5 = some low)
    (hhigh : Memory.find s.buf.rxbuf 6 = some high) : rd2Value s = some (join16 low high) := by
  simp [rd2Value, h, hc, hlow, hhigh]

/-- Settles O6: the join puts the first byte low, in the decoder as in the value of RD2. -/
theorem sixteenBitOperands : Obligations.SixteenBitOperands := by
  refine ⟨fun v => ⟨rfl, rfl, join16_split v⟩, join16_eq_or, fun _ _ _ => rfl, ?value⟩
  case value =>
    intro s low high hb hd hc hlow hhigh
    rw [rd2Value_of_ok (by simp [opEnded, hb, hd]) hc hlow hhigh, join16_eq_or]

end Sys2Proof.Machine
end

section
/-! PROOFS. What a step can do: it runs the decoded instruction or the pending input's own transition, and it
keeps the invariant (10_state.md; 20_memory.md R73). -/

namespace Sys2Proof.Machine

/-! ## The invariant -/

/-- An outcome whose next state, if there is one, meets the invariant. -/
def InvOutcome (o : Host.Outcome State Fault Refusal) : Prop := ∀ t, o = .next t → Inv t

theorem InvOutcome.next {s : State} (h : Inv s) : InvOutcome (.next s) := by
  rintro t ⟨⟩; exact h

theorem InvOutcome.refused (r : Refusal) : InvOutcome (.refused r) := by
  rintro t ⟨⟩

theorem inv_runAnswering {s : State} (hi : Inv s) (a : Byte) (is : List Input) :
    InvOutcome (runAnswering a is s) := by
  unfold runAnswering
  split_ifs
  · exact .next (inv_runStmts is hi)
  · exact .refused _

theorem inv_runWriting {s : State} (hi : Inv s) (a : Byte) (k : Nat) (is : List Input) :
    InvOutcome (runWriting a k is s) := by
  unfold runWriting
  split_ifs
  · exact .refused _
  · exact .refused _
  · exact .next (inv_runStmts is hi)

/-- Every instruction keeps the invariant. -/
theorem inv_exec {s : State} (hi : Inv s) (i : Instr) : InvOutcome (exec i s) := by
  cases i with
  | xchg nr | cmd nr | cmdr nr | cks nr => exact .next (inv_operate hi _ nr)
  | ckClr en d | ckAdd d | ckHold d => exact .next (inv_acc hi _)
  | ping a | read a r n => exact inv_runAnswering hi a _
  | write a r ds | write1 a r v | write2 a r v => exact inv_runWriting hi a _ _
  | regWrite a p | action a p | resetDevice a p | syncWrite a p => exact .refused _

theorem inv_thenAdvance {o : Host.Outcome State Fault Refusal} (h : InvOutcome o) :
    InvOutcome (thenAdvance o) := by
  cases o with
  | next s => exact .next (inv_advance (h s rfl))
  | fault f => cases f
  | refused r => exact .refused r

theorem inv_presentWait {s : State} (hi : Inv s) : InvOutcome (presentWait s) := by
  have hwait : Inv (hostWait s) := inv_poll _ hi
  unfold presentWait
  dsimp only
  split_ifs
  · exact .next hwait
  · exact .next (inv_io hwait _)

/-- Every presented input keeps the invariant. -/
theorem inv_present {s : State} (hi : Inv s) (i : Input) : InvOutcome (present i s) := by
  cases i with
  | write r v =>
    by_cases hr : r = rCmd
    · subst hr
      show InvOutcome (presentCmd v s)
      unfold presentCmd
      split
      · exact inv_exec hi _
      · exact .next (inv_hostWrite hi _ v)
    · rw [present_write hr]
      exact .next (inv_hostWrite hi r v)
  | read r => exact .next (inv_hostRead hi r)
  | rxbOk k => exact .next (inv_hostRxbOk hi k)
  | wait => exact inv_presentWait hi
  | ck ctl d =>
    show InvOutcome (presentCk ctl d s)
    unfold presentCk
    split
    · exact inv_thenAdvance (inv_exec hi _)
    · exact .refused _
  | packet bs =>
    show InvOutcome (presentPacket bs s)
    unfold presentPacket
    split
    · exact inv_exec hi _
    · exact .refused _

theorem inv_clocked {s : State} (hi : Inv s) : InvOutcome (clocked s) := by
  unfold clocked
  split
  · exact .next (inv_advance hi)
  · exact inv_present (inv_io hi _) _

theorem inv_step {s : State} (hi : Inv s) : InvOutcome (step s) := by
  unfold step stepOnce
  split
  · exact inv_clocked hi
  · exact .next (inv_resetBlock (inv_io hi _))
  · exact inv_clocked (inv_io hi _)

/-- Settles O54: reset, every pending input and every transition of the sequencer keep the invariant. -/
theorem stepKeepsInvariant : Obligations.StepKeepsInvariant := fun _ t hi h => inv_step hi t h

/-- Settles O55: the block after reset is idle, its files list nothing and its parameters are those of Table
00-1. -/
theorem resetMeetsInvariant : Obligations.ResetMeetsInvariant := by
  refine ⟨by decide, ⟨rfl, rfl, rfl, rfl⟩, ⟨?_, ?_, ?_, ?_, rfl⟩,
    ⟨nofun, nofun, nofun, nofun, le_rfl, le_rfl, Nat.zero_le _, nofun, ?_, nofun, nofun, rfl, rfl⟩,
    ⟨Nat.zero_le _, fun j hj => absurd hj (Nat.not_lt_zero j)⟩⟩
  all_goals simp [State.reset, Status.reset, Seq.reset]

/-! ## The step of a pending input -/

/-- The state with the pending inputs replaced and one sample of `rst` consumed. -/
def nextInput (is : List Input) (s : State) : State :=
  { s with io.inputs := is, io.rstPin := s.io.rstPin.tail }

/-- With `rst` low a step takes the next pending input. -/
theorem step_present {s : State} (hrst : s.io.rstPin.headD false = false) {i : Input}
    {is : List Input} (h : s.io.inputs = i :: is) : step s = present i (nextInput is s) := by
  unfold step stepOnce nextInput
  split
  · next hpin => simp only [clocked, h]; rw [hpin]; rfl
  · next hpin => rw [hpin] at hrst; cases hrst
  · next hpin => simp only [clocked, h, hpin, List.tail_cons]

/-- With `rst` low and nothing pending the running operation advances. -/
theorem step_nothing {s : State} (hrst : s.io.rstPin.headD false = false) (h : s.io.inputs = []) :
    step s = .next (advance (nextInput [] s)) := by
  unfold step stepOnce nextInput
  split
  · next hpin =>
    simp only [clocked, h, hpin, List.tail_nil]
    rw [← hpin, ← h]
  · next hpin => rw [hpin] at hrst; cases hrst
  · next hpin => simp only [clocked, h, hpin, List.tail_cons]

theorem exec_hostOp (op : HostOp) (nr : Bool) (s : State) :
    exec (op.instr nr) s = .next (operate op nr s) := by cases op <;> rfl

/-- A presented CMD word, whether it is an operation or not, is a write of CMD and the transitions that follow. -/
theorem present_cmd (w : Word) (s : State) :
    present (.write rCmd w) s = .next (advance (writeCmd w s)) := by
  have hreject : ∀ why, decodeCmd w = .reject why →
      present (.write rCmd w) s = .next (advance (writeCmd w s)) := by
    intro why h
    rw [present, if_pos rfl, presentCmd, decode, h, hostWrite, if_pos rfl]
  cases hgo : cmdGo w with
  | false => exact hreject _ (decodeCmd_of_not_go hgo)
  | true =>
    cases hres : cmdReserved w with
    | true => exact hreject _ (decodeCmd_of_reserved hgo hres)
    | false =>
      obtain ⟨op, nr, rfl⟩ := exists_encodeCmd hgo hres
      rw [present, if_pos rfl, presentCmd, decode, decodeCmd_encodeCmd]
      exact exec_hostOp op nr s

theorem present_inputOf {f : Fetch} {i : Instr} (h : decode f = .instr i) (s : State) :
    present (inputOf f) s =
      match f with
      | .cmdWord _ => exec i s
      | .packet _ => exec i s
      | .ckCtl _ _ => thenAdvance (exec i s) := by
  cases f with
  | cmdWord w => rw [inputOf, present, if_pos rfl, presentCmd, h]
  | ckCtl ctl d => rw [inputOf, present, presentCk, h]
  | packet bs => rw [inputOf, present, presentPacket, h]

theorem writeCmd_not_go {w : Word} (h : cmdGo w = false) (s : State) : writeCmd w s = s :=
  if_pos (.inr h)

theorem writeCmd_go {w : Word} {s : State} (h : cmdGo w = true) :
    writeCmd w s = if s.status.busy then s else acceptGo (cmdOpl w) (cmdReserved w) s := by
  simp [writeCmd, h]

/-- The conditional `rxb` on an idle block: the index is written, then RXDATA is read. -/
theorem hostRxbOk_idle {k : Nat} {s : State} (hb : s.status.busy = false) (hc : s.status.code = codeOk) :
    hostRxbOk k s = recordRead rRxdata (writeReg rBufidx (BitVec.ofNat 16 k) s) := by
  rw [hostRxbOk, if_pos ⟨hb, hc⟩, hostRead, hostWrite_idle (by decide) hb, advance_idle]
  rw [recordRead_status, writeReg_status, hb]

/-- Settles O53: with `rst` low the step presents the head of the pending inputs, and each kind of input has its
transition. -/
theorem stepRunsDecoded : Obligations.StepRunsDecoded := by
  intro s hrst next
  refine ⟨?decoded, ?cmd, ?write, ?read, ?rxb, ?wait, ?packet, step_nothing hrst⟩
  case decoded =>
    intro f i is hf h
    rw [step_present hrst h, present_inputOf hf]
    cases f <;> rfl
  case cmd =>
    refine fun w is h => ⟨fun hgo => ?_, fun hgo hres => ?_⟩ <;> rw [step_present hrst h]
    · rw [present_cmd, writeCmd_not_go hgo]
      rfl
    · have hres' : cmdReserved w = true := bne_iff_ne.mpr hres
      rw [present_cmd, writeCmd_go hgo, hres']
      rfl
  case write => intro r v is hr h; rw [step_present hrst h, present_write hr, hostWrite, if_neg hr]; rfl
  case read => intro r is h; rw [step_present hrst h]; rfl
  case rxb =>
    intro k is h
    rw [step_present hrst h, present]
    split_ifs with hok
    · obtain ⟨hb, hc⟩ := hok
      rw [hostRxbOk_idle (s := nextInput is s) hb hc]
      rfl
    · rw [hostRxbOk]
      exact congrArg _ (if_neg hok)
  case wait => exact fun is h => step_present hrst h
  case packet =>
    intro bs why is hrej h
    rw [step_present hrst h, present, presentPacket, hrej]

end Sys2Proof.Machine
end

section
/-! PROOFS. What no transition of the sequencer changes or takes back (10_state.md R41; 20_memory.md R70, R75), and
that every transition but a TxWrite that is never taken brings the operation nearer to its end (60_exceptions.md
R253). -/

namespace Sys2Proof.Machine

/-! ## Reads of buffer entries (10_state.md R50) -/

/-- How many of the l entries from index i on are unwritten. -/
def unwrittenCount (m : List Host.Cell) (i l : Nat) : Nat :=
  ((List.range l).filter (fun j => (Memory.find m (i + j)).isNone)).length

theorem unwrittenCount_succ (m : List Host.Cell) (i l : Nat) :
    unwrittenCount m i (l + 1) =
      unwrittenCount m i l + if (Memory.find m (i + l)).isNone then 1 else 0 := by
  simp only [unwrittenCount, List.range_succ, List.filter_append, List.length_append,
    List.filter_singleton]
  cases (Memory.find m (i + l)).isNone <;> rfl

/-- `MemRead` from its last entry: the counter that the entries before left is the one it takes. -/
theorem Memory.readSeq_succ (m : List Host.Cell) (i n k : Nat) :
    Memory.readSeq m i (n + 1) k =
      ((Memory.readSeq m i n k).1 ++
          [(drawEntry (Memory.find m (i + n)) (Memory.readSeq m i n k).2).1],
        (drawEntry (Memory.find m (i + n)) (Memory.readSeq m i n k).2).2) := by
  induction n generalizing i k with
  | zero => rfl
  | succ n ih =>
    have hi : i + 1 + n = i + (n + 1) := by omega
    rw [Memory.readSeq, ih, hi]
    rfl

theorem Memory.readSeq_counter (m : List Host.Cell) (i n k : Nat) :
    (Memory.readSeq m i n k).2 = k + unwrittenCount m i n := by
  induction n with
  | zero => rfl
  | succ n ih =>
    rw [Memory.readSeq_succ, ih, unwrittenCount_succ]
    cases Memory.find m (i + n) <;> rfl

/-- Each unwritten entry reads as the free value of its own count. -/
theorem Memory.readSeq_getElem? (m : List Host.Cell) (i n k : Nat) {j : Nat} (hj : j < n) :
    (Memory.readSeq m i n k).1[j]? =
      some ((Memory.find m (i + j)).getD (Config.freeByte (k + unwrittenCount m i j))) := by
  induction n with
  | zero => exact absurd hj (Nat.not_lt_zero j)
  | succ n ih =>
    rw [Memory.readSeq_succ]
    by_cases hjn : j < n
    · rw [List.getElem?_append_left (by simpa using hjn), ih hjn]
    · obtain rfl : j = n := by omega
      rw [List.getElem?_append_right (by simp), Memory.readSeq_counter]
      cases h : Memory.find m (i + j) <;> simp [drawEntry]

theorem Memory.le_readSeq_counter (m : List Host.Cell) (i n k : Nat) :
    k ≤ (Memory.readSeq m i n k).2 := by
  rw [Memory.readSeq_counter]; omega

/-! ## What no transition changes -/

/-- What the block's own transitions from s to t keep: the parameters, the descriptor, PBUF, the pending inputs,
the values read, whether the transport hangs; the records of the wire and of the events only grow, and the counter
of free values does not fall. -/
structure Transition (s t : State) : Prop where
  cfg : t.cfg = s.cfg
  devaddr : t.regs.devaddr = s.regs.devaddr
  instr : t.regs.instr = s.regs.instr
  plen : t.regs.plen = s.regs.plen
  explen : t.regs.explen = s.regs.explen
  bufidx : t.regs.bufidx = s.regs.bufidx
  pbuf : t.buf.pbuf = s.buf.pbuf
  inputs : t.io.inputs = s.io.inputs
  reads : t.io.reads = s.io.reads
  txHung : t.bus.txHung = s.bus.txHung
  wire : s.bus.wire <+: t.bus.wire
  trace : s.bus.trace <+: t.bus.trace
  draws : s.draws ≤ t.draws

namespace Transition

theorem refl (s : State) : Transition s s :=
  ⟨rfl, rfl, rfl, rfl, rfl, rfl, rfl, rfl, rfl, rfl, List.prefix_rfl, List.prefix_rfl, le_rfl⟩

theorem trans {s t u : State} (h : Transition s t) (h' : Transition t u) : Transition s u :=
  ⟨h'.cfg.trans h.cfg, h'.devaddr.trans h.devaddr, h'.instr.trans h.instr, h'.plen.trans h.plen,
    h'.explen.trans h.explen, h'.bufidx.trans h.bufidx, h'.pbuf.trans h.pbuf,
    h'.inputs.trans h.inputs, h'.reads.trans h.reads, h'.txHung.trans h.txHung,
    h.wire.trans h'.wire, h.trace.trans h'.trace, h.draws.trans h'.draws⟩

/-- An update outside the transport, the host side and the descriptor. -/
theorem ofBlock {s : State} (st : Status) (q : Seq) (acc : Byte) (xlen xexp rxlen : Len)
    (ckout : Byte) (les txf rxbuf : List Host.Cell) {draws : Nat} (h : s.draws ≤ draws) :
    Transition s
      { s with
        status := st, seq := q, acc := acc, draws := draws
        regs.xlen := xlen, regs.xexp := xexp, regs.rxlen := rxlen, regs.ckout := ckout
        buf.lasterr := les, buf.txf := txf, buf.rxbuf := rxbuf } :=
  ⟨rfl, rfl, rfl, rfl, rfl, rfl, rfl, rfl, rfl, rfl, List.prefix_rfl, List.prefix_rfl, h⟩

theorem endOperation (c : BitVec 4) (s : State) : Transition s (endOperation c s) :=
  ofBlock _ _ _ _ _ _ _ _ _ _ le_rfl

theorem acceptGo (o : BitVec 3) (r : Bool) (s : State) : Transition s (acceptGo o r s) :=
  ofBlock _ _ _ _ _ _ _ _ _ _ le_rfl

theorem startExchange (s : State) : Transition s (startExchange s) :=
  ofBlock _ _ _ _ _ _ _ _ _ _ (Memory.le_readSeq_counter _ _ _ _)

theorem buildFrame (s : State) : Transition s (buildFrame s) :=
  ofBlock _ _ _ _ _ _ _ _ _ _ (Memory.le_readSeq_counter _ _ _ _)

theorem markAnomaly (tx echo : List Byte) (s : State) : Transition s (markAnomaly tx echo s) :=
  ofBlock _ _ _ _ _ _ _ _ _ _ le_rfl

theorem storeResponse (rx : List Byte) (s : State) : Transition s (storeResponse rx s) :=
  ofBlock _ _ _ _ _ _ _ _ _ _ le_rfl

theorem sequencer (s : State) (q : Seq) : Transition s { s with seq := q } :=
  ofBlock _ _ _ _ _ _ _ _ _ _ le_rfl

theorem noteError (c : BitVec 4) (rx : List Byte) (s : State) : Transition s (noteError c rx s) := by
  rw [noteError_eq]
  exact ofBlock _ _ _ _ _ _ _ _ _ _ le_rfl

theorem logEvent (e : Event) (s : State) : Transition s (logEvent e s) :=
  ⟨rfl, rfl, rfl, rfl, rfl, rfl, rfl, rfl, rfl, rfl, List.prefix_rfl, List.prefix_append _ _, le_rfl⟩

theorem rxRead (n : Nat) (s : State) : Transition s (rxRead n s).2 := by
  rw [rxRead_eq]
  refine ⟨rfl, rfl, rfl, rfl, rfl, rfl, rfl, rfl, rfl, rxBus_txHung n _, ?_, ?_, le_rfl⟩
  · rw [rxBus_wire]
  · rw [rxBus_trace]; exact List.prefix_append _ _

/-! The phases (10_state.md R41) -/

theorem phaseBuild (s : State) : Transition s (phaseBuild s) := by
  unfold Machine.phaseBuild
  split_ifs
  · exact endOperation _ s
  · cases curOp s with
    | xchg => exact startExchange s
    | cmd | cmdr => exact (buildFrame s).trans (startExchange _)
    | cks =>
      exact ofBlock _ _ _ _ _ _ _ _ _ _ (Memory.le_readSeq_counter _ _ _ _)

theorem phaseTx (s : State) : Transition s (phaseTx s) := by
  unfold Machine.phaseTx
  dsimp only
  split_ifs
  · exact ⟨rfl, rfl, rfl, rfl, rfl, rfl, rfl, rfl, rfl, rfl, List.prefix_append _ _,
      List.prefix_append _ _, le_rfl⟩
  · exact ⟨rfl, rfl, rfl, rfl, rfl, rfl, rfl, rfl, rfl, rfl, List.prefix_append _ _,
      List.prefix_rfl, le_rfl⟩

theorem afterEcho (s : State) : Transition s (afterEcho s) := by
  unfold Machine.afterEcho
  split_ifs
  · cases curOp s with
    | xchg => exact endOperation _ s
    | cmd | cmdr | cks => exact sequencer s _
  · exact sequencer s _

theorem phaseEcho (s : State) : Transition s (phaseEcho s) :=
  (rxRead _ s).trans ((sequencer _ _).trans ((markAnomaly _ _ _).trans (afterEcho _)))

theorem phaseTurn (s : State) : Transition s (phaseTurn s) :=
  (sequencer s _).trans (logEvent _ _)

theorem afterResponse (s : State) : Transition s (afterResponse s) := by
  unfold Machine.afterResponse
  cases curOp s with
  | xchg => exact endOperation _ s
  | cmd | cmdr | cks => exact sequencer s _

theorem phaseResp (s : State) : Transition s (phaseResp s) :=
  (rxRead _ s).trans ((storeResponse _ _).trans (afterResponse _))

theorem afterAttempt (c : BitVec 4) (s : State) : Transition s (afterAttempt c s) := by
  unfold Machine.afterAttempt
  split_ifs
  · exact endOperation c s
  · exact sequencer s _

theorem phaseCheck (s : State) : Transition s (phaseCheck s) := by
  unfold Machine.phaseCheck
  split_ifs
  · exact afterAttempt _ s
  · have hread : Transition s
        { s with draws := (Memory.readSeq s.buf.rxbuf 0 s.regs.rxlen.toNat s.draws).2 } :=
      ofBlock _ _ _ _ _ _ _ _ _ _ (Memory.le_readSeq_counter _ _ _ _)
    exact hread.trans ((noteError _ _ _).trans (afterAttempt _ _))

theorem phaseBackoff (s : State) : Transition s (phaseBackoff s) :=
  (ofBlock _ _ _ _ _ _ _ _ _ _ le_rfl).trans ((logEvent _ _).trans (startExchange _))

theorem seqStep (s : State) : Transition s (seqStep s) := by
  unfold Machine.seqStep
  split
  · exact refl s
  · exact phaseBuild s
  · exact phaseTx s
  · exact phaseEcho s
  · exact phaseTurn s
  · exact phaseResp s
  · exact phaseCheck s
  · exact phaseBackoff s

theorem seqRun (n : Nat) (s : State) : Transition s (seqRun n s) := by
  induction n generalizing s with
  | zero => exact refl s
  | succ n ih => exact (seqStep s).trans (ih _)

theorem seqToEnd (s : State) : Transition s (seqToEnd s) := seqRun _ s

/-- The schedule is no part of what a transition keeps. -/
theorem pace (s : State) (ps : List Nat) : Transition s { s with io.pace := ps } :=
  ⟨rfl, rfl, rfl, rfl, rfl, rfl, rfl, rfl, rfl, rfl, List.prefix_rfl, List.prefix_rfl, le_rfl⟩

theorem advance (s : State) : Transition s (advance s) := by
  unfold Machine.advance
  split_ifs
  · split
    · exact seqToEnd s
    · exact (pace s _).trans (seqRun _ _)
  · exact refl s

theorem pollUntilDone (ps : List Nat) (s : State) : Transition s (pollUntilDone ps s) := by
  induction ps generalizing s with
  | nil =>
    unfold Machine.pollUntilDone
    split_ifs
    · exact (pace s []).trans (seqToEnd _)
    · exact pace s []
  | cons n ps ih =>
    unfold Machine.pollUntilDone
    split_ifs
    · exact (seqRun n s).trans (ih _)
    · exact pace s _

theorem hostWait (s : State) : Transition s (hostWait s) := pollUntilDone _ s

theorem writeCmd (w : Word) (s : State) : Transition s (writeCmd w s) := by
  unfold Machine.writeCmd
  split_ifs
  · exact refl s
  · exact acceptGo _ _ s

theorem operate (op : HostOp) (nr : Bool) (s : State) : Transition s (operate op nr s) :=
  (writeCmd _ s).trans (advance _)

end Transition

/-- Settles O39: a host operation is its GO and the transitions that follow, none of which writes the descriptor. -/
theorem descriptorKept : Obligations.DescriptorKept := by
  rintro i s ⟨nr, hi⟩
  obtain ⟨op, rfl⟩ : ∃ op : HostOp, i = op.instr nr := by
    rcases hi with rfl | rfl | rfl | rfl
    exacts [⟨.xchg, rfl⟩, ⟨.cmd, rfl⟩, ⟨.cmdr, rfl⟩, ⟨.cks, rfl⟩]
  have h := Transition.operate op nr s
  exact ⟨_, exec_hostOp op nr s, h.devaddr, h.instr, h.plen, h.explen, h.bufidx, h.pbuf, h.cfg⟩

/-! ## Nearer to the end -/

/-- The most transitions from a phase on, but for the visits of TX that leave bytes over. -/
def Phase.rank (att : Bool) : Phase → Nat
  | .idle => 0
  | .build => 12
  | .tx => if att then 5 else 11
  | .echo => if att then 4 else 10
  | .turn => if att then 3 else 9
  | .resp => if att then 2 else 8
  | .check => if att then 1 else 7
  | .backoff => 6

/-- The most transitions that an operation has before it, unless the transport hangs. -/
def transitionsLeft (s : State) : Nat := s.seq.phase.rank s.seq.att + s.bus.takes.length

theorem transitionsLeft_le (s : State) : transitionsLeft s ≤ opTransitions + s.bus.takes.length := by
  have hrank : s.seq.phase.rank s.seq.att ≤ 12 := by
    cases s.seq.phase <;> cases s.seq.att <;> decide
  exact Nat.add_le_add_right hrank _

/-- A `TxWrite` whose bytes the transport never takes (log 5): no transition changes anything any more. -/
structure Stuck (s : State) : Prop where
  phase : s.seq.phase = .tx
  hung : s.bus.txHung = true
  fixed : seqStep s = s

/-- From s to t the operation comes nearer to its end, and at its end DONE is set. -/
structure Advances (s t : State) : Prop where
  nearer : transitionsLeft t < transitionsLeft s
  done : t.seq.phase = .idle → t.status.done = true

/-- A transition that takes no entry of `takes` is nearer in a phase of lower rank. -/
theorem Advances.of_rank {s t : State} (htakes : t.bus.takes = s.bus.takes)
    (hrank : t.seq.phase.rank t.seq.att < s.seq.phase.rank s.seq.att)
    (hdone : t.seq.phase = .idle → t.status.done = true) : Advances s t :=
  ⟨by rw [transitionsLeft, transitionsLeft, htakes]; omega, hdone⟩

/-- A transition within one attempt that goes on in the phase p. -/
theorem Advances.of_phase {s t : State} (p : Phase) (hp : t.seq.phase = p)
    (htakes : t.bus.takes = s.bus.takes) (hatt : t.seq.att = s.seq.att)
    (hrank : ∀ att, p.rank att < s.seq.phase.rank att) (hne : p ≠ .idle) : Advances s t :=
  .of_rank htakes (by rw [hp, hatt]; exact hrank _) fun h => absurd (hp.symm.trans h) hne

theorem Phase.rank_pos {p : Phase} (hp : p ≠ .idle) (att : Bool) : 0 < p.rank att := by
  cases p <;> cases att <;> first | exact absurd rfl hp | exact Nat.succ_pos _

/-- The end of the operation. -/
theorem Advances.of_end {s t : State} (htakes : t.bus.takes = s.bus.takes) (c : BitVec 4)
    (hp : s.seq.phase ≠ .idle) : Advances s (endOperation c t) :=
  .of_rank htakes (Phase.rank_pos hp _) fun _ => rfl

theorem phaseBuild_advances {s : State} (hp : s.seq.phase = .build) : Advances s (phaseBuild s) := by
  have hend : s.seq.phase ≠ .idle := by rw [hp]; decide
  have htx : ∀ t : State, t.bus.takes = s.bus.takes → t.seq.att = s.seq.att →
      Advances s (startExchange t) :=
    fun t ht ha => .of_phase .tx rfl ht ha (by rw [hp]; decide) (by decide)
  unfold phaseBuild
  split_ifs
  · exact .of_end rfl _ hend
  · cases curOp s with
    | xchg | cmd | cmdr => exact htx _ rfl rfl
    | cks => exact .of_end (by rfl) codeOk hend

theorem takeNow_takes (r : Nat) (ts : List Nat) (h : Bool) : (takeNow r ts h).2.length ≤ ts.length := by
  cases r <;> cases ts <;> simp [takeNow]

/-- TX goes on to ECHO, or leaves bytes over and uses an entry of `takes`, or is stuck. -/
theorem phaseTx_advances {s : State} (hp : s.seq.phase = .tx) : Stuck s ∨ Advances s (phaseTx s) := by
  have hstep : seqStep s = phaseTx s := by simp only [seqStep, hp]
  by_cases hall : s.seq.txSeq.length ≤
      s.seq.txCnt + (takeNow (s.seq.txSeq.length - s.seq.txCnt) s.bus.takes s.bus.txHung).1
  · right
    have htakes := takeNow_takes (s.seq.txSeq.length - s.seq.txCnt) s.bus.takes s.bus.txHung
    refine ⟨?_, ?_⟩ <;> simp only [phaseTx, if_pos hall, logEvent, transitionsLeft, hp]
    · have hrank : ∀ att, Phase.rank att .echo < Phase.rank att .tx := by decide
      have := hrank s.seq.att
      omega
    · nofun
  · cases hts : s.bus.takes with
    | cons k ts =>
      right
      have hrest : (takeNow (s.seq.txSeq.length - s.seq.txCnt) s.bus.takes s.bus.txHung).2 = ts := by
        cases hr : s.seq.txSeq.length - s.seq.txCnt with
        | zero => omega
        | succ r => rw [hts]; rfl
      refine ⟨?_, ?_⟩ <;> simp only [phaseTx, if_neg hall, transitionsLeft, hp]
      · rw [hrest, hts, List.length_cons]; omega
      · nofun
    | nil =>
      left
      have hhung : s.bus.txHung = true := by
        cases hh : s.bus.txHung with
        | true => rfl
        | false => rw [hts, hh, takeNow_nil] at hall; omega
      have htake : takeNow (s.seq.txSeq.length - s.seq.txCnt) s.bus.takes s.bus.txHung = (0, []) := by
        rw [hts, hhung]
        cases s.seq.txSeq.length - s.seq.txCnt <;> rfl
      refine ⟨hp, hhung, ?_⟩
      rw [htake] at hall
      rw [hstep]
      simp only [phaseTx, htake, if_neg hall]
      rw [← hts]
      simp

theorem phaseEcho_advances {s : State} (hp : s.seq.phase = .echo) : Advances s (phaseEcho s) := by
  unfold phaseEcho
  rw [rxRead_eq]
  dsimp only
  generalize hm : markAnomaly _ _ _ = m
  have htakes : m.bus.takes = s.bus.takes := by rw [← hm]; exact rxBus_takes _ _
  have hatt : m.seq.att = s.seq.att := by rw [← hm]; rfl
  have hend : s.seq.phase ≠ .idle := by rw [hp]; decide
  have hcheck : Advances s { m with seq.phase := .check } :=
    .of_phase .check rfl htakes hatt (by rw [hp]; decide) (by decide)
  unfold afterEcho
  split_ifs
  · cases curOp m with
    | xchg => exact .of_end htakes _ hend
    | cmd | cmdr | cks => exact hcheck
  · exact .of_phase .turn rfl htakes hatt (by rw [hp]; decide) (by decide)

theorem phaseTurn_advances {s : State} (hp : s.seq.phase = .turn) : Advances s (phaseTurn s) :=
  .of_phase .resp rfl rfl rfl (by rw [hp]; decide) (by decide)

theorem phaseResp_advances {s : State} (hp : s.seq.phase = .resp) : Advances s (phaseResp s) := by
  unfold phaseResp
  rw [rxRead_eq]
  dsimp only
  generalize hm : storeResponse _ _ = m
  have htakes : m.bus.takes = s.bus.takes := by rw [← hm]; exact rxBus_takes _ _
  have hatt : m.seq.att = s.seq.att := by rw [← hm]; rfl
  have hcheck : Advances s { m with seq.phase := .check } :=
    .of_phase .check rfl htakes hatt (by rw [hp]; decide) (by decide)
  unfold afterResponse
  cases curOp m with
  | xchg => exact .of_end htakes _ (by rw [hp]; decide)
  | cmd | cmdr | cks => exact hcheck

theorem afterAttempt_advances {s t : State} (hp : s.seq.phase = .check) (hseq : t.seq = s.seq)
    (htakes : t.bus.takes = s.bus.takes) (c : BitVec 4) : Advances s (afterAttempt c t) := by
  unfold afterAttempt
  split_ifs with h
  · exact .of_end htakes c (by rw [hp]; decide)
  · have hatt : s.seq.att = false := by rw [← hseq]; simpa using (not_or.mp (not_or.mp h).2).2
    refine .of_rank htakes ?_ nofun
    rw [hp, hatt]; exact Nat.lt_succ_self 6

theorem phaseCheck_advances {s : State} (hp : s.seq.phase = .check) : Advances s (phaseCheck s) := by
  unfold phaseCheck
  split_ifs
  · exact afterAttempt_advances hp rfl rfl _
  · refine afterAttempt_advances hp ?_ ?_ _ <;> rw [noteError_eq]

theorem phaseBackoff_advances {s : State} (hp : s.seq.phase = .backoff) :
    Advances s (phaseBackoff s) := by
  refine .of_rank rfl ?_ nofun
  rw [hp]; exact Nat.lt_succ_self 5

/-- Every transition of a running operation comes nearer to its end, but for a `TxWrite` that is stuck. -/
theorem seqStep_advances {s : State} (hp : s.seq.phase ≠ .idle) : Stuck s ∨ Advances s (seqStep s) := by
  cases h : s.seq.phase with
  | idle => exact absurd h hp
  | build => simpa only [seqStep, h] using .inr (phaseBuild_advances h)
  | tx => simpa only [seqStep, h] using phaseTx_advances h
  | echo => simpa only [seqStep, h] using .inr (phaseEcho_advances h)
  | turn => simpa only [seqStep, h] using .inr (phaseTurn_advances h)
  | resp => simpa only [seqStep, h] using .inr (phaseResp_advances h)
  | check => simpa only [seqStep, h] using .inr (phaseCheck_advances h)
  | backoff => simpa only [seqStep, h] using .inr (phaseBackoff_advances h)

theorem Stuck.seqRun {s : State} (h : Stuck s) (n : Nat) : seqRun n s = s := by
  induction n with
  | zero => rfl
  | succ n ih => rw [Machine.seqRun, h.fixed, ih]

/-- As many transitions as are left end the operation, or meet a `TxWrite` that is stuck. -/
theorem seqRun_idle_or_stuck {n : Nat} {s : State} (h : transitionsLeft s ≤ n) :
    (seqRun n s).seq.phase = .idle ∨ Stuck (seqRun n s) := by
  induction n generalizing s with
  | zero =>
    by_cases hp : s.seq.phase = .idle
    · exact .inl hp
    · rcases seqStep_advances hp with hstuck | hadv
      · exact .inr hstuck
      · exact absurd hadv.nearer (by omega)
  | succ n ih =>
    by_cases hp : s.seq.phase = .idle
    · rw [seqRun_idle hp]; exact .inl hp
    · rcases seqStep_advances hp with hstuck | hadv
      · rw [hstuck.seqRun]; exact .inr hstuck
      · exact ih (by have := hadv.nearer; omega)

theorem seqToEnd_idle_or_stuck (s : State) :
    (seqToEnd s).seq.phase = .idle ∨ Stuck (seqToEnd s) := seqRun_idle_or_stuck (transitionsLeft_le s)

/-- A transport that takes what it is given lets every operation end. -/
theorem seqToEnd_idle {s : State} (hh : s.bus.txHung = false) : (seqToEnd s).seq.phase = .idle := by
  refine (seqToEnd_idle_or_stuck s).resolve_right fun hstuck => ?_
  have hung := hstuck.hung
  rw [(Transition.seqToEnd s).txHung, hh] at hung
  cases hung

/-- A run of a running operation that reaches IDLE sets DONE (10_state.md R42). -/
theorem seqRun_done {n : Nat} {s : State} (hp : s.seq.phase ≠ .idle)
    (h : (seqRun n s).seq.phase = .idle) : (seqRun n s).status.done = true := by
  induction n generalizing s with
  | zero => exact absurd h hp
  | succ n ih =>
    rcases seqStep_advances hp with hstuck | hadv
    · rw [hstuck.seqRun] at h; exact absurd h hp
    · by_cases hp' : (seqStep s).seq.phase = .idle
      · rw [seqRun, seqRun_idle hp']; exact hadv.done hp'
      · exact ih hp' h

/-- Two runs from one state that both reach IDLE end in the same state. -/
theorem seqRun_end_unique {m n : Nat} {s : State} (hm : (seqRun m s).seq.phase = .idle)
    (hn : (seqRun n s).seq.phase = .idle) : seqRun m s = seqRun n s := by
  rcases Nat.le_total m n with h | h
  · exact (seqRun_over rfl hm h).symm
  · exact seqRun_over rfl hn h

/-! ## Under the invariant -/

theorem Inv.busy_iff {s : State} (hi : Inv s) : s.status.busy = true ↔ s.seq.phase ≠ .idle :=
  hi.flags.busyPhase

theorem Inv.not_busy_of_idle {s : State} (hi : Inv s) (h : s.seq.phase = .idle) :
    s.status.busy = false := by
  rw [← Bool.not_eq_true, hi.busy_iff, not_not]; exact h

/-- A running operation whose transport takes its bytes runs to its end. -/
theorem seqToEnd_ends {s : State} (hi : Inv s) (hb : s.status.busy = true)
    (hh : s.bus.txHung = false) :
    (seqToEnd s).status.busy = false ∧ (seqToEnd s).status.done = true ∧
      (seqToEnd s).seq.phase = .idle := by
  have hidle := seqToEnd_idle hh
  exact ⟨(inv_seqRun hi _).not_busy_of_idle hidle, seqRun_done (hi.busy_iff.mp hb) hidle, hidle⟩

/-- Settles O57: the run ends, or it is stuck in TX with a transport that hangs. -/
theorem onlyTxWriteHangs : Obligations.OnlyTxWriteHangs := by
  refine fun s hi hb => ⟨seqToEnd_ends hi hb, fun hbusy => ?hangs⟩
  case hangs =>
    have hne := (inv_seqRun hi (opTransitions + s.bus.takes.length)).busy_iff.mp hbusy
    have hstuck := (seqToEnd_idle_or_stuck s).resolve_left hne
    refine ⟨?_, hstuck.phase, hstuck.seqRun⟩
    rw [← (Transition.seqToEnd s).txHung]
    exact hstuck.hung

/-- Settles O58: the run from where it was stopped reaches IDLE too, and two runs to IDLE end alike. -/
theorem operationIsAtomic : Obligations.OperationIsAtomic := by
  intro s n hi hb hh
  obtain ⟨hend, -, hidle⟩ := seqToEnd_ends hi hb hh
  refine ⟨hend, ?_⟩
  have hidle' : (seqToEnd (seqRun n s)).seq.phase = .idle :=
    seqToEnd_idle ((Transition.seqRun n s).txHung.trans hh)
  rw [seqToEnd, ← seqRun_add] at hidle' ⊢
  exact seqRun_end_unique hidle' hidle

/-! ## wait (30_encoding.md R104) -/

/-- The polls end with DONE = 1 when an operation runs or has ended. -/
theorem pollUntilDone_done (ps : List Nat) {s : State} (hi : Inv s) (hh : s.bus.txHung = false)
    (h : s.status.busy = true ∨ s.status.done = true) :
    (pollUntilDone ps s).status.done = true ∧ (pollUntilDone ps s).status.busy = false := by
  induction ps generalizing s with
  | nil =>
    unfold pollUntilDone
    split_ifs with hb
    · obtain ⟨hend, hdone, -⟩ := seqToEnd_ends (s := { s with io.pace := [] }) (inv_io hi _) hb hh
      exact ⟨hdone, hend⟩
    · exact ⟨h.resolve_left hb, by simpa using hb⟩
  | cons n ps ih =>
    unfold pollUntilDone
    split_ifs with hb
    · refine ih (inv_seqRun hi n) ((Transition.seqRun n s).txHung.trans hh) ?_
      by_cases hp : (seqRun n s).seq.phase = .idle
      · exact .inr (seqRun_done (hi.busy_iff.mp hb) hp)
      · exact .inl ((inv_seqRun hi n).busy_iff.mpr hp)
    · exact ⟨h.resolve_left hb, by simpa using hb⟩

/-- With no operation running the polls change nothing. -/
theorem hostWait_idle {s : State} (h : s.status.busy = false) : hostWait s = s := by
  unfold hostWait
  cases hp : s.io.pace <;> simp only [pollUntilDone, h, Bool.false_eq_true, if_false] <;> rw [← hp]

theorem presentWait_done {s : State} (h : (hostWait s).status.done = true) :
    presentWait s = .next (hostWait s) := if_pos h

theorem presentWait_pending {s : State} (h : (hostWait s).status.done = false) :
    presentWait s = .next (pushInputs [.wait] (hostWait s)) := if_neg (by rw [h]; decide)

/-- Settles O60: wait is over or pending by the DONE that its polls leave. -/
theorem waitStatement : Obligations.WaitStatement := by
  refine ⟨fun s hi hh h => ?ends, fun s hb hd => ?repeats, fun s => ?answers⟩
  case ends =>
    obtain ⟨hdone, hidle⟩ := pollUntilDone_done s.io.pace hi hh h
    exact ⟨_, presentWait_done hdone, hdone, hidle⟩
  case repeats =>
    have hwait := hostWait_idle hb
    show presentWait s = _
    rw [presentWait_pending (by rw [hwait]; exact hd), hwait]
    rfl
  case answers =>
    have hinputs : (hostWait s).io.inputs = s.io.inputs := (Transition.hostWait s).inputs
    cases hdone : (hostWait s).status.done with
    | true => exact ⟨_, presentWait_done hdone, .inl ⟨hdone, hinputs⟩⟩
    | false =>
      refine ⟨_, presentWait_pending hdone, .inr ⟨hdone, ?_⟩⟩
      rw [pushInputs_io, hinputs]
      rfl

end Sys2Proof.Machine
end

section
/-! PROOFS. What no step takes back (20_memory.md R70, R75; 10_state.md R50): the records of the model only grow,
and every read of unwritten entries moves the counter of free values past them. -/

namespace Sys2Proof.Machine

/-- The sixteen registers (10_state.md Table 10-1). -/
theorem regNo_cases (r : RegNo) :
    r = rCmd ∨ r = rStatus ∨ r = rDevaddr ∨ r = rInstr ∨ r = rPlen ∨ r = rExplen ∨ r = rXlen ∨
      r = rXexp ∨ r = rRxlen ∨ r = rCkout ∨ r = rLasterr ∨ r = rBufidx ∨ r = rPaydata ∨
      r = rTxdata ∨ r = rRxdata ∨ r = 15 := by
  revert r; decide

/-! ## The records -/

/-- What every step keeps: the parameters and what the records hold; the counter of free values does not fall. -/
structure Appends (s t : State) : Prop where
  cfg : t.cfg = s.cfg
  wire : s.bus.wire <+: t.bus.wire
  trace : s.bus.trace <+: t.bus.trace
  reads : s.io.reads <+: t.io.reads
  draws : s.draws ≤ t.draws

theorem Transition.appends {s t : State} (h : Transition s t) : Appends s t :=
  ⟨h.cfg, h.wire, h.trace, by rw [h.reads], h.draws⟩

namespace Appends

theorem refl (s : State) : Appends s s := (Transition.refl s).appends

theorem trans {s t u : State} (h : Appends s t) (h' : Appends t u) : Appends s u :=
  ⟨h'.cfg.trans h.cfg, h.wire.trans h'.wire, h.trace.trans h'.trace, h.reads.trans h'.reads,
    h.draws.trans h'.draws⟩

/-- An update that neither the records nor the parameters are part of. -/
theorem of_same {s t : State} (hcfg : t.cfg = s.cfg) (hbus : t.bus = s.bus)
    (hreads : t.io.reads = s.io.reads) (hdraws : t.draws = s.draws) : Appends s t :=
  ⟨hcfg, by rw [hbus], by rw [hbus], by rw [hreads], hdraws.ge⟩

theorem advance (s : State) : Appends s (advance s) := (Transition.advance s).appends

theorem writeReg (r : RegNo) (v : Word) (s : State) : Appends s (writeReg r v s) := by
  by_cases hb : s.status.busy = true
  · rw [writeReg_busy hb]; exact refl s
  · unfold Machine.writeReg
    rw [if_neg hb]
    rcases regNo_cases r with
      rfl | rfl | rfl | rfl | rfl | rfl | rfl | rfl | rfl | rfl | rfl | rfl | rfl | rfl | rfl | rfl
    all_goals exact of_same rfl rfl rfl rfl

theorem hostWrite (r : RegNo) (v : Word) (s : State) : Appends s (hostWrite r v s) := by
  unfold Machine.hostWrite
  split_ifs
  · exact (Transition.writeCmd v s).appends.trans (advance _)
  · exact (writeReg r v s).trans (advance _)

theorem drawEntry_le (e : Option Byte) (k : Nat) : k ≤ (drawEntry e k).2 := by
  cases e
  · exact Nat.le_succ k
  · exact le_rfl

theorem portRead_le (size : Nat) (m : List Host.Cell) (i k : Nat) : k ≤ (portRead size m i k).2 := by
  unfold portRead
  split_ifs
  · exact drawEntry_le _ k
  · exact le_rfl

theorem readReg_le (r : RegNo) (s : State) : s.draws ≤ (readReg r s).2 := by
  have hport : ∀ size m i, s.draws ≤ (portRead size m i s.draws).2 :=
    fun size m i => portRead_le size m i s.draws
  unfold readReg
  split_ifs
  · exact Nat.le_succ _
  · rcases regNo_cases r with
      rfl | rfl | rfl | rfl | rfl | rfl | rfl | rfl | rfl | rfl | rfl | rfl | rfl | rfl | rfl | rfl
    exacts [le_rfl, le_rfl, le_rfl, le_rfl, le_rfl, le_rfl, le_rfl, le_rfl, le_rfl, le_rfl, le_rfl,
      le_rfl, hport _ _ _, hport _ _ _, hport _ _ _, le_rfl]

theorem recordRead (r : RegNo) (s : State) : Appends s (recordRead r s) :=
  ⟨rfl, List.prefix_rfl, List.prefix_rfl, List.prefix_append _ _, readReg_le r s⟩

theorem hostRead (r : RegNo) (s : State) : Appends s (hostRead r s) :=
  (recordRead r s).trans (advance _)

theorem hostRxbOk (k : Nat) (s : State) : Appends s (hostRxbOk k s) := by
  unfold Machine.hostRxbOk
  split_ifs
  · exact (hostWrite _ _ s).trans (hostRead _ _)
  · exact refl s

theorem hostWait (s : State) : Appends s (hostWait s) := (Transition.hostWait s).appends

theorem pushInputs (is : List Input) (s : State) : Appends s (pushInputs is s) :=
  of_same rfl rfl rfl rfl

theorem hostStmt (i : Input) (s : State) : Appends s (hostStmt i s) := by
  cases i with
  | write r v => exact hostWrite r v s
  | read r => exact hostRead r s
  | wait => exact hostWait s
  | rxbOk k => exact hostRxbOk k s
  | ck ctl d => exact refl s
  | packet bs => exact refl s

theorem runStmts (is : List Input) (s : State) : Appends s (runStmts is s) := by
  induction is generalizing s with
  | nil => exact refl s
  | cons i is ih =>
    unfold Machine.runStmts
    dsimp only
    split_ifs
    · exact (hostStmt i s).trans (pushInputs _ _)
    · exact (hostStmt i s).trans (ih _)

end Appends

/-- An outcome whose next state, if there is one, keeps what s holds. -/
def AppendsOutcome (s : State) (o : Host.Outcome State Fault Refusal) : Prop :=
  ∀ t, o = .next t → Appends s t

namespace AppendsOutcome

theorem next {s t : State} (h : Appends s t) : AppendsOutcome s (.next t) := by
  rintro u ⟨⟩; exact h

theorem refused (s : State) (r : Refusal) : AppendsOutcome s (.refused r) := by
  rintro u ⟨⟩

theorem of_appends {s t : State} {o : Host.Outcome State Fault Refusal} (h' : AppendsOutcome t o)
    (h : Appends s t) : AppendsOutcome s o := fun u hu => h.trans (h' u hu)

theorem runAnswering (a : Byte) (is : List Input) (s : State) :
    AppendsOutcome s (runAnswering a is s) := by
  unfold Machine.runAnswering
  split_ifs
  · exact next (Appends.runStmts is s)
  · exact refused s _

theorem runWriting (a : Byte) (k : Nat) (is : List Input) (s : State) :
    AppendsOutcome s (runWriting a k is s) := by
  unfold Machine.runWriting
  split_ifs
  · exact refused s _
  · exact refused s _
  · exact next (Appends.runStmts is s)

theorem exec (i : Instr) (s : State) : AppendsOutcome s (exec i s) := by
  cases i with
  | xchg nr | cmd nr | cmdr nr | cks nr => exact next (Transition.operate _ nr s).appends
  | ckClr en d | ckAdd d | ckHold d => exact next (.of_same rfl rfl rfl rfl)
  | ping a | read a r n => exact runAnswering a _ s
  | write a r ds | write1 a r v | write2 a r v => exact runWriting a _ _ s
  | regWrite a p | action a p | resetDevice a p | syncWrite a p => exact refused s _

theorem thenAdvance {s : State} {o : Host.Outcome State Fault Refusal} (h : AppendsOutcome s o) :
    AppendsOutcome s (thenAdvance o) := by
  cases o with
  | next t => exact next ((h t rfl).trans (.advance t))
  | fault f => cases f
  | refused r => exact refused s r

theorem presentWait (s : State) : AppendsOutcome s (presentWait s) := by
  unfold Machine.presentWait
  dsimp only
  split_ifs
  · exact next (.hostWait s)
  · exact next ((Appends.hostWait s).trans (.pushInputs _ _))

theorem present (i : Input) (s : State) : AppendsOutcome s (present i s) := by
  cases i with
  | write r v =>
    by_cases hr : r = rCmd
    · subst hr
      show AppendsOutcome s (presentCmd v s)
      unfold presentCmd
      split
      · exact exec _ s
      · exact next (.hostWrite _ v s)
    · rw [present_write hr]
      exact next (.hostWrite r v s)
  | read r => exact next (.hostRead r s)
  | rxbOk k => exact next (.hostRxbOk k s)
  | wait => exact presentWait s
  | ck ctl d =>
    show AppendsOutcome s (presentCk ctl d s)
    unfold presentCk
    split
    · exact thenAdvance (exec _ s)
    · exact refused s _
  | packet bs =>
    show AppendsOutcome s (presentPacket bs s)
    unfold presentPacket
    split
    · exact exec _ s
    · exact refused s _

theorem clocked (s : State) : AppendsOutcome s (clocked s) := by
  unfold Machine.clocked
  split
  · exact next (.advance s)
  · exact of_appends (present _ _) (.of_same rfl rfl rfl rfl)

theorem step (s : State) : AppendsOutcome s (step s) := by
  unfold Machine.step stepOnce
  split
  · exact clocked s
  · exact next (.of_same rfl rfl rfl rfl)
  · exact of_appends (clocked _) (.of_same rfl rfl rfl rfl)

end AppendsOutcome

/-! ## The counter of free values -/

/-- A data port that reads an unwritten entry gives the free value of the counter. -/
theorem readReg_port_unwritten {r : RegNo} {s : State} (hb : s.status.busy = false)
    (h : (r = rPaydata ∧ s.regs.bufidx.toNat < s.cfg.pmax ∧
        Memory.find s.buf.pbuf s.regs.bufidx.toNat = none) ∨
      (r = rTxdata ∧ s.regs.bufidx.toNat < s.cfg.xmax ∧
        Memory.find s.buf.txf s.regs.bufidx.toNat = none) ∨
      (r = rRxdata ∧ s.regs.bufidx.toNat < s.cfg.xmax ∧
        Memory.find s.buf.rxbuf s.regs.bufidx.toNat = none)) :
    readReg r s = ((Config.freeByte s.draws).setWidth 16, s.draws + 1) := by
  have hport : ∀ {size : Nat} {m : List Host.Cell}, s.regs.bufidx.toNat < size →
      Memory.find m s.regs.bufidx.toNat = none →
      (((portRead size m s.regs.bufidx.toNat s.draws).1.setWidth 16 : Word),
        (portRead size m s.regs.bufidx.toNat s.draws).2) =
        ((Config.freeByte s.draws).setWidth 16, s.draws + 1) := by
    intro size m hi hn
    rw [portRead_unwritten hi hn]
  rw [readReg_idle hb]
  rcases h with ⟨rfl, hi, hn⟩ | ⟨rfl, hi, hn⟩ | ⟨rfl, hi, hn⟩
  all_goals exact hport hi hn

/-- CHECK keeps the counter that its read of the response left. -/
theorem phaseCheck_draws {s : State} (h : curNoresp s = false) :
    (phaseCheck s).draws = (Memory.readSeq s.buf.rxbuf 0 s.regs.rxlen.toNat s.draws).2 := by
  have hafter : ∀ (c : BitVec 4) (t : State), (afterAttempt c t).draws = t.draws := by
    intro c t; unfold afterAttempt; split_ifs <;> rfl
  unfold phaseCheck
  rw [if_neg (by rw [h]; decide), hafter, noteError_eq]

/-- Settles O59: the records by the transitions and host accesses that a step is made of; the counter by the reads of
entries. -/
theorem stepOnlyAppends : Obligations.StepOnlyAppends := by
  refine ⟨fun s t h => ?records, fun m i n k => ?entries, fun r s hb => ?busy,
    fun r s hb h => readReg_port_unwritten hb h, fun s => ⟨rfl, rfl, phaseCheck_draws⟩⟩
  case records =>
    obtain ⟨hcfg, ⟨w, hw⟩, ⟨e, he⟩, ⟨r, hr⟩, hdraws⟩ := AppendsOutcome.step s t h
    exact ⟨hcfg, ⟨w, hw.symm⟩, ⟨e, he.symm⟩, ⟨r, hr.symm⟩, hdraws⟩
  case entries =>
    exact ⟨Memory.readSeq_counter m i n k, fun j hj => Memory.readSeq_getElem? m i n k hj⟩
  case busy => rw [readReg, if_pos hb]

end Sys2Proof.Machine
end

section
/-! PROOFS. What the checksum of a packet detects (40_checksum_frame.md R133, R140). -/

namespace Sys2Proof.Machine

/-! ## The unit (R133) -/

theorem ckOut_toNat (acc : Byte) : (ckOut acc).toNat = 255 - acc.toNat := by
  rw [ckOut, BitVec.toNat_not]

/-- Settles O9: the unit holds the sum of the bytes, which their order does not change, and puts out its
complement. -/
theorem unitComputesCks8 : Obligations.UnitComputesCks8 := by
  refine ⟨fun acc => ⟨rfl, ckOut_toNat acc, ?xor⟩, fun s en d bs cs h => ?unit⟩
  case xor => exact BitVec.xor_allOnes.symm
  case unit =>
    refine ⟨_, runInstrs_ckClr_ckAdd en d cs s, ?_, rfl⟩
    rw [cks8_eq_not, ← sumBytes_perm h]
    rfl

/-! ## Verification of a packet by its sum -/

/-- A packet verifies exactly when its bytes from offset 2 on sum to 0xFF, modulo 256. -/
theorem packetVerifies_iff {bs : List Byte} (h : 3 ≤ bs.length) :
    packetVerifies bs = true ↔ sumBytes (bs.drop 2) % 256 = 255 := by
  have hne : bs.drop 2 ≠ [] := by simp; omega
  have hlast : bs.getLastD 0 = (bs.drop 2).getLast hne := by
    rw [List.getLast_drop, List.getLastD_eq_getLast?, List.getLast?_eq_some_getLast, Option.getD_some]
  have hsplit := List.dropLast_concat_getLast hne
  rw [packetVerifies, verify8_iff, hlast]
  conv_rhs => rw [← hsplit, sumBytes_append]
  simp [sumBytes]

theorem packetVerifies_eq_false_iff {bs : List Byte} (h : 3 ≤ bs.length) :
    packetVerifies bs = false ↔ sumBytes (bs.drop 2) % 256 ≠ 255 := by
  rw [← Bool.not_eq_true, packetVerifies_iff h]

/-- One byte changed changes the sum by the difference. -/
theorem sumBytes_set {s : List Byte} {k : Nat} (hk : k < s.length) (v : Byte) :
    sumBytes (s.set k v) + (s.getD k 0).toNat = sumBytes s + v.toNat := by
  induction s generalizing k with
  | nil => exact absurd hk (Nat.not_lt_zero k)
  | cons b s ih =>
    cases k with
    | zero => simp only [List.set_cons_zero, List.getD_cons_zero, sumBytes]; omega
    | succ k =>
      have := ih (Nat.lt_of_succ_lt_succ hk)
      simp only [List.set_cons_succ, List.getD_cons_succ, sumBytes]; omega

/-- The same for a byte of a packet at offset 2 or later. -/
theorem sumBytes_drop_set {bs : List Byte} {k : Nat} (h2 : 2 ≤ k) (hk : k < bs.length) (v : Byte) :
    sumBytes ((bs.set k v).drop 2) + (bs.getD k 0).toNat = sumBytes (bs.drop 2) + v.toNat := by
  have hget : (bs.drop 2).getD (k - 2) 0 = bs.getD k 0 := by
    rw [List.getD_eq_getElem?_getD, List.getElem?_drop, Nat.add_sub_cancel' h2,
      ← List.getD_eq_getElem?_getD]
  rw [List.drop_set, if_neg (by omega), ← hget]
  exact sumBytes_set (by rw [List.length_drop]; omega) v

/-- Settles O10: verification looks at the sum of the bytes from offset 2 on, modulo 256, and at nothing else. -/
theorem detectionPower : Obligations.DetectionPower := by
  intro bs hlen hver
  have hsum := (packetVerifies_iff (by omega)).mp hver
  refine ⟨fun k v h2 hk hne => ?oneByte, fun j k v w h2 hjk hk hvw => ?twoBytes,
    fun m0 m1 => ?markers, fun cs hcs => ?order⟩
  case oneByte =>
    have hset := sumBytes_drop_set h2 hk v
    have hv := v.isLt
    have hb := (bs.getD k 0).isLt
    have hne' : v.toNat ≠ (bs.getD k 0).toNat := fun h => hne (BitVec.eq_of_toNat_eq h)
    rw [packetVerifies_eq_false_iff (by rw [List.length_set]; omega)]
    omega
  case twoBytes =>
    have hsetj := sumBytes_drop_set h2 (hjk.trans hk) v
    have hsetk := sumBytes_drop_set (bs := bs.set j v) (k := k) (by omega) (by rw [List.length_set]; exact hk) w
    have hget : (bs.set j v).getD k 0 = bs.getD k 0 := by
      rw [List.getD_eq_getElem?_getD, List.getElem?_set_ne (by omega), ← List.getD_eq_getElem?_getD]
    have hvw' := congrArg BitVec.toNat hvw
    rw [BitVec.toNat_add, BitVec.toNat_add] at hvw'
    rw [hget] at hsetk
    rw [packetVerifies_iff (by simp only [List.length_set]; omega)]
    omega
  case markers =>
    rw [packetVerifies_iff (by simp; omega)]
    exact hsum
  case order =>
    have hlen2 : (bs.take 2).length = 2 := by rw [List.length_take]; omega
    rw [packetVerifies_iff (by rw [List.length_append, hlen2, hcs.length_eq, List.length_drop]; omega),
      List.drop_left' hlen2, sumBytes_perm hcs]
    exact hsum

end Sys2Proof.Machine
end

section
/-! PROOFS. The host register port as a whole (10_state.md section 1; section 2, R38): CMD, every register read
with BUSY = 0 and with BUSY = 1, reserved bits, and the truncation of writes. -/

namespace Sys2Proof.Machine

/-! ## CMD (R21) -/

theorem readReg_cmd (s : State) : (readReg rCmd s).1 = 0 := by
  unfold readReg
  split_ifs <;> rfl

/-- Settles O14: CMD is written by `writeCmd`, which drops the word or accepts the GO. -/
theorem cmdRegister : Obligations.CmdRegister := by
  refine fun w s => ⟨fun h => ?dropped, advance_idle, fun ps hgo hb hpace => ?accepted, readReg_cmd s⟩
  case dropped =>
    rw [present_cmd]
    rcases h with h | h
    · rw [writeCmd_not_go h]
    · rw [writeCmd_busy h]
  case accepted =>
    rw [present_cmd, writeCmd_go hgo, hb, if_neg Bool.false_ne_true]
    simp only [advance, acceptGo_status, acceptGo_io, hpace, if_true, seqRun]
    rfl

/-! ## Fields and reserved bits (R20) -/

/-- A field of n bits has no bit above them. -/
theorem setWidth_reserved {n : Nat} (x : BitVec n) :
    (x.setWidth 16 : Word) &&& ~~~((BitVec.allOnes n).setWidth 16) = 0 := by
  apply BitVec.eq_of_getLsbD_eq
  intro i hi
  by_cases h : i < n
  · simp [hi, h]
  · simp [hi, BitVec.getLsbD_of_ge x i (by omega)]

theorem byte_reserved (b : Byte) : (b.setWidth 16 : Word) &&& ~~~(0x00FF) = 0 := setWidth_reserved b

theorem len_reserved (l : Len) : (l.setWidth 16 : Word) &&& ~~~(0x01FF) = 0 := setWidth_reserved l

theorem masked_reserved (f m : Word) : (f &&& m) &&& ~~~m = 0 := by
  rw [BitVec.and_assoc, BitVec.and_not_self]; exact BitVec.and_zero

theorem statusWordBusy_reserved (t : Status) (f : Word) :
    statusWordBusy t f &&& ~~~(0x0F0F) = 0 := by
  have hfree : ∀ m : Word, m &&& ~~~(0x0F0F) = 0 → (f &&& m) &&& ~~~(0x0F0F) = 0 := by
    intro m hm; rw [BitVec.and_assoc, hm]; exact BitVec.and_zero
  have hdone : (bitWord t.done <<< 1) &&& ~~~(0x0F0F) = 0 := by cases t.done <;> rfl
  have hbusy : bitWord t.busy &&& ~~~(0x0F0F) = 0 := by cases t.busy <;> rfl
  rw [statusWordBusy, BitVec.and_or_distrib_right, BitVec.and_or_distrib_right, hfree, hdone, hbusy]
  · rfl
  · decide

theorem readRegIdle_reserved (r : RegNo) (s : State) :
    (readRegIdle r s).1 &&& ~~~(fieldMask r) = 0 := by
  rcases regNo_cases r with
    rfl | rfl | rfl | rfl | rfl | rfl | rfl | rfl | rfl | rfl | rfl | rfl | rfl | rfl | rfl | rfl
  exacts [BitVec.zero_and, statusWord_reserved _, byte_reserved _, byte_reserved _, byte_reserved _,
    byte_reserved _, len_reserved _, len_reserved _, len_reserved _, byte_reserved _,
    byte_reserved _, len_reserved _, byte_reserved _, byte_reserved _, byte_reserved _, BitVec.zero_and]

theorem readRegBusy_reserved (r : RegNo) (f : Word) (s : State) :
    readRegBusy r f s &&& ~~~(fieldMask r) = 0 := by
  rcases regNo_cases r with
    rfl | rfl | rfl | rfl | rfl | rfl | rfl | rfl | rfl | rfl | rfl | rfl | rfl | rfl | rfl | rfl
  exacts [BitVec.zero_and, statusWordBusy_reserved _ _, byte_reserved _, byte_reserved _, byte_reserved _,
    byte_reserved _, masked_reserved _ _, masked_reserved _ _, masked_reserved _ _,
    masked_reserved _ _, masked_reserved _ _, len_reserved _, masked_reserved _ _,
    masked_reserved _ _, masked_reserved _ _, BitVec.zero_and]

theorem readReg_busy {r : RegNo} {s : State} (h : s.status.busy = true) :
    readReg r s = (readRegBusy r (Config.freeWord s.draws) s, s.draws + 1) := if_pos h

theorem readReg_reserved (r : RegNo) (s : State) : (readReg r s).1 &&& ~~~(fieldMask r) = 0 := by
  cases h : s.status.busy with
  | true => rw [readReg_busy h]; exact readRegBusy_reserved r _ s
  | false => rw [readReg_idle h]; exact readRegIdle_reserved r s

/-! ## Presented reads -/

theorem present_read_idle {s : State} (h : s.status.busy = false) (r : RegNo) :
    present (.read r) s = .next (recordRead r s) := by
  rw [present, hostRead, advance_idle]
  rw [recordRead_status, h]

theorem present_read_busy {s : State} (h : s.status.busy = true) (r : RegNo) :
    present (.read r) s =
      .next (advance { s with io.reads := s.io.reads ++ [(readReg r s).1], draws := s.draws + 1 }) := by
  rw [present, hostRead, recordRead, readReg_busy h]

/-! ## Writes (R20) -/

theorem writeReg_xlen {v : Word} {s : State} (h : s.status.busy = false) :
    writeReg rXlen v s = { s with regs.xlen := v.setWidth 9 } := by
  simp [writeReg, h, rXlen, rExplen, rPlen, rInstr, rDevaddr]

theorem writeReg_xexp {v : Word} {s : State} (h : s.status.busy = false) :
    writeReg rXexp v s = { s with regs.xexp := v.setWidth 9 } := by
  simp [writeReg, h, rXexp, rXlen, rExplen, rPlen, rInstr, rDevaddr]

/-- The bits of a field of n bits are those that the field's mask leaves. -/
theorem setWidth_masked {n : Nat} (v : Word) :
    (v &&& (BitVec.allOnes n).setWidth 16).setWidth n = v.setWidth n := by
  apply BitVec.eq_of_getLsbD_eq
  intro i hi
  by_cases h : i < 16
  · simp [hi, h]
  · simp [BitVec.getLsbD_of_ge v i (by omega)]

theorem setWidth_byte_masked (v : Word) : (v &&& 0x00FF).setWidth 8 = v.setWidth 8 :=
  setWidth_masked v

theorem setWidth_len_masked (v : Word) : (v &&& 0x01FF).setWidth 9 = v.setWidth 9 :=
  setWidth_masked v

/-- The registers that the host cannot write, and those with a field of 8 and of 9 bits (Table 10-1). -/
theorem field_cases {r : RegNo} (hr : r ≠ rCmd) :
    (r = rStatus ∨ r = rRxlen ∨ r = rCkout ∨ r = rLasterr ∨ r = rRxdata ∨ r = 15) ∨
      (fieldMask r = 0x00FF ∧ (r = rDevaddr ∨ r = rInstr ∨ r = rPlen ∨ r = rExplen ∨ r = rPaydata ∨
        r = rTxdata)) ∨
      (fieldMask r = 0x01FF ∧ (r = rXlen ∨ r = rXexp ∨ r = rBufidx)) := by
  revert r; decide

/-- A write truncates to the register's field. -/
theorem writeReg_masked {r : RegNo} (hr : r ≠ rCmd) (v : Word) (s : State) :
    writeReg r (v &&& fieldMask r) s = writeReg r v s := by
  cases hb : s.status.busy with
  | true => rw [writeReg_busy hb, writeReg_busy hb]
  | false =>
    rcases field_cases hr with hro | ⟨hmask, hbyte⟩ | ⟨hmask, hlen⟩
    · rw [writeReg_readOnly hro, writeReg_readOnly hro]
    · rw [hmask]
      rcases hbyte with rfl | rfl | rfl | rfl | rfl | rfl
      · rw [writeReg_devaddr hb, writeReg_devaddr hb, setWidth_byte_masked]
      · rw [writeReg_instr hb, writeReg_instr hb, setWidth_byte_masked]
      · rw [writeReg_plen hb, writeReg_plen hb, setWidth_byte_masked]
      · rw [writeReg_explen hb, writeReg_explen hb, setWidth_byte_masked]
      · rw [writeReg_paydata hb, writeReg_paydata hb, setWidth_byte_masked]
      · rw [writeReg_txdata hb, writeReg_txdata hb, setWidth_byte_masked]
    · rw [hmask]
      rcases hlen with rfl | rfl | rfl
      · rw [writeReg_xlen hb, writeReg_xlen hb, setWidth_len_masked]
      · rw [writeReg_xexp hb, writeReg_xexp hb, setWidth_len_masked]
      · rw [writeReg_bufidx hb, writeReg_bufidx hb, setWidth_len_masked]

theorem present_write_masked {r : RegNo} (hr : r ≠ rCmd) (v : Word) (s : State) :
    present (.write r v) s = present (.write r (v &&& fieldMask r)) s := by
  rw [present_write hr, present_write hr, hostWrite, hostWrite, if_neg hr, if_neg hr,
    writeReg_masked hr]

/-- While BUSY = 1 a write does what no write would do (R38). -/
theorem present_write_busy {s : State} (h : s.status.busy = true) (r : RegNo) (v : Word) :
    present (.write r v) s = .next (advance s) := by
  by_cases hr : r = rCmd
  · rw [hr, present_cmd, writeCmd_busy h]
  · rw [present_write hr, hostWrite, if_neg hr, writeReg_busy h]

/-! ## The statements -/

/-- Settles O16: a read records a value within the register's field, and a write is one of its field. -/
theorem registerPort : Obligations.RegisterPort := by
  refine fun r s => ⟨fun hb => present_read_idle hb r, fun hb => present_read_busy hb r,
    fun hb => ?values, readReg_reserved r s, fun hr v => present_write_masked hr v s⟩
  case values =>
    simp only [readReg_idle hb]
    exact ⟨rfl, rfl, rfl, rfl, rfl, rfl, rfl, rfl, rfl, rfl⟩

/-- Settles O17: an idle block takes a write at once and no transition follows. -/
theorem registerWrites : Obligations.RegisterWrites := by
  intro v s hb
  refine ⟨?_, ?_, ?_, ?_, ?_, ?_, ?_, fun r hr => ?readOnly⟩
  case readOnly =>
    have hne : r ≠ rCmd := by revert r; decide
    rw [present_write_idle hne hb, writeReg_readOnly hr]
  all_goals rw [present_write_idle (by decide) hb]
  · rw [writeReg_devaddr hb]
  · rw [writeReg_instr hb]
  · rw [writeReg_plen hb]
  · rw [writeReg_explen hb]
  · rw [writeReg_xlen hb]
  · rw [writeReg_xexp hb]
  · rw [writeReg_bufidx hb]

/-- While BUSY = 1 a register without a stored value of its own reads as the free word, within its field. -/
theorem readRegBusy_free {r : RegNo} (hs : r ≠ rStatus) (hd : r ≠ rDevaddr) (hi : r ≠ rInstr)
    (hp : r ≠ rPlen) (he : r ≠ rExplen) (hb : r ≠ rBufidx) (f : Word) (s : State) :
    readRegBusy r f s = f &&& fieldMask r := by
  have hfree : r = rCmd ∨ r = 15 ∨ (r = rXlen ∨ r = rXexp ∨ r = rRxlen) ∨
      (r = rCkout ∨ r = rLasterr ∨ r = rPaydata ∨ r = rTxdata ∨ r = rRxdata) := by
    revert r; decide
  rcases hfree with rfl | rfl | (rfl | rfl | rfl) | (rfl | rfl | rfl | rfl | rfl)
  · exact BitVec.and_zero.symm
  · exact BitVec.and_zero.symm
  all_goals rfl

/-- Settles O18: a write is lost, a read takes the stored value or the free word. -/
theorem busyAccess : Obligations.BusyAccess := by
  intro s hb
  refine ⟨present_write_busy hb, present_read_busy hb, ?busy, ?done, ?_, ?_, ?_, ?_, ?_,
    fun r hs hd hi hp he hx => ?free⟩
  case busy => rw [readReg_status_busy hb, statusWordBusy_getLsbD _ _ _ (by decide)]; simp
  case done => rw [readReg_status_busy hb, statusWordBusy_getLsbD _ _ _ (by decide)]; simp
  case free => rw [readReg_busy hb]; exact readRegBusy_free hs hd hi hp he hx _ s
  all_goals rw [readReg_busy hb]; rfl

end Sys2Proof.Machine
end

section
/-! PROOFS. The four host operations against their pseudocode (40_checksum_frame.md R138; 41_exchange.md R150;
42_command.md R170, R171), with BAD_CMD (60_exceptions.md R245) and the checksum that CKS leaves. -/

namespace Sys2Proof.Machine

/-! ## CKS and XCHG -/

section
variable {nr : Bool} {s : State}

theorem runCks_illegal (h : badDescriptor nr s = true) :
    runCks nr s = endOperation codeBadCmd (accepted .cks nr s) := if_pos h

theorem runCks_legal (h : badDescriptor nr s = false) :
    runCks nr s =
      endOperation codeOk { buildFrame (accepted .cks nr s) with regs.rxlen := 0 } :=
  if_neg (by rw [h]; decide)

/-- CKS on a block that is ready leaves what its pseudocode leaves (R138). -/
theorem exec_cks_runCks (hs : Ready s) :
    ∃ q, AtRest .cks nr false q ∧ exec (.cks nr) s = .next { runCks nr s with seq := q } := by
  refine ⟨_, atRest_accepted .cks nr s, ?_⟩
  cases h : badDescriptor nr s with
  | true => rw [exec_cks_illegal hs h, runCks_illegal h]; rfl
  | false => rw [exec_cks_legal hs h, runCks_legal h]; rfl

theorem runXchg_illegal (h : badLengths s = true) :
    runXchg nr s = endOperation codeBadCmd (accepted .xchg nr s) := if_pos h

theorem runXchg_legal (h : badLengths s = false) :
    runXchg nr s = endOperation codeOk (exchangeFrame (accepted .xchg nr s)).2 :=
  if_neg (by rw [h]; decide)

/-- XCHG on a block that is ready leaves what its pseudocode leaves (R150, R151). -/
theorem exec_xchg_runXchg (hs : Ready s) :
    ∃ q, AtRest .xchg nr false q ∧ exec (.xchg nr) s = .next { runXchg nr s with seq := q } := by
  cases h : badLengths s with
  | true =>
    have hbad : badCmd (accepted .xchg nr s) = true := by rw [accepted_badCmd]; exact h
    refine ⟨_, atRest_accepted .xchg nr s, ?_⟩
    rw [exec, execXchg, operate_illegal hs hbad, runXchg_illegal h]
    rfl
  | false =>
    refine ⟨_, atRest_exchanged .xchg nr s, ?_⟩
    rw [exec_xchg_legal hs h, runXchg_legal h]
    rfl

end

/-- Settles O21: BUILD is the one transition of CKS, for a legal and for an illegal descriptor. -/
theorem cksFollowsPseudocode : Obligations.CksFollowsPseudocode := fun _ _ hs => exec_cks_runCks hs

/-- Settles O22: the phases of one exchange do what Exchange says. -/
theorem xchgFollowsPseudocode : Obligations.XchgFollowsPseudocode := fun _ _ hs => exec_xchg_runXchg hs

/-- Settles O23: CMD is BUILD and one attempt. -/
theorem cmdFollowsPseudocode : Obligations.CmdFollowsPseudocode := fun nr _ hs => exec_cmd_runCmd nr hs

/-- Settles O24: CMDR is BUILD, one attempt and, when it fails, the retry step and another. -/
theorem cmdrFollowsPseudocode : Obligations.CmdrFollowsPseudocode :=
  fun nr _ hs => exec_cmdr_runCmdr nr hs

/-! ## The four operations together -/

/-- The pseudocode of an operation. -/
def runOp : HostOp → Bool → State → State
  | .xchg => runXchg
  | .cmd => runCmd
  | .cmdr => runCmdr
  | .cks => runCks

/-- An operation on a block that is ready leaves what its pseudocode leaves, but for the sequencer. -/
theorem exec_runOp (op : HostOp) (nr : Bool) {s : State} (hs : Ready s) :
    ∃ q, exec (op.instr nr) s = .next { runOp op nr s with seq := q } := by
  cases op with
  | xchg => obtain ⟨q, -, h⟩ := exec_xchg_runXchg (nr := nr) hs; exact ⟨q, h⟩
  | cmd => obtain ⟨q, -, h⟩ := exec_cmd_runCmd nr hs; exact ⟨q, h⟩
  | cmdr => obtain ⟨q, -, h⟩ := exec_cmdr_runCmdr nr hs; exact ⟨q, h⟩
  | cks => obtain ⟨q, -, h⟩ := exec_cks_runCks (nr := nr) hs; exact ⟨q, h⟩

theorem runOp_illegal {op : HostOp} {nr : Bool} {s : State} (h : badCmd (accepted op nr s) = true) :
    runOp op nr s = endOperation codeBadCmd (accepted op nr s) := by
  rw [accepted_badCmd] at h
  cases op with
  | xchg => exact runXchg_illegal h
  | cmd => exact runCmd_illegal h
  | cmdr => exact runCmdr_illegal h
  | cks => exact runCks_illegal h

/-! ## BAD_CMD (60_exceptions.md R245) -/

theorem verdict_ne_badCmd (c : Config) (n : Nat) (rx : List Byte) : verdict c n rx ≠ codeBadCmd := by
  unfold verdict
  split_ifs <;> decide

theorem codeOk_ne_badCmd : codeOk ≠ codeBadCmd := by decide

/-- No attempt ends with BAD_CMD. -/
theorem attempt_ne_badCmd (nr : Bool) (s : State) : (attempt nr s).1 ≠ codeBadCmd := by
  cases nr with
  | true => exact codeOk_ne_badCmd
  | false => rw [attempt_eq]; exact verdict_ne_badCmd _ _ _

/-- An operation that can be carried out ends with another code. -/
theorem runOp_legal_code {op : HostOp} {nr : Bool} {s : State}
    (h : badCmd (accepted op nr s) = false) : (runOp op nr s).status.code ≠ codeBadCmd := by
  rw [accepted_badCmd] at h
  cases op with
  | xchg => rw [runOp, runXchg_legal h]; exact codeOk_ne_badCmd
  | cks => rw [runOp, runCks_legal h]; exact codeOk_ne_badCmd
  | cmd => rw [runOp, runCmd_legal h]; exact attempt_ne_badCmd _ _
  | cmdr =>
    by_cases hok : (firstAttempt .cmdr nr s).1 = codeOk
    · rw [runOp, runCmdr_once h hok]; exact codeOk_ne_badCmd
    · rw [runOp, runCmdr_twice h hok]; exact attempt_ne_badCmd _ _

/-- The accepted GO of an operation that cannot be carried out: BUILD ends it before anything is written. -/
theorem advance_illegal {o : BitVec 3} {r : Bool} {s : State} (hs : Ready s)
    (h : badCmd (acceptGo o r s) = true) :
    advance (acceptGo o r s) = endOperation codeBadCmd (acceptGo o r s) := by
  have hstep : seqStep (acceptGo o r s) = endOperation codeBadCmd (acceptGo o r s) := by
    simp only [seqStep, acceptGo_seq, phaseBuild, h, if_true]
  have hpace : (acceptGo o r s).io.pace = [] := hs.pace
  simp only [advance, acceptGo_status, hpace, if_true, seqToEnd]
  exact seqRun_over (k := 1) hstep rfl (by rw [opTransitions]; omega)

/-- R245 e on the lengths of XCHG. -/
theorem badLengths_iff (s : State) :
    badLengths s = true ↔ s.cfg.xmax < s.regs.xlen.toNat ∨ s.cfg.xmax < s.regs.xexp.toNat := by
  simp [badLengths]

/-- R245 b, c, d on the descriptor of CMD, CMDR and CKS. -/
theorem badDescriptor_iff (nr : Bool) (s : State) :
    badDescriptor nr s = true ↔ s.regs.devaddr = 255 ∨ s.cfg.pmax < s.regs.plen.toNat ∨
      (nr = false ∧ s.cfg.emax < s.regs.explen.toNat) := by
  simp [badDescriptor, or_assoc]

/-- The fields of an operation's word at their places (30_encoding.md Table 30-5). -/
theorem encodeCmd_bits (op : HostOp) (nr : Bool) :
    (encodeCmd op.bits nr).extractLsb' 3 12 = 0 ∧ (encodeCmd op.bits nr).extractLsb' 0 2 = op.bits ∧
      (encodeCmd op.bits nr).getLsbD 2 = nr := by
  cases op <;> cases nr <;> decide

/-- The conditions of R245 on the word are those that BUILD checks. -/
theorem illegal_iff {w : Word} (hgo : cmdGo w = true) (s : State) :
    Illegal w s ↔ badCmd (acceptGo (cmdOpl w) (cmdReserved w) s) = true := by
  cases hres : cmdReserved w with
  | true =>
    have hbits : w.extractLsb' 3 12 ≠ 0 := bne_iff_ne.mp hres
    exact iff_of_true (.inl hbits) rfl
  | false =>
    obtain ⟨op, nr, rfl⟩ := exists_encodeCmd hgo hres
    obtain ⟨hzero, hop, hnr⟩ := encodeCmd_bits op nr
    show _ ↔ badCmd (accepted op nr s) = true
    rw [Illegal, hzero, hop, hnr, accepted_badCmd]
    cases op with
    | xchg => simpa [HostOp.bits] using (badLengths_iff s).symm
    | cmd | cmdr | cks => simpa [HostOp.bits] using (badDescriptor_iff nr s).symm

/-- Settles O36: an illegal word ends in BUILD, and any other is the word of an operation that runs. -/
theorem badCommand : Obligations.BadCommand := by
  intro w s hs hgo
  have haccept : present (.write rCmd w) s =
      .next (advance (acceptGo (cmdOpl w) (cmdReserved w) s)) := by
    rw [present_cmd, writeCmd_go hgo, hs.idle, if_neg Bool.false_ne_true]
  refine ⟨fun h => ?illegal, fun h => ?legal⟩
  case illegal =>
    rw [haccept, advance_illegal hs ((illegal_iff hgo s).mp h)]
    rfl
  case legal =>
    have hgood := eq_false_of_ne_true (mt (illegal_iff hgo s).mpr h)
    have hres : cmdReserved w = false := (Bool.or_eq_false_iff.mp hgood).1
    obtain ⟨op, nr, rfl⟩ := exists_encodeCmd hgo hres
    rw [hres] at hgood
    obtain ⟨q, hrun⟩ := exec_runOp op nr hs
    rw [exec_hostOp, operate] at hrun
    rw [present_cmd]
    exact ⟨_, hrun, runOp_legal_code (op := op) (nr := nr) hgood⟩

/-! ## The checksum that CKS leaves (95_test_vectors.md, property 1) -/

theorem sumBytes_covered (a i : Byte) (p : List Byte) :
    sumBytes (covered a i p) = a.toNat + (p.length + 2) % 256 + i.toNat + sumBytes p := by
  simp only [covered, sumBytes, lenByte, BitVec.toNat_ofNat]
  omega

/-- The last byte of a frame is its checksum. -/
theorem frame_getD_checksum (a i : Byte) (p : List Byte) :
    (frame a i p).getD (p.length + 5) 0 = cks8 (covered a i p) := by
  have hlen : (covered a i p).length = p.length + 3 := by simp [covered]
  show (covered a i p ++ [cks8 (covered a i p)]).getD (p.length + 3) 0 = _
  rw [List.getD_eq_getElem?_getD, ← hlen, List.getElem?_concat_length, Option.getD_some]

/-- From offset 2 on a frame sums to 0xFF, modulo 256. -/
theorem sumBytes_frame (a i : Byte) (p : List Byte) : sumBytes ((frame a i p).drop 2) % 256 = 255 := by
  simp only [frame, framed, List.drop_succ_cons, List.drop_zero, sumBytes_append, sumBytes, cks8_toNat]
  omega

/-- Settles O27: CKS leaves the frame of the descriptor in TXF and its last byte in CKOUT. -/
theorem checksumProperty : Obligations.ChecksumProperty := by
  intro nr s hs h
  obtain ⟨hlegal, -, -⟩ := cksResult nr s hs
  obtain ⟨q, -, hrun⟩ := hlegal h
  refine ⟨_, hrun, ?ckout, fun j hj => ?frame, sumBytes_frame _ _ _⟩
  case ckout =>
    have hck := frame_getD_checksum s.regs.devaddr s.regs.instr (payload s.regs.plen.toNat s)
    rw [payload_length, cks8_eq_not, sumBytes_covered, payload_length] at hck
    exact hck
  case frame =>
    show Memory.find (Memory.writeSeq s.buf.txf 0 (builtFrame s)) j = _
    rw [Memory.find_writeSeq, if_pos (by rw [builtFrame_length]; omega), Nat.sub_zero]

end Sys2Proof.Machine
end

section
/-! PROOFS. What the host operations never write (10_state.md R44 to R46; 42_command.md R170), and the retry of CMDR
in full (42_command.md R171, R176). -/

namespace Sys2Proof.Machine

/-! ## The LASTERR file -/

/-- The LASTERR file is in canonical form. -/
def LasterrWf (s : State) : Prop := Memory.wf (some s.cfg.noStatus) s.cfg.naddr s.buf.lasterr = true

/-- A lookup depends on the file and the parameters alone. -/
theorem lastErr_congr {s t : State} (hcfg : t.cfg = s.cfg) (h : t.buf.lasterr = s.buf.lasterr)
    (b : Nat) : lastErr t b = lastErr s b := by
  unfold lastErr; rw [hcfg, h]

theorem LasterrWf.setLastErr {s : State} (h : LasterrWf s) (a : Nat) (e : Byte) :
    LasterrWf (setLastErr s a e) := by
  unfold Machine.setLastErr
  split_ifs with ha
  · exact Memory.wf_write h ha
  · exact h

/-- A write of one entry, read back through any address; an address without an entry takes nothing. -/
theorem lastErr_setLastErr_entry {s : State} (h : LasterrWf s) (a : Nat) (e : Byte) (b : Nat) :
    lastErr (setLastErr s a e) b = if b = a ∧ a < s.cfg.naddr then e else lastErr s b := by
  by_cases ha : a < s.cfg.naddr
  · let s' : State := { s with buf := { s.buf with pbuf := [], txf := [], rxbuf := [] } }
    have hset := lastErr_setLastErr (s := s') ⟨h, rfl, rfl, rfl⟩ ha e b
    rw [Machine.setLastErr, if_pos ha] at hset ⊢
    simp only [ha, and_true]
    exact hset
  · rw [Machine.setLastErr, if_neg ha, if_neg fun hb => ha hb.2]

theorem LasterrWf.noteError {s : State} (h : LasterrWf s) (c : BitVec 4) (rx : List Byte) :
    LasterrWf (noteError c rx s) := by
  unfold Machine.noteError
  split_ifs
  · exact h.setLastErr _ _
  · exact h

/-- A validated response writes the entry of the addressed device alone. -/
theorem lastErr_noteError {s : State} (h : LasterrWf s) (c : BitVec 4) (rx : List Byte) (b : Nat) :
    lastErr (noteError c rx s) b =
      if (c = codeOk ∨ c = codeDevErr) ∧ b = s.regs.devaddr.toNat ∧
          s.regs.devaddr.toNat < s.cfg.naddr then rx.getD 4 0
      else lastErr s b := by
  unfold noteError
  split_ifs with hc h1 h2
  · rw [lastErr_setLastErr_entry h, if_pos h1.2]
  · rw [lastErr_setLastErr_entry h, if_neg fun hb => h1 ⟨hc, hb⟩]
  · exact absurd h2.1 hc
  · rfl

/-! ## The frame of an exchange and of an attempt -/

/-- The exchange of the frame in TXF, written or not, in closed form. -/
theorem exchangeFrame_closed (s : State) :
    exchangeFrame s =
      (responseRead (readFrame s).1.length s.regs.xexp.toNat s,
        { s with
          regs.rxlen :=
            BitVec.ofNat 9 (responseRead (readFrame s).1.length s.regs.xexp.toNat s).length
          status.anom :=
            s.status.anom || anomaly (readFrame s).1 (echoRead (readFrame s).1.length s)
          buf.rxbuf :=
            Memory.writeSeq s.buf.rxbuf 0 (responseRead (readFrame s).1.length s.regs.xexp.toNat s)
          bus := busAfter (readFrame s).1 s.regs.xexp.toNat s
          draws := (readFrame s).2 }) := by
  simp only [exchangeFrame, exchange_eq]
  rfl

/-- What an attempt, or an exchange alone, keeps from s to t: only RXLEN of the registers, RXBUF and LASTERR of the
files, ANOM, the transport and the counter of free values may change. -/
structure AttemptKeeps (s t : State) : Prop where
  cfg : t.cfg = s.cfg
  io : t.io = s.io
  acc : t.acc = s.acc
  regs : t.regs = { s.regs with rxlen := t.regs.rxlen }
  status : t.status = { s.status with anom := t.status.anom }
  pbuf : t.buf.pbuf = s.buf.pbuf
  txf : t.buf.txf = s.buf.txf
  /-- RXLEN counts the response, which XEXP bounds. -/
  response : t.regs.rxlen.toNat ≤ s.regs.xexp.toNat
  rxbuf : ∀ j, t.regs.rxlen.toNat ≤ j → Memory.find t.buf.rxbuf j = Memory.find s.buf.rxbuf j
  lasterr : LasterrWf s → LasterrWf t ∧
    ∀ b, b ≠ s.regs.devaddr.toNat → lastErr t b = lastErr s b

theorem exchangeFrame_attemptKeeps (s : State) :
    AttemptKeeps s (exchangeFrame s).2 ∧ (exchangeFrame s).2.buf.lasterr = s.buf.lasterr := by
  rw [exchangeFrame_closed]
  set rx := responseRead (readFrame s).1.length s.regs.xexp.toNat s
  have hle : rx.length ≤ s.regs.xexp.toNat := responseRead_length_le _ _ s
  have hrx : (BitVec.ofNat 9 rx.length).toNat = rx.length := by
    have := s.regs.xexp.isLt
    rw [BitVec.toNat_ofNat]; omega
  refine ⟨⟨rfl, rfl, rfl, rfl, rfl, rfl, rfl, ?response, fun j hj => ?rxbuf,
    fun h => ⟨h, fun _ _ => rfl⟩⟩, rfl⟩
  case response => exact hrx.trans_le hle
  case rxbuf =>
    have hj : rx.length ≤ j := hrx.symm.trans_le hj
    rw [Memory.find_writeSeq, if_neg (by omega)]

theorem attempt_attemptKeeps (nr : Bool) (s : State) : AttemptKeeps s (attempt nr s).2 := by
  obtain ⟨hx, -⟩ := exchangeFrame_attemptKeeps s
  cases nr with
  | true => exact hx
  | false =>
    have hdev : (exchangeFrame s).2.regs.devaddr = s.regs.devaddr := by rw [hx.regs]
    have hlast : LasterrWf s → LasterrWf (attempt false s).2 ∧
        ∀ b, b ≠ s.regs.devaddr.toNat → lastErr (attempt false s).2 b = lastErr s b := by
      intro h
      obtain ⟨hwf, hother⟩ := hx.lasterr h
      rw [attempt_eq]
      refine ⟨hwf.noteError _ _, fun b hb => ?_⟩
      rw [lastErr_noteError hwf, hdev, if_neg fun hc => hb hc.2.1, hother b hb]
    rw [attempt_eq, noteError_eq] at hlast ⊢
    exact ⟨hx.cfg, hx.io, hx.acc, hx.regs, hx.status, hx.pbuf, hx.txf, hx.response, hx.rxbuf, hlast⟩

/-- Settles O40: XCHG is its exchange, or BAD_CMD alone. -/
theorem xchgFrame : Obligations.XchgFrame := by
  intro nr s hs
  obtain ⟨q, -, hrun⟩ := exec_xchg_runXchg (nr := nr) hs
  refine ⟨_, hrun, ?_⟩
  cases h : badLengths s with
  | true =>
    rw [runXchg_illegal h]
    exact ⟨rfl, rfl, rfl, fun _ _ => rfl, rfl, rfl, rfl⟩
  | false =>
    obtain ⟨hx, hles⟩ := exchangeFrame_attemptKeeps (accepted .xchg nr s)
    rw [runXchg_legal h]
    refine ⟨hx.regs, hx.acc, ?buf, hx.rxbuf, hx.io, hx.cfg, ?retried⟩
    case buf =>
      show (exchangeFrame (accepted .xchg nr s)).2.buf = _
      rw [exchangeFrame_closed]
      rfl
    case retried =>
      show (exchangeFrame (accepted .xchg nr s)).2.status.retried = false
      rw [hx.status]
      rfl

/-! ## The frame of CKS, CMD and CMDR -/

/-- What CKS, CMD and CMDR keep from s to t; BUILD keeps as much. -/
structure CommandKeeps (s t : State) : Prop where
  cfg : t.cfg = s.cfg
  io : t.io = s.io
  regs : t.regs = { s.regs with
    xlen := t.regs.xlen, xexp := t.regs.xexp, rxlen := t.regs.rxlen, ckout := t.regs.ckout }
  pbuf : t.buf.pbuf = s.buf.pbuf
  txf : ∀ j, s.regs.plen.toNat + 6 ≤ j → Memory.find t.buf.txf j = Memory.find s.buf.txf j
  rxbuf : ∀ j, s.regs.explen.toNat + 6 ≤ j → Memory.find t.buf.rxbuf j = Memory.find s.buf.rxbuf j
  lasterr : LasterrWf s → LasterrWf t ∧
    ∀ b, b ≠ s.regs.devaddr.toNat → lastErr t b = lastErr s b

section
variable {op : HostOp} {nr : Bool} {s t u : State}

/-- The end of an operation and the sequencer are no part of what a command keeps. -/
theorem CommandKeeps.ended (h : CommandKeeps s t) (c : BitVec 4) (q : Seq) :
    CommandKeeps s { endOperation c t with seq := q } :=
  ⟨h.cfg, h.io, h.regs, h.pbuf, h.txf, h.rxbuf, h.lasterr⟩

theorem accepted_commandKeeps : CommandKeeps s (accepted op nr s) :=
  ⟨rfl, rfl, rfl, rfl, fun _ _ => rfl, fun _ _ => rfl, fun h => ⟨h, fun _ _ => rfl⟩⟩

/-- BUILD writes no entry of TXF beyond the frame. -/
theorem find_buildFrame_beyond {s : State} {j : Nat} (hj : s.regs.plen.toNat + 6 ≤ j) :
    Memory.find (buildFrame s).buf.txf j = Memory.find s.buf.txf j := by
  rw [buildFrame, Memory.find_writeSeq, if_neg (by simp; omega)]

theorem buildFrame_commandKeeps : CommandKeeps s (buildFrame (accepted op nr s)) :=
  ⟨rfl, rfl, rfl, rfl, fun _ => find_buildFrame_beyond (s := accepted op nr s), fun _ _ => rfl,
    fun h => ⟨h, fun _ _ => rfl⟩⟩

/-- An attempt that expects at most EXPLEN + 6 bytes. -/
theorem CommandKeeps.attempt (h : CommandKeeps s t) (hx : t.regs.xexp.toNat ≤ s.regs.explen.toNat + 6)
    (hu : AttemptKeeps t u) : CommandKeeps s u := by
  have hdev : t.regs.devaddr = s.regs.devaddr := by rw [h.regs]
  refine ⟨hu.cfg.trans h.cfg, hu.io.trans h.io, ?regs, hu.pbuf.trans h.pbuf, fun j hj => ?txf,
    fun j hj => ?rxbuf, fun hwf => ?lasterr⟩
  case regs => rw [hu.regs, h.regs]
  case txf => rw [hu.txf, h.txf j hj]
  case rxbuf => rw [hu.rxbuf j (hu.response.trans (hx.trans hj)), h.rxbuf j hj]
  case lasterr =>
    obtain ⟨hwt, ht⟩ := h.lasterr hwf
    obtain ⟨hwu, hub⟩ := hu.lasterr hwt
    exact ⟨hwu, fun b hb => by rw [hub b (by rw [hdev]; exact hb), ht b hb]⟩

/-- XEXP as BUILD writes it (30_encoding.md R98). -/
theorem respLen_le (hw : s.cfg.wire = true) :
    (respLen s.cfg nr s.regs.explen).toNat ≤ s.regs.explen.toNat + 6 := by
  rw [respLen_toNat (wire_packet hw).2.2]
  split_ifs <;> omega

theorem firstAttempt_commandKeeps (hw : s.cfg.wire = true) :
    CommandKeeps s (firstAttempt op nr s).2 :=
  buildFrame_commandKeeps.attempt (by rw [buildFrame_xexp]; exact respLen_le hw)
    (attempt_attemptKeeps nr _)

theorem retriedState_commandKeeps (hw : s.cfg.wire = true) : CommandKeeps s (retriedState nr s) :=
  have h := firstAttempt_commandKeeps (op := .cmdr) (nr := nr) hw
  ⟨h.cfg, h.io, h.regs, h.pbuf, h.txf, h.rxbuf, h.lasterr⟩

theorem secondAttempt_commandKeeps (hw : s.cfg.wire = true) : CommandKeeps s (secondAttempt nr s).2 :=
  (retriedState_commandKeeps hw).attempt (by rw [retriedState_xexp]; exact respLen_le hw)
    (attempt_attemptKeeps nr _)

theorem runCmd_commandKeeps (hw : s.cfg.wire = true) : CommandKeeps s (runCmd nr s) := by
  cases h : badDescriptor nr s with
  | true => rw [runCmd_illegal h]; exact accepted_commandKeeps.ended _ _
  | false => rw [runCmd_legal h]; exact (firstAttempt_commandKeeps hw).ended _ _

theorem runCmdr_commandKeeps (hw : s.cfg.wire = true) : CommandKeeps s (runCmdr nr s) := by
  cases h : badDescriptor nr s with
  | true => rw [runCmdr_illegal h]; exact accepted_commandKeeps.ended _ _
  | false =>
    by_cases hok : (firstAttempt .cmdr nr s).1 = codeOk
    · rw [runCmdr_once h hok]; exact (firstAttempt_commandKeeps hw).ended _ _
    · rw [runCmdr_twice h hok]; exact (secondAttempt_commandKeeps hw).ended _ _

theorem runCks_commandKeeps : CommandKeeps s (runCks nr s) := by
  cases h : badDescriptor nr s with
  | true => rw [runCks_illegal h]; exact accepted_commandKeeps.ended _ _
  | false =>
    have hb := buildFrame_commandKeeps (op := .cks) (nr := nr) (s := s)
    rw [runCks_legal h]
    exact ⟨hb.cfg, hb.io, rfl, hb.pbuf, hb.txf, hb.rxbuf, hb.lasterr⟩

/-- CKS leaves the files of the responses and the transport alone (40_checksum_frame.md R138). -/
theorem runCks_keeps : (runCks nr s).buf.rxbuf = s.buf.rxbuf ∧
    (runCks nr s).buf.lasterr = s.buf.lasterr ∧ (runCks nr s).bus = s.bus := by
  cases h : badDescriptor nr s with
  | true => rw [runCks_illegal h]; exact ⟨rfl, rfl, rfl⟩
  | false => rw [runCks_legal h]; exact ⟨rfl, rfl, rfl⟩

/-- CMD makes one attempt, which writes RXBUF below RXLEN only. -/
theorem runCmd_keeps : (runCmd nr s).status.retried = false ∧
    ∀ j, (runCmd nr s).regs.rxlen.toNat ≤ j → (runCmd nr s).status.code ≠ codeBadCmd →
      Memory.find (runCmd nr s).buf.rxbuf j = Memory.find s.buf.rxbuf j := by
  cases h : badDescriptor nr s with
  | true => rw [runCmd_illegal h]; exact ⟨rfl, fun _ _ _ => rfl⟩
  | false =>
    rw [runCmd_legal h]
    exact ⟨firstAttempt_retried .cmd, fun j hj _ => (attempt_attemptKeeps nr _).rxbuf j hj⟩

end

theorem FilesWf.lasterrWf {s : State} (h : FilesWf s) : LasterrWf s := h.lasterr

/-- Settles O41: BUILD and each attempt keep what the statement says. -/
theorem commandFrame : Obligations.CommandFrame := by
  rintro i s hs hw ⟨nr, rfl | rfl | rfl⟩
  · obtain ⟨q, -, hrun⟩ := exec_cmd_runCmd nr hs
    have hk := runCmd_commandKeeps (nr := nr) hw
    exact ⟨_, hrun, hk.regs, hk.pbuf, hk.txf, hk.rxbuf, nofun, fun _ => runCmd_keeps,
      fun hf => (hk.lasterr hf.lasterrWf).2, hk.io, hk.cfg⟩
  · obtain ⟨q, -, hrun⟩ := exec_cmdr_runCmdr nr hs
    have hk := runCmdr_commandKeeps (nr := nr) hw
    exact ⟨_, hrun, hk.regs, hk.pbuf, hk.txf, hk.rxbuf, nofun, nofun,
      fun hf => (hk.lasterr hf.lasterrWf).2, hk.io, hk.cfg⟩
  · obtain ⟨q, -, hrun⟩ := exec_cks_runCks (nr := nr) hs
    have hk := runCks_commandKeeps (nr := nr) (s := s)
    exact ⟨_, hrun, hk.regs, hk.pbuf, hk.txf, hk.rxbuf, fun _ => runCks_keeps, nofun,
      fun hf => (hk.lasterr hf.lasterrWf).2, hk.io, hk.cfg⟩

/-! ## TXF after a command -/

/-- CMD, CMDR and CKS of a legal descriptor leave TXF as BUILD wrote it. -/
theorem runOp_txf {op : HostOp} {nr : Bool} {s : State} (hop : op ≠ .xchg)
    (h : badDescriptor nr s = false) :
    (runOp op nr s).buf.txf = (buildFrame (accepted op nr s)).buf.txf := by
  have hfirst : ∀ op, (firstAttempt op nr s).2.buf.txf = (buildFrame (accepted op nr s)).buf.txf :=
    fun op => (attempt_attemptKeeps nr _).txf
  cases op with
  | xchg => exact absurd rfl hop
  | cks => rw [runOp, runCks_legal h]; rfl
  | cmd => rw [runOp, runCmd_legal h]; exact hfirst .cmd
  | cmdr =>
    by_cases hok : (firstAttempt .cmdr nr s).1 = codeOk
    · rw [runOp, runCmdr_once h hok]; exact hfirst .cmdr
    · rw [runOp, runCmdr_twice h hok]
      exact ((attempt_attemptKeeps nr _).txf).trans (hfirst .cmdr)

/-- INSTR stands at offset 4 of the frame (30_encoding.md Table 30-1). -/
theorem find_buildFrame_instr (s : State) :
    Memory.find (buildFrame s).buf.txf 4 = some s.regs.instr := by
  rw [find_buildFrame_txf (by omega)]
  rfl

/-- An operation on a descriptor that does not end BAD_CMD has its instruction byte at TXF[4]. -/
theorem find_runOp_instr {op : HostOp} {nr : Bool} {s : State} (hop : op ≠ .xchg)
    (hcode : (runOp op nr s).status.code ≠ codeBadCmd) :
    Memory.find (runOp op nr s).buf.txf 4 = some s.regs.instr := by
  cases h : badDescriptor nr s with
  | true =>
    refine absurd ?_ hcode
    rw [runOp_illegal (by rw [accepted_badCmd, if_neg hop]; exact h)]
    rfl
  | false => rw [runOp_txf hop h]; exact find_buildFrame_instr (accepted op nr s)

/-- CMD, CMDR and CKS as operations on a descriptor. -/
theorem exists_descriptorOp {i : Instr} {nr : Bool} (hi : i = .cmd nr ∨ i = .cmdr nr ∨ i = .cks nr) :
    ∃ op : HostOp, op ≠ .xchg ∧ i = op.instr nr := by
  rcases hi with rfl | rfl | rfl
  exacts [⟨.cmd, by decide, rfl⟩, ⟨.cmdr, by decide, rfl⟩, ⟨.cks, by decide, rfl⟩]

/-- Settles O49: the pseudo-operations are refused by name; the operations frame the code like any other. -/
theorem unimplementedRefused : Obligations.UnimplementedRefused := by
  refine ⟨fun a p s => ⟨rfl, rfl, rfl, rfl⟩, fun nr s hs _ i hi => ?carried⟩
  case carried =>
    obtain ⟨op, hop, rfl⟩ := exists_descriptorOp hi
    obtain ⟨q, hrun⟩ := exec_runOp op nr hs
    exact ⟨_, hrun, find_runOp_instr hop⟩

/-! ## The retry in full (R176) -/

section
variable {s : State}

/-- A response that succeeds carries the "no error" byte (R175). -/
theorem verdict_ok_errorByte {c : Config} {n : Nat} {rx : List Byte} (h : verdict c n rx = codeOk) :
    rx.getD 4 0 = c.noError := by
  unfold verdict at h
  split_ifs at h with h1 h2 h3
  · exact absurd h (by decide)
  · exact absurd h (by decide)
  · exact absurd h (by decide)
  · exact not_not.mp h3

/-- What the exchange of the second attempt leaves of a legal descriptor whose payload is written. -/
def reattempted (s : State) : State :=
  let r := retryStep (attempted .cmdr false (lasterrAfter (firstVerdict s) s) s)
  { r with
    regs.rxlen := BitVec.ofNat 9 (response (afterFirst s)).length
    status.anom := r.status.anom ||
      anomaly (builtFrame s) (echoRead (builtFrame s).length (afterFirst s))
    buf.rxbuf := Memory.writeSeq r.buf.rxbuf 0 (response (afterFirst s))
    bus := busAfter (builtFrame s) (expected s) r }

/-- The second attempt of CMDR meets on the transport what the first left. -/
theorem secondAttempt_response (h : LegalDescriptor false s) :
    (secondAttempt false s).2 =
      noteError (firstVerdict (afterFirst s)) (response (afterFirst s)) (reattempted s) := by
  have hread := readFrame_retriedState h
  have hstate : retriedState false s =
      retryStep (attempted .cmdr false (lasterrAfter (firstVerdict s) s) s) := by
    rw [retriedState, firstAttempt_response .cmdr h]
  have hexp : (retriedState false s).regs.xexp.toNat = expected s := by
    rw [hstate]; exact builtState_xexp false s
  have hresp : responseRead (builtFrame s).length (expected s) (retriedState false s) =
      response (afterFirst s) := by
    rw [builtFrame_length, hstate]; rfl
  rw [secondAttempt, attempt_eq, exchangeFrame_eq hread, hexp, hresp, hstate]
  rfl

theorem reattempted_status (s : State) :
    (reattempted s).status =
      { busy := true, done := false
        anom := anomaly (builtFrame s) (echoRead (builtFrame s).length s) ||
          anomaly (builtFrame s) (echoRead (builtFrame s).length (afterFirst s))
        retried := true, code := 0 } := rfl

theorem reattempted_rxlen (s : State) :
    (reattempted s).regs.rxlen.toNat = (response (afterFirst s)).length := by
  have hle : (response (afterFirst s)).length ≤ expected s := responseRead_length_le _ _ (afterFirst s)
  have := s.regs.explen.isLt
  show (BitVec.ofNat 9 (response (afterFirst s)).length).toNat = _
  rw [BitVec.toNat_ofNat]
  unfold expected at hle
  omega

theorem find_reattempted_rxbuf (s : State) {j : Nat} (hj : j < (response (afterFirst s)).length) :
    Memory.find (reattempted s).buf.rxbuf j = (response (afterFirst s))[j]? := by
  show Memory.find (Memory.writeSeq _ 0 (response (afterFirst s))) j = _
  rw [Memory.find_writeSeq, if_pos (by omega), Nat.sub_zero]

theorem reattempted_wire (s : State) :
    (reattempted s).bus.wire = s.bus.wire ++ builtFrame s ++ builtFrame s := rfl

theorem reattempted_trace (s : State) :
    (reattempted s).bus.trace =
      s.bus.trace ++ exchangeEvents (builtFrame s) (expected s) s ++ [.delay s.cfg.tBackoff] ++
        exchangeEvents (builtFrame s) (expected s) (afterFirst s) := rfl

theorem LasterrWf.reattempted (h : LegalDescriptor false s) (hf : FilesWf s) :
    LasterrWf (reattempted s) := by
  have hwf := LasterrWf.noteError (s := attempted .cmdr false s.buf.lasterr s) hf.lasterrWf
    (firstVerdict s) (response s)
  rw [noteError_attempted .cmdr h] at hwf
  exact hwf

/-- LASTERR of an address after the first attempt. -/
theorem lastErr_reattempted (h : LegalDescriptor false s) (hf : FilesWf s) (b : Nat) :
    lastErr (reattempted s) b =
      if (firstVerdict s = codeOk ∨ firstVerdict s = codeDevErr) ∧ b = s.regs.devaddr.toNat then
        (response s).getD 4 0
      else lastErr s b := by
  have hnote := lastErr_noteError (s := attempted .cmdr false s.buf.lasterr s) hf.lasterrWf
    (firstVerdict s) (response s) b
  have hlt : (attempted .cmdr false s.buf.lasterr s).regs.devaddr.toNat <
    (attempted .cmdr false s.buf.lasterr s).cfg.naddr := h.devaddr_lt
  simp only [hlt, and_true] at hnote
  rw [noteError_attempted .cmdr h] at hnote
  exact hnote

/-- LASTERR of an address after the second attempt. -/
theorem lastErr_secondAttempt (h : LegalDescriptor false s) (hf : FilesWf s) (b : Nat) :
    lastErr (secondAttempt false s).2 b =
      if (firstVerdict (afterFirst s) = codeOk ∨ firstVerdict (afterFirst s) = codeDevErr) ∧
          b = s.regs.devaddr.toNat then (response (afterFirst s)).getD 4 0
      else lastErr (reattempted s) b := by
  have hnote := lastErr_noteError (LasterrWf.reattempted h hf) (firstVerdict (afterFirst s))
    (response (afterFirst s)) b
  have hlt : (reattempted s).regs.devaddr.toNat < (reattempted s).cfg.naddr := h.devaddr_lt
  simp only [hlt, and_true] at hnote
  rw [secondAttempt_response h]
  exact hnote

/-- The addressed device's entry by the verdicts of the two attempts, in order. -/
theorem lastErr_secondAttempt_device (h : LegalDescriptor false s) (hf : FilesWf s)
    (hfail : firstVerdict s ≠ codeOk) :
    lastErr (secondAttempt false s).2 s.regs.devaddr.toNat =
      if firstVerdict (afterFirst s) = 0 then 0x00
      else if firstVerdict (afterFirst s) = 2 then (response (afterFirst s)).getD 4 0
      else if firstVerdict s = 2 then (response s).getD 4 0
      else lastErr s s.regs.devaddr.toNat := by
  rw [← codeOk, ← codeDevErr]
  rw [lastErr_secondAttempt h hf, lastErr_reattempted h hf]
  by_cases hok : firstVerdict (afterFirst s) = codeOk
  · have hbyte := verdict_ok_errorByte hok
    rw [if_pos ⟨.inl hok, rfl⟩, if_pos hok, hbyte]
    exact wire_noError (wire_of_legal h.params)
  · simp only [hok, hfail, false_or, and_true, if_false]

end

/-- Settles O34: the frame goes out again and the second attempt's outcome stands. -/
theorem retryTaken : Obligations.RetryTaken := by
  intro s hs h hf hfail f s2
  have hfirst : (firstAttempt .cmdr false s).1 ≠ codeOk := by
    rw [firstAttempt_code .cmdr h]; exact hfail
  obtain ⟨q, -, hrun⟩ := exec_cmdr_runCmdr false hs
  rw [runCmdr_twice h.good hfirst, secondAttempt_code h] at hrun
  have hdevice := lastErr_secondAttempt_device h hf hfail
  have hother : ∀ b, b ≠ s.regs.devaddr.toNat → lastErr (secondAttempt false s).2 b = lastErr s b := by
    intro b hb
    rw [lastErr_secondAttempt h hf, if_neg fun hc => hb hc.2, lastErr_reattempted h hf,
      if_neg fun hc => hb hc.2]
  have hstate := secondAttempt_response h
  rw [noteError_eq] at hstate
  generalize secondAttempt false s = x at hrun hdevice hother hstate
  refine ⟨_, hrun, ?status, ?rxlen, fun j hj => ?rxbuf, ?wire, ?trace, hdevice, hother⟩
  case status =>
    rw [endOperation_status, hstate, reattempted_status]
    rfl
  case rxlen => rw [endOperation_regs, hstate]; exact reattempted_rxlen s
  case rxbuf => rw [endOperation_buf, hstate]; exact find_reattempted_rxbuf s hj
  case wire => rw [endOperation_bus, hstate]; exact reattempted_wire s
  case trace => rw [endOperation_bus, hstate]; exact reattempted_trace s

end Sys2Proof.Machine
end

section
/-! PROOFS. What the result of an operation does not depend on: the echo (10_state.md R34; 60_exceptions.md R244)
and the instruction byte (43_bus_instructions.md R206). -/

namespace Sys2Proof.Machine

/-! ## Two runs side by side -/

/-- States that differ at most in ANOM, INSTR, CKOUT, CK8.ACC, the bytes of TXF, the transport, the sequencer and
the host side: the same entries of TXF are written. -/
structure Alike (s t : State) : Prop where
  cfg : t.cfg = s.cfg
  regs : t.regs = { s.regs with instr := t.regs.instr, ckout := t.regs.ckout }
  status : t.status = { s.status with anom := t.status.anom }
  lasterr : t.buf.lasterr = s.buf.lasterr
  pbuf : t.buf.pbuf = s.buf.pbuf
  rxbuf : t.buf.rxbuf = s.buf.rxbuf
  txf : ∀ j, (Memory.find t.buf.txf j).isNone = (Memory.find s.buf.txf j).isNone
  draws : t.draws = s.draws

/-- States in which the bytes behind an echo of n bytes are the same. -/
structure SameBehind (n : Nat) (s t : State) : Prop where
  queue : queueAfterEcho n t = queueAfterEcho n s
  arrivals : arrivalsAfterEcho n t = arrivalsAfterEcho n s

/-- States that agree also where `Alike` leaves room, but for ANOM and the transport's queue and events. -/
structure SameFrame (s t : State) : Prop where
  instr : t.regs.instr = s.regs.instr
  ckout : t.regs.ckout = s.regs.ckout
  txf : t.buf.txf = s.buf.txf
  acc : t.acc = s.acc
  wire : t.bus.wire = s.bus.wire

theorem SameBehind.of_bus {s t : State} (hq : t.bus.rxq = s.bus.rxq)
    (ha : t.bus.arrivals = s.bus.arrivals) (n : Nat) : SameBehind n s t := by
  constructor
  · simp only [queueAfterEcho, queueAtEcho, hq, ha]
  · simp only [arrivalsAfterEcho, ha]

theorem SameBehind.responseRead {n : Nat} {s t : State} (h : SameBehind n s t) (e : Nat) :
    responseRead n e t = responseRead n e s := by
  simp only [Machine.responseRead, h.queue, h.arrivals]

/-- After the exchange nothing of the echo is left. -/
theorem SameBehind.after {f g : List Byte} {s t s' t' : State} (h : SameBehind f.length s t)
    (hfg : g.length = f.length) (e : Nat) (hs : s'.bus = busAfter f e s) (ht : t'.bus = busAfter g e t)
    (m : Nat) : SameBehind m s' t' := by
  refine .of_bus ?_ ?_ m <;> rw [hs, ht] <;> simp only [busAfter, hfg, h.queue, h.arrivals]

section
variable {s t : State}

/-- The frame in TXF has as many bytes, and as many unwritten entries, in both states. -/
theorem Alike.readFrame (h : Alike s t) :
    (readFrame t).1.length = (readFrame s).1.length ∧ (readFrame t).2 = (readFrame s).2 := by
  have hxlen : t.regs.xlen = s.regs.xlen := by rw [h.regs]
  refine ⟨?length, ?counter⟩
  case length => simp only [Machine.readFrame, Memory.readSeq_length, hxlen]
  case counter => simp only [Machine.readFrame, Memory.readSeq_counter, unwrittenCount, h.txf, hxlen, h.draws]

/-- An exchange of alike states with the same bytes behind the echo gives the same response, and alike states. -/
theorem Alike.exchangeFrame (h : Alike s t) (hb : SameBehind s.regs.xlen.toNat s t) :
    (exchangeFrame t).1 = (exchangeFrame s).1 ∧ Alike (exchangeFrame s).2 (exchangeFrame t).2 ∧
      ∀ m, SameBehind m (exchangeFrame s).2 (exchangeFrame t).2 := by
  obtain ⟨hlen, hdraws⟩ := h.readFrame
  have hxexp : t.regs.xexp = s.regs.xexp := by rw [h.regs]
  have hflen : (Machine.readFrame s).1.length = s.regs.xlen.toNat := Memory.readSeq_length _ _ _ _
  rw [← hflen] at hb
  have hresp := hb.responseRead s.regs.xexp.toNat
  rw [exchangeFrame_closed, exchangeFrame_closed, hlen, hxexp, hresp]
  refine ⟨rfl, ⟨h.cfg, ?regs, ?status, h.lasterr, h.pbuf, ?rxbuf, h.txf, hdraws⟩,
    fun m => hb.after hlen s.regs.xexp.toNat rfl rfl m⟩
  case regs => rw [h.regs]
  case status => rw [h.status]
  case rxbuf => rw [h.rxbuf]

theorem Alike.noteError (h : Alike s t) (c : BitVec 4) (rx : List Byte) :
    Alike (noteError c rx s) (noteError c rx t) := by
  have hdev : t.regs.devaddr = s.regs.devaddr := by rw [h.regs]
  have hles : (Machine.noteError c rx t).buf.lasterr = (Machine.noteError c rx s).buf.lasterr := by
    unfold Machine.noteError setLastErr
    rw [h.cfg, hdev]
    split_ifs
    · exact congrArg (fun m => Memory.write (some s.cfg.noStatus) m _ _) h.lasterr
    all_goals exact h.lasterr
  rw [noteError_eq c rx s, noteError_eq c rx t]
  exact ⟨h.cfg, h.regs, h.status, hles, h.pbuf, h.rxbuf, h.txf, h.draws⟩

/-- An attempt of alike states with the same bytes behind the echo gives the same code, and alike states. -/
theorem Alike.attempt (h : Alike s t) (hb : SameBehind s.regs.xlen.toNat s t) (nr : Bool) :
    (attempt nr t).1 = (attempt nr s).1 ∧ Alike (attempt nr s).2 (attempt nr t).2 ∧
      ∀ m, SameBehind m (attempt nr s).2 (attempt nr t).2 := by
  obtain ⟨hrx, hx, hbx⟩ := h.exchangeFrame hb
  have hxexp : t.regs.xexp = s.regs.xexp := by rw [h.regs]
  have hbehind : ∀ m, SameBehind m (Machine.attempt nr s).2 (Machine.attempt nr t).2 := by
    have hbus := exchangeFrame_bus
    refine fun m => .of_bus ?_ ?_ m <;> rw [attempt_bus, attempt_bus, ← hbus, ← hbus]
    · exact (hbx 0).queue
    · exact (hbx 0).arrivals
  cases nr with
  | true => exact ⟨rfl, hx, hbehind⟩
  | false =>
    refine ⟨?_, ?_, hbehind⟩ <;> rw [attempt_eq, attempt_eq, hrx, hxexp, h.cfg]
    exact hx.noteError _ _

/-- The attempt keeps, and sends, the same frame when the frames are the same. -/
theorem SameFrame.attempt (h : SameFrame s t) (ha : Alike s t) (nr : Bool) :
    SameFrame (attempt nr s).2 (attempt nr t).2 := by
  have hs := attempt_attemptKeeps nr s
  have ht := attempt_attemptKeeps nr t
  have hframe : Machine.readFrame t = Machine.readFrame s := by
    have hxlen : t.regs.xlen = s.regs.xlen := by rw [ha.regs]
    simp only [Machine.readFrame, h.txf, hxlen, ha.draws]
  refine ⟨?_, ?_, ?_, ?_, ?_⟩
  · rw [hs.regs, ht.regs]; exact h.instr
  · rw [hs.regs, ht.regs]; exact h.ckout
  · rw [hs.txf, ht.txf, h.txf]
  · rw [hs.acc, ht.acc, h.acc]
  · rw [attempt_bus, attempt_bus, hframe]
    exact congrArg (· ++ (Machine.readFrame s).1) h.wire

end

/-! ## The operations -/

section
variable {s t : State} {op : HostOp} {nr : Bool}

theorem Alike.ended (h : Alike s t) (c : BitVec 4) : Alike (endOperation c s) (endOperation c t) := by
  refine ⟨h.cfg, h.regs, ?_, h.lasterr, h.pbuf, h.rxbuf, h.txf, h.draws⟩
  rw [endOperation_status, endOperation_status, h.status]

theorem Alike.accepted (h : Alike s t) : Alike (Machine.accepted op nr s) (Machine.accepted op nr t) :=
  ⟨h.cfg, h.regs, rfl, h.lasterr, h.pbuf, h.rxbuf, h.txf, h.draws⟩

/-- BUILD writes the entries of the frame. -/
theorem isNone_find_buildFrame (s : State) (j : Nat) :
    (Memory.find (buildFrame s).buf.txf j).isNone =
      if j < s.regs.plen.toNat + 6 then false else (Memory.find s.buf.txf j).isNone := by
  split_ifs with hj
  · rw [find_buildFrame_txf hj, List.getElem?_eq_getElem (by simpa using hj)]
    rfl
  · rw [find_buildFrame_beyond (Nat.le_of_not_lt hj)]

/-- BUILD reads the same payload, and writes the same entries of TXF. -/
theorem Alike.buildFrame (h : Alike s t) :
    Alike (Machine.buildFrame (Machine.accepted op nr s))
      (Machine.buildFrame (Machine.accepted op nr t)) := by
  have hplen : t.regs.plen = s.regs.plen := by rw [h.regs]
  have hread : Memory.readSeq t.buf.pbuf 0 t.regs.plen.toNat t.draws =
      Memory.readSeq s.buf.pbuf 0 s.regs.plen.toNat s.draws := by rw [h.pbuf, hplen, h.draws]
  refine ⟨h.cfg, ?regs, rfl, h.lasterr, h.pbuf, h.rxbuf, fun j => ?txf, congrArg Prod.snd hread⟩
  case regs =>
    show ({ t.regs with
      xlen := frameLen t.cfg t.regs.plen.toNat
      xexp := respLen t.cfg (curNoresp (Machine.accepted op nr s)) t.regs.explen
      ckout := _ } : Regs) = _
    rw [h.cfg, h.regs]
    rfl
  case txf =>
    rw [isNone_find_buildFrame, isNone_find_buildFrame]
    show (if j < t.regs.plen.toNat + 6 then _ else _) = _
    rw [hplen]
    exact ite_congr rfl (fun _ => rfl) fun _ => h.txf j

/-- How many bytes an operation sends. -/
def sentLength : HostOp → State → Nat
  | .xchg, s => s.regs.xlen.toNat
  | .cmd, s => (frameLen s.cfg s.regs.plen.toNat).toNat
  | .cmdr, s => (frameLen s.cfg s.regs.plen.toNat).toNat
  | .cks, _ => 0

theorem Alike.badCmd (h : Alike s t) :
    badCmd (Machine.accepted op nr t) = badCmd (Machine.accepted op nr s) := by
  rw [accepted_badCmd, accepted_badCmd, badLengths, badDescriptor, h.cfg, h.regs]
  rfl

theorem Alike.clearRxlen (h : Alike s t) :
    Alike { s with regs.rxlen := 0 } { t with regs.rxlen := 0 } := by
  refine ⟨h.cfg, ?_, h.status, h.lasterr, h.pbuf, h.rxbuf, h.txf, h.draws⟩
  show ({ t.regs with rxlen := 0 } : Regs) = _
  rw [h.regs]

theorem Alike.retryStep (h : Alike s t) : Alike (retryStep s) (retryStep t) := by
  refine ⟨h.cfg, h.regs, ?_, h.lasterr, h.pbuf, h.rxbuf, h.txf, h.draws⟩
  show ({ t.status with retried := true } : Status) = _
  rw [h.status]
  rfl

theorem Alike.firstAttempt (h : Alike s t) (op : HostOp)
    (hb : SameBehind (frameLen s.cfg s.regs.plen.toNat).toNat s t) :
    (firstAttempt op nr t).1 = (firstAttempt op nr s).1 ∧
      Alike (firstAttempt op nr s).2 (firstAttempt op nr t).2 ∧
      ∀ m, SameBehind m (firstAttempt op nr s).2 (firstAttempt op nr t).2 :=
  (h.buildFrame (op := op) (nr := nr)).attempt ⟨hb.queue, hb.arrivals⟩ nr

theorem Alike.secondAttempt (h : Alike s t)
    (hb : SameBehind (frameLen s.cfg s.regs.plen.toNat).toNat s t) :
    (secondAttempt nr t).1 = (secondAttempt nr s).1 ∧
      Alike (secondAttempt nr s).2 (secondAttempt nr t).2 := by
  obtain ⟨-, hx, hbx⟩ := h.firstAttempt (nr := nr) .cmdr hb
  have hb2 := hbx (retriedState nr s).regs.xlen.toNat
  obtain ⟨hcode, hstate, -⟩ := hx.retryStep.attempt ⟨hb2.queue, hb2.arrivals⟩ nr
  exact ⟨hcode, hstate⟩

/-- An operation on alike states, with the same bytes behind the echo, leaves alike states. -/
theorem Alike.runOp (h : Alike s t) (hb : op ≠ .cks → SameBehind (sentLength op s) s t) :
    Alike (runOp op nr s) (runOp op nr t) := by
  cases hbad : Machine.badCmd (Machine.accepted op nr s) with
  | true => rw [runOp_illegal hbad, runOp_illegal (h.badCmd.trans hbad)]; exact h.accepted.ended _
  | false =>
    have hbad' := h.badCmd.trans hbad
    rw [accepted_badCmd] at hbad hbad'
    cases op with
    | xchg =>
      have hb' := hb (by decide)
      obtain ⟨-, hx, -⟩ :=
        (h.accepted (op := .xchg) (nr := nr)).exchangeFrame ⟨hb'.queue, hb'.arrivals⟩
      rw [Machine.runOp, runXchg_legal hbad, runXchg_legal hbad']
      exact hx.ended _
    | cks =>
      rw [Machine.runOp, runCks_legal hbad, runCks_legal hbad']
      exact h.buildFrame.clearRxlen.ended _
    | cmd =>
      obtain ⟨hcode, hx, -⟩ := h.firstAttempt (nr := nr) .cmd (hb (by decide))
      rw [Machine.runOp, runCmd_legal hbad, runCmd_legal hbad', hcode]
      exact hx.ended _
    | cmdr =>
      obtain ⟨hcode, hx, -⟩ := h.firstAttempt (nr := nr) .cmdr (hb (by decide))
      by_cases hok : (Machine.firstAttempt .cmdr nr s).1 = codeOk
      · rw [Machine.runOp, runCmdr_once hbad hok, runCmdr_once hbad' (hcode.trans hok)]
        exact hx.ended _
      · obtain ⟨hcode2, hx2⟩ := h.secondAttempt (nr := nr) (hb (by decide))
        rw [Machine.runOp, runCmdr_twice hbad hok, runCmdr_twice hbad' (by rw [hcode]; exact hok),
          hcode2]
        exact hx2.ended _

/-! ## The echo -/

theorem SameFrame.ended (h : SameFrame s t) (c d : BitVec 4) :
    SameFrame (endOperation c s) (endOperation d t) := ⟨h.instr, h.ckout, h.txf, h.acc, h.wire⟩

theorem SameFrame.accepted (h : SameFrame s t) :
    SameFrame (Machine.accepted op nr s) (Machine.accepted op nr t) :=
  ⟨h.instr, h.ckout, h.txf, h.acc, h.wire⟩

/-- BUILD frames the same bytes. -/
theorem SameFrame.buildFrame (h : SameFrame s t) (ha : Alike s t) :
    SameFrame (Machine.buildFrame (Machine.accepted op nr s))
      (Machine.buildFrame (Machine.accepted op nr t)) := by
  have hregs : t.regs = s.regs := by rw [ha.regs, h.instr, h.ckout]
  refine ⟨h.instr, ?_, ?_, ?_, h.wire⟩
  all_goals
    simp only [Machine.buildFrame, Machine.accepted, acceptGo_cfg, acceptGo_regs, acceptGo_buf,
      acceptGo_acc, acceptGo_draws, ha.cfg, hregs, ha.pbuf, ha.draws, h.txf, h.acc]

/-- An operation that exchanges the same frame keeps it, and hands the same bytes over. -/
theorem SameFrame.runOp (h : SameFrame s t) (ha : Alike s t) (hop : op ≠ .cks)
    (hb : SameBehind (sentLength op s) s t) : SameFrame (runOp op nr s) (runOp op nr t) := by
  cases hbad : Machine.badCmd (Machine.accepted op nr s) with
  | true => rw [runOp_illegal hbad, runOp_illegal (ha.badCmd.trans hbad)]; exact h.accepted.ended _ _
  | false =>
    have hbad' := ha.badCmd.trans hbad
    rw [accepted_badCmd] at hbad hbad'
    have hfirst : ∀ op, SameFrame (Machine.firstAttempt op nr s).2 (Machine.firstAttempt op nr t).2 :=
      fun op => (h.buildFrame ha).attempt ha.buildFrame nr
    cases op with
    | cks => exact absurd rfl hop
    | xchg =>
      rw [Machine.runOp, runXchg_legal hbad, runXchg_legal hbad']
      exact (h.accepted.attempt ha.accepted true).ended _ _
    | cmd =>
      rw [Machine.runOp, runCmd_legal hbad, runCmd_legal hbad']
      exact (hfirst .cmd).ended _ _
    | cmdr =>
      obtain ⟨hcode, hx, -⟩ := ha.firstAttempt (nr := nr) .cmdr hb
      by_cases hok : (Machine.firstAttempt .cmdr nr s).1 = codeOk
      · rw [Machine.runOp, runCmdr_once hbad hok, runCmdr_once hbad' (hcode.trans hok)]
        exact (hfirst .cmdr).ended _ _
      · have hretry : SameFrame (retriedState nr s) (retriedState nr t) :=
          ⟨(hfirst .cmdr).instr, (hfirst .cmdr).ckout, (hfirst .cmdr).txf, (hfirst .cmdr).acc,
            (hfirst .cmdr).wire⟩
        rw [Machine.runOp, runCmdr_twice hbad hok, runCmdr_twice hbad' (by rw [hcode]; exact hok)]
        exact (hretry.attempt hx.retryStep nr).ended _ _

/-- The state with an empty queue in which a first read attempt meets the bytes e. -/
def withEcho (e : List Byte) (rest : List (List Byte)) (s : State) : State :=
  { s with bus.rxq := [], bus.arrivals := e :: rest }

theorem withEcho_alike (e1 e2 : List Byte) (rest : List (List Byte)) (s : State) :
    Alike (withEcho e2 rest s) (withEcho e1 rest s) :=
  ⟨rfl, rfl, rfl, rfl, rfl, rfl, fun _ => rfl, rfl⟩

theorem withEcho_sameFrame (e1 e2 : List Byte) (rest : List (List Byte)) (s : State) :
    SameFrame (withEcho e2 rest s) (withEcho e1 rest s) := ⟨rfl, rfl, rfl, rfl, rfl⟩

/-- Behind an echo of n bytes stand the bytes from offset n on. -/
theorem withEcho_sameBehind {n : Nat} {e1 e2 : List Byte} (h : e1.drop n = e2.drop n)
    (rest : List (List Byte)) (s : State) :
    SameBehind n (withEcho e2 rest s) (withEcho e1 rest s) := by
  by_cases hn : n = 0
  · subst hn
    rw [show e1 = e2 from h]
    exact ⟨rfl, rfl⟩
  · constructor
    · simpa [queueAfterEcho, queueAtEcho, withEcho, hn] using h
    · simp [arrivalsAfterEcho, withEcho, hn]

end

theorem buffers_eq {b c : Buffers} (hlasterr : b.lasterr = c.lasterr) (hpbuf : b.pbuf = c.pbuf)
    (htxf : b.txf = c.txf) (hrxbuf : b.rxbuf = c.rxbuf) : b = c := by
  cases b; cases c; simp_all

/-- Settles O37: the runs differ in the echo alone, and ANOM is all that it decides. -/
theorem anomalyIsNoFailure : Obligations.AnomalyIsNoFailure := by
  intro i n s e1 e2 rest hs hw hi hdrop
  obtain ⟨op, nr, hop, rfl, rfl⟩ : ∃ (op : HostOp) (nr : Bool),
      op ≠ .cks ∧ i = op.instr nr ∧ n = sentLength op s := by
    have hlen : (frameLen s.cfg s.regs.plen.toNat).toNat = s.regs.plen.toNat + 6 :=
      frameLen_toNat (wire_packet hw).2.2 s.regs.plen
    rcases hi with ⟨⟨nr, rfl⟩, rfl⟩ | ⟨⟨nr, rfl | rfl⟩, rfl⟩
    exacts [⟨.xchg, nr, by decide, rfl, rfl⟩, ⟨.cmd, nr, by decide, rfl, hlen.symm⟩,
      ⟨.cmdr, nr, by decide, rfl, hlen.symm⟩]
  have hbehind : SameBehind (sentLength op (withEcho e2 rest s)) (withEcho e2 rest s)
      (withEcho e1 rest s) := by
    have hsent : sentLength op (withEcho e2 rest s) = sentLength op s := by cases op <;> rfl
    rw [hsent]
    exact withEcho_sameBehind hdrop rest s
  have halike := withEcho_alike e1 e2 rest s
  have hresult := halike.runOp (nr := nr) fun _ => hbehind
  have hframe := (withEcho_sameFrame e1 e2 rest s).runOp (nr := nr) halike hop hbehind
  obtain ⟨q1, hrun1⟩ := exec_runOp op nr (s := withEcho e1 rest s) ⟨hs.idle, hs.pace, hs.taken⟩
  obtain ⟨q2, hrun2⟩ := exec_runOp op nr (s := withEcho e2 rest s) ⟨hs.idle, hs.pace, hs.taken⟩
  refine ⟨_, _, hrun1, hrun2, hresult.status, ?regs, ?buf, hframe.acc, hframe.wire⟩
  case regs =>
    show (runOp op nr (withEcho e1 rest s)).regs = (runOp op nr (withEcho e2 rest s)).regs
    rw [hresult.regs, hframe.instr, hframe.ckout]
  case buf =>
    exact buffers_eq (b := (runOp op nr (withEcho e1 rest s)).buf) hresult.lasterr hresult.pbuf
      hframe.txf hresult.rxbuf

/-! ## The instruction byte -/

/-- Frames of one payload differ at most in the instruction byte and the checksum. -/
theorem framed_getElem?_of_ne (c : Config) (a i i' : Byte) (p : List Byte) {j : Nat} (h4 : j ≠ 4)
    (hck : j ≠ p.length + 5) : (framed c a i p)[j]? = (framed c a i' p)[j]? := by
  match j with
  | 0 | 1 | 2 | 3 => rfl
  | 4 => exact absurd rfl h4
  | j + 5 =>
    show (p ++ [_])[j]? = (p ++ [_])[j]?
    by_cases hj : j < p.length
    · rw [List.getElem?_append_left hj, List.getElem?_append_left hj]
    · rw [List.getElem?_eq_none (by simp; omega), List.getElem?_eq_none (by simp; omega)]

/-- The frames that BUILD leaves with another instruction byte differ where the frames do. -/
theorem find_buildFrame_instr_of_ne (op : HostOp) (nr : Bool) (k : Byte) (s : State) {j : Nat}
    (h4 : j ≠ 4) (hck : j ≠ s.regs.plen.toNat + 5) :
    Memory.find (buildFrame (accepted op nr s)).buf.txf j =
      Memory.find (buildFrame (accepted op nr { s with regs.instr := k })).buf.txf j := by
  by_cases hj : j < s.regs.plen.toNat + 6
  · rw [find_buildFrame_txf (s := accepted op nr s) hj,
      find_buildFrame_txf (s := accepted op nr { s with regs.instr := k }) hj]
    exact framed_getElem?_of_ne _ _ _ _ _ h4 (by rw [Memory.readSeq_length]; exact hck)
  · have hj' := Nat.le_of_not_lt hj
    rw [find_buildFrame_beyond (s := accepted op nr s) hj',
      find_buildFrame_beyond (s := accepted op nr { s with regs.instr := k }) hj']
    rfl

/-- An operation on a block that is ready keeps INSTR. -/
theorem runOp_instr {op : HostOp} {nr : Bool} {s : State} (hs : Ready s) :
    (runOp op nr s).regs.instr = s.regs.instr := by
  obtain ⟨q, hrun⟩ := exec_runOp op nr hs
  have hkept := (Transition.operate op nr s).instr
  rw [exec_hostOp] at hrun
  rw [Host.Outcome.next.inj hrun] at hkept
  exact hkept

/-- Settles O38: BUILD puts the instruction byte in the frame, and nothing after it looks at the byte. -/
theorem instrIsData : Obligations.InstrIsData := by
  rintro i k s hs ⟨nr, hi⟩
  obtain ⟨op, hop, rfl⟩ := exists_descriptorOp hi
  have halike : Alike { s with regs.instr := k } s :=
    ⟨rfl, rfl, rfl, rfl, rfl, rfl, fun _ => rfl, rfl⟩
  have hs' : Ready { s with regs.instr := k } := ⟨hs.idle, hs.pace, hs.taken⟩
  have hresult := halike.runOp (op := op) (nr := nr) fun _ => ⟨rfl, rfl⟩
  obtain ⟨q, hrun⟩ := exec_runOp op nr hs
  obtain ⟨q', hrun'⟩ := exec_runOp op nr hs'
  refine ⟨_, _, hrun, hrun', hresult.status, ?regs, hresult.rxbuf, hresult.lasterr,
    fun j h4 hck => ?txf, find_runOp_instr hop⟩
  case regs => exact hresult.regs.trans (by rw [runOp_instr hs])
  case txf =>
    show Memory.find (runOp op nr s).buf.txf j =
      Memory.find (runOp op nr { s with regs.instr := k }).buf.txf j
    cases h : badDescriptor nr s with
    | true =>
      have hbad : badCmd (accepted op nr s) = true := by rw [accepted_badCmd, if_neg hop]; exact h
      rw [runOp_illegal hbad, runOp_illegal (s := { s with regs.instr := k }) hbad]
      rfl
    | false =>
      rw [runOp_txf hop h, runOp_txf (s := { s with regs.instr := k }) hop h]
      exact find_buildFrame_instr_of_ne op nr k s h4 hck

end Sys2Proof.Machine
end

section
/-! PROOFS. The bus instructions as their expansions (43_bus_instructions.md R210 to R212): the descriptor writes,
one CMDR, the read of STATUS and, for READ, the payload; what they yield (R218) and which are refused (R219). -/

namespace Sys2Proof.Machine

/-! ## The end of an expansion -/

theorem Ready.loadDescriptor {s : State} (hs : Ready s) (a i : Byte) (p : List Byte) (e : Byte) :
    Ready (loadDescriptor a i p e s) := ⟨hs.idle, hs.pace, hs.taken⟩

/-- Every operation ends with DONE = 1 and BUSY = 0. -/
theorem runOp_ended (op : HostOp) (nr : Bool) (s : State) :
    (runOp op nr s).status.busy = false ∧ (runOp op nr s).status.done = true := by
  cases hbad : badCmd (accepted op nr s) with
  | true => rw [runOp_illegal hbad]; exact ⟨rfl, rfl⟩
  | false =>
    rw [accepted_badCmd] at hbad
    cases op with
    | xchg => rw [runOp, runXchg_legal hbad]; exact ⟨rfl, rfl⟩
    | cks => rw [runOp, runCks_legal hbad]; exact ⟨rfl, rfl⟩
    | cmd => rw [runOp, runCmd_legal hbad]; exact ⟨rfl, rfl⟩
    | cmdr =>
      by_cases hok : (firstAttempt .cmdr nr s).1 = codeOk
      · rw [runOp, runCmdr_once hbad hok]; exact ⟨rfl, rfl⟩
      · rw [runOp, runCmdr_twice hbad hok]; exact ⟨rfl, rfl⟩

theorem runCmdr_ended (nr : Bool) (s : State) :
    (runCmdr nr s).status.busy = false ∧ (runCmdr nr s).status.done = true := runOp_ended .cmdr nr s

/-- A read of STATUS does not look at the sequencer. -/
theorem recordRead_status_seq (s : State) (q : Seq) :
    recordRead rStatus { s with seq := q } = { recordRead rStatus s with seq := q } := rfl

theorem hostRead_idle {r : RegNo} {s : State} (h : s.status.busy = false) :
    hostRead r s = recordRead r s := by
  rw [hostRead, advance_idle]; rw [recordRead_status, h]

/-- `CMDR`, `wait`, `rd STATUS` on a block that is ready: the wait is over at once. -/
theorem runStmts_carry (nr : Bool) (rest : List Input) {s : State} (hs : Ready s) :
    ∃ q, AtRest .cmdr nr (runCmdr nr s).status.retried q ∧
      runStmts (carryStmts nr ++ rest) s =
        runStmts rest { recordRead rStatus (runCmdr nr s) with seq := q } := by
  obtain ⟨q, hq, hrun⟩ := exec_cmdr_runCmdr nr hs
  obtain ⟨hbusy, hdone⟩ := runCmdr_ended nr s
  refine ⟨q, hq, ?_⟩
  have hop : hostStmt (stmtOp .cmdr nr) s = { runCmdr nr s with seq := q } :=
    Host.Outcome.next.inj hrun
  have hwait : hostStmt .wait { runCmdr nr s with seq := q } = { runCmdr nr s with seq := q } :=
    hostWait_idle hbusy
  have hread : hostStmt (.read rStatus) { runCmdr nr s with seq := q } =
      { recordRead rStatus (runCmdr nr s) with seq := q } := by
    rw [← recordRead_status_seq]
    exact hostRead_idle hbusy
  simp only [carryStmts, List.cons_append, List.nil_append, runStmts, hop, hwait, hread, hdone]
  simp [stmtOp]

/-- An expansion up to its read of STATUS. -/
theorem runStmts_expansion (a i : Byte) (p : List Byte) (e : Byte) (nr : Bool) (rest : List Input)
    {s : State} (hs : Ready s) (hp : p.length ≤ 255) :
    ∃ q, AtRest .cmdr nr (runCmdr nr (loadDescriptor a i p e s)).status.retried q ∧
      runStmts (descriptorStmts a i p e ++ (carryStmts nr ++ rest)) s =
        runStmts rest
          { recordRead rStatus (runCmdr nr (loadDescriptor a i p e s)) with seq := q } := by
  rw [runStmts_descriptor a i p e _ s hs.idle hp]
  exact runStmts_carry nr rest (hs.loadDescriptor a i p e)

/-! ## The payload reads of READ (R211) -/

theorem readBack_seq (i n : Nat) (s : State) (q : Seq) :
    readBack i n { s with seq := q } = { readBack i n s with seq := q } := by
  induction n generalizing i s with
  | zero => rfl
  | succ n ih => exact ih (i + 1) (recordRead rRxdata { s with regs.bufidx := BitVec.ofNat 9 i })

theorem readPayload_seq (n : Nat) (s : State) (q : Seq) :
    readPayload n { s with seq := q } = { readPayload n s with seq := q } := by
  unfold readPayload
  split_ifs
  · exact readBack_seq 5 n s q
  · rfl

theorem readPayload_ok {n : Nat} {s : State} (h : s.status.code = codeOk) :
    readPayload n s = readBack 5 n s := if_pos h

theorem readPayload_failed {n : Nat} {s : State} (h : s.status.code ≠ codeOk) :
    readPayload n s = s := if_neg h

@[simp] theorem readPayload_zero (s : State) : readPayload 0 s = s := ite_self s

/-- `rxb i`, `rxb i + 1`, ... on an idle block, done only if CODE = 0. -/
theorem runStmts_rxbOk (n i : Nat) {s : State} (hb : s.status.busy = false) :
    runStmts ((List.range n).map (fun j => .rxbOk (i + j))) s =
      if s.status.code = codeOk then readBack i n s else s := by
  induction n generalizing i s with
  | zero => exact (ite_self s).symm
  | succ n ih =>
    have hrest : (List.range n).map ((fun j => Input.rxbOk (i + j)) ∘ Nat.succ) =
        (List.range n).map (fun j => .rxbOk (i + 1 + j)) := by
      refine List.map_congr_left fun j _ => ?_
      simp only [Function.comp_apply]
      congr 1; omega
    rw [List.range_succ_eq_map, List.map_cons, List.map_map, hrest, runStmts]
    simp only [reduceCtorEq, false_and, if_false, Nat.add_zero, hostStmt]
    by_cases hok : s.status.code = codeOk
    · have h9 : (BitVec.ofNat 16 i).setWidth 9 = BitVec.ofNat 9 i := by
        apply BitVec.eq_of_toNat_eq; simp
      rw [hostRxbOk_idle hb hok, writeReg_bufidx hb, h9, ih, if_pos hok]
      · exact if_pos hok
      · exact hb
    · rw [hostRxbOk, if_neg fun h => hok h.2, ih _ hb, if_neg hok, if_neg hok]

/-! ## The bus instructions -/

section
variable {a r : Byte} {s : State}

theorem answeringAddress_of_le (ha : a.toNat ≤ 253) : answeringAddress a = true := decide_eq_true ha

theorem exec_ping (hs : Ready s) (ha : a.toNat ≤ 253) :
    ∃ q, AtRest .cmdr false (runCmdr false (loadDescriptor a 0x01 [] 0 s)).status.retried q ∧
      exec (.ping a) s =
        .next { recordRead rStatus (runCmdr false (loadDescriptor a 0x01 [] 0 s)) with seq := q } := by
  obtain ⟨q, hq, hrun⟩ := runStmts_expansion a 0x01 [] 0 false [] hs (by simp)
  refine ⟨q, hq, ?_⟩
  rw [exec, execPing, runAnswering, if_pos (answeringAddress_of_le ha), pingStmts,
    ← List.append_nil (carryStmts false), hrun, runStmts]

theorem exec_read (n : Byte) (hs : Ready s) (ha : a.toNat ≤ 253) :
    ∃ q, AtRest .cmdr false (runCmdr false (loadDescriptor a 0x02 [r, n] n s)).status.retried q ∧
      exec (.read a r n) s =
        .next
          { readPayload n.toNat
              (recordRead rStatus (runCmdr false (loadDescriptor a 0x02 [r, n] n s))) with
            seq := q } := by
  obtain ⟨q, hq, hrun⟩ := runStmts_expansion a 0x02 [r, n] n false
    ((List.range n.toNat).map (fun j => .rxbOk (5 + j))) hs (by simp)
  refine ⟨q, hq, ?_⟩
  obtain ⟨hbusy, -⟩ := runCmdr_ended false (loadDescriptor a 0x02 [r, n] n s)
  rw [exec, execRead, runAnswering, if_pos (answeringAddress_of_le ha), readStmts, List.append_assoc, hrun,
    ← readPayload_seq]
  exact congrArg _ (runStmts_rxbOk n.toNat 5 hbusy)

theorem exec_write {ds : List Byte} (hs : Ready s) (ha : a.toNat ≤ 254) (h1 : 1 ≤ ds.length)
    (h2 : ds.length ≤ 252) :
    ∃ q, AtRest .cmdr (a == s.cfg.bcast)
        (runCmdr (a == s.cfg.bcast) (loadDescriptor a 0x03 (r :: ds) 0 s)).status.retried q ∧
      exec (.write a r ds) s =
        .next
          { recordRead rStatus
              (runCmdr (a == s.cfg.bcast) (loadDescriptor a 0x03 (r :: ds) 0 s)) with seq := q } := by
  obtain ⟨q, hq, hrun⟩ :=
    runStmts_expansion a 0x03 (r :: ds) 0 (a == s.cfg.bcast) [] hs (by simp; omega)
  have hbus : ¬busAddress a = false := by simp [busAddress, ha]
  refine ⟨q, hq, ?_⟩
  rw [exec, execWrite, runWriting, if_neg hbus, if_neg (by omega), writeStmts,
    ← List.append_nil (carryStmts _), hrun, runStmts]

/-- WRITE1 is WRITE of one data byte (R215). -/
theorem exec_write1_eq (a r v : Byte) (s : State) :
    exec (.write1 a r v) s = exec (.write a r [v]) s := rfl

/-- WRITE2 is WRITE of the low and then the high byte (R216). -/
theorem exec_write2_eq (a r : Byte) (v : Word) (s : State) :
    exec (.write2 a r v) s = exec (.write a r [lowByte v, highByte v]) s := rfl

end

theorem wire_bcast {c : Config} (h : c.wire = true) : c.bcast = 0xFE := by
  simp only [Config.wire, Bool.and_eq_true, beq_iff_eq] at h
  exact h.1.1.1.1.1.2

/-- Settles O42: the expansion of PING on a block that is ready. -/
theorem pingRuns : Obligations.PingRuns := fun _ _ hs ha => exec_ping hs ha

/-- Settles O43: the expansion of READ; its payload reads look at CODE one by one. -/
theorem readRuns : Obligations.ReadRuns := fun _ _ n _ hs ha => exec_read n hs ha

/-- Settles O44: the expansion of WRITE, which WRITE1 and WRITE2 are cases of. -/
theorem writeRuns : Obligations.WriteRuns := by
  intro a r s hs hw ha
  have hwrite : ∀ ds : List Byte, 1 ≤ ds.length → ds.length ≤ 252 →
      ∃ t, exec (.write a r ds) s = .next t := by
    intro ds h1 h2
    obtain ⟨q, -, hrun⟩ := exec_write (r := r) hs ha h1 h2
    exact ⟨_, hrun⟩
  refine ⟨fun ds h1 h2 => ?write, fun v => ⟨exec_write1_eq a r v s, ?write1⟩,
    fun v => ⟨exec_write2_eq a r v s, ?write2⟩⟩
  case write => rw [← wire_bcast hw]; exact exec_write hs ha h1 h2
  case write1 => exact hwrite [v] (by simp) (by simp)
  case write2 => exact hwrite [lowByte v, highByte v] (by simp) (by simp)

/-! ## Refusals (R212, R219) -/

theorem runAnswering_refused {a : Byte} (ha : 254 ≤ a.toNat) (is : List Input) (s : State) :
    runAnswering a is s = .refused (.toolchainAddress a) :=
  if_neg (by simp [answeringAddress]; omega)

theorem runWriting_refused (k : Nat) (is : List Input) (s : State) :
    runWriting 255 k is s = .refused (.toolchainAddress 255) := if_pos rfl

theorem runWriting_length {a : Byte} {k : Nat} (ha : a.toNat ≤ 254) (hk : k = 0 ∨ 252 < k)
    (is : List Input) (s : State) : runWriting a k is s = .refused (.toolchainLength k) := by
  rw [runWriting, if_neg (by simp [busAddress, ha]), if_pos hk]

theorem AtRest.noresp {nr att : Bool} {q : Seq} (h : AtRest .cmdr nr att q) : oplNoresp q.opl = nr := by
  rw [h.opl]; cases nr <;> rfl

/-- The WRITE family runs as WRITE of some data bytes. -/
theorem exec_write_family {a r v : Byte} {w : Word} {ds : List Byte} (h1 : 1 ≤ ds.length)
    (h2 : ds.length ≤ 252) {i : Instr}
    (hi : i = .write a r ds ∨ i = .write1 a r v ∨ i = .write2 a r w) (s : State) :
    ∃ es : List Byte, 1 ≤ es.length ∧ es.length ≤ 252 ∧ exec i s = exec (.write a r es) s := by
  rcases hi with rfl | rfl | rfl
  · exact ⟨ds, h1, h2, rfl⟩
  · exact ⟨[v], by simp, by simp, exec_write1_eq a r v s⟩
  · exact ⟨[lowByte w, highByte w], by simp, by simp, exec_write2_eq a r w s⟩

/-- Settles O48: within their ranges the instructions run as their expansions, beyond them they are refused. -/
theorem addressRanges : Obligations.AddressRanges := by
  intro a r n v w ds s hs hw h1 h2
  refine ⟨fun ha => ⟨?ping, ?read⟩, fun ha => ⟨runAnswering_refused ha _ s, runAnswering_refused ha _ s⟩,
    fun ha i hi => ?writes, fun ha i hi => ?writesRefused, fun ha es hes => ?lengths⟩
  case ping => obtain ⟨q, -, hrun⟩ := exec_ping hs ha; exact ⟨_, hrun⟩
  case read => obtain ⟨q, -, hrun⟩ := exec_read (r := r) n hs ha; exact ⟨_, hrun⟩
  case writes =>
    obtain ⟨es, he1, he2, heq⟩ := exec_write_family h1 h2 hi s
    obtain ⟨q, hq, hrun⟩ := exec_write (r := r) hs ha he1 he2
    refine ⟨_, heq.trans hrun, ?_⟩
    rw [wire_bcast hw] at hq
    exact hq.noresp
  case writesRefused =>
    subst ha
    obtain ⟨es, -, -, heq⟩ := exec_write_family h1 h2 hi s
    exact heq.trans (runWriting_refused es.length (writeStmts s.cfg 255 r es) s)
  case lengths =>
    have hlen : es.length = 0 ∨ 252 < es.length := hes.imp_left fun h => by rw [h]; rfl
    exact runWriting_length ha hlen _ s

/-! ## The outcome (R218) -/

/-- What a pseudo-operation of the instruction code c to the device a leaves. -/
structure PseudoRun (a c : Byte) (s t : State) : Prop where
  ended : opEnded t = true
  instr : t.regs.instr = c
  devaddr : t.regs.devaddr = a
  /-- After a failure nothing but STATUS is read. -/
  failed : t.status.code ≠ codeOk → t.io.reads = s.io.reads ++ [statusWord t.status]

theorem readBack_keeps (i n : Nat) (s : State) :
    (readBack i n s).cfg = s.cfg ∧ (readBack i n s).status = s.status ∧
      (readBack i n s).buf = s.buf ∧ (readBack i n s).bus = s.bus ∧
      (readBack i n s).regs = { s.regs with bufidx := (readBack i n s).regs.bufidx } := by
  induction n generalizing i s with
  | zero => exact ⟨rfl, rfl, rfl, rfl, rfl⟩
  | succ n ih =>
    obtain ⟨hcfg, hst, hbuf, hbus, hregs⟩ :=
      ih (i + 1) (recordRead rRxdata { s with regs.bufidx := BitVec.ofNat 9 i })
    exact ⟨hcfg, hst, hbuf, hbus, hregs⟩

theorem readPayload_keeps (n : Nat) (s : State) :
    (readPayload n s).cfg = s.cfg ∧ (readPayload n s).status = s.status ∧
      (readPayload n s).buf = s.buf ∧ (readPayload n s).bus = s.bus ∧
      (readPayload n s).regs = { s.regs with bufidx := (readPayload n s).regs.bufidx } := by
  unfold readPayload
  split_ifs
  · exact readBack_keeps 5 n s
  · exact ⟨rfl, rfl, rfl, rfl, rfl⟩

/-- CMDR on a block that is ready keeps what its transitions keep. -/
theorem runCmdr_transition (nr : Bool) {s : State} (hs : Ready s) : Transition s (runCmdr nr s) := by
  obtain ⟨q, hrun⟩ := exec_runOp .cmdr nr hs
  rw [exec_hostOp] at hrun
  have h := Transition.operate .cmdr nr s
  rw [Host.Outcome.next.inj hrun] at h
  exact ⟨h.cfg, h.devaddr, h.instr, h.plen, h.explen, h.bufidx, h.pbuf, h.inputs, h.reads, h.txHung,
    h.wire, h.trace, h.draws⟩

/-- An expansion with n payload reads at its end leaves a pseudo-operation's outcome. -/
theorem pseudoRun_expansion (a c : Byte) (p : List Byte) (e : Byte) (nr : Bool) (n : Nat) (q : Seq)
    {s : State} (hs : Ready s) :
    PseudoRun a c s
      { readPayload n (recordRead rStatus (runCmdr nr (loadDescriptor a c p e s))) with seq := q } := by
  have hkept := runCmdr_transition nr (hs.loadDescriptor a c p e)
  obtain ⟨hbusy, hdone⟩ := runCmdr_ended nr (loadDescriptor a c p e s)
  obtain ⟨-, hstatus, -, -, hregs⟩ :=
    readPayload_keeps n (recordRead rStatus (runCmdr nr (loadDescriptor a c p e s)))
  refine ⟨?ended, ?instr, ?devaddr, fun hcode => ?failed⟩
  case ended => simp only [opEnded, hstatus, recordRead_status, hbusy, hdone]; rfl
  case instr => dsimp only; rw [hregs]; exact hkept.instr
  case devaddr => dsimp only; rw [hregs]; exact hkept.devaddr
  case failed =>
    simp only [hstatus] at hcode ⊢
    rw [readPayload_failed hcode, recordRead_io, readReg_status_idle hbusy, hkept.reads]
    rfl

/-- The same without payload reads. -/
theorem pseudoRun_carried (a c : Byte) (p : List Byte) (e : Byte) (nr : Bool) (q : Seq) {s : State}
    (hs : Ready s) :
    PseudoRun a c s
      { recordRead rStatus (runCmdr nr (loadDescriptor a c p e s)) with seq := q } := by
  have h := pseudoRun_expansion a c p e nr 0 q hs
  rw [readPayload_zero] at h
  exact h

/-- Settles O46: each of the five instructions runs as an expansion that carries its code and address. -/
theorem pseudoFailureOutcome : Obligations.PseudoFailure := by
  intro i a c s hs ha hi
  have ha' : a.toNat ≤ 254 := Nat.le_succ_of_le ha
  have hwrite : ∀ r ds, 1 ≤ ds.length → ds.length ≤ 252 →
      ∃ t, exec (.write a r ds) s = .next t ∧ PseudoRun a 0x03 s t := by
    intro r ds h1 h2
    obtain ⟨q, -, hrun⟩ := exec_write (r := r) hs ha' h1 h2
    exact ⟨_, hrun, pseudoRun_carried a 0x03 (r :: ds) 0 _ q hs⟩
  have hrun : ∃ t, exec i s = .next t ∧ PseudoRun a c s t := by
    rcases hi with ⟨rfl, rfl⟩ | ⟨r, n, rfl, rfl⟩ | ⟨r, ds, rfl, h1, h2, rfl⟩ | ⟨r, v, rfl, rfl⟩ |
      ⟨r, v, rfl, rfl⟩
    · obtain ⟨q, -, hrun⟩ := exec_ping hs ha
      exact ⟨_, hrun, pseudoRun_carried a 0x01 [] 0 false q hs⟩
    · obtain ⟨q, -, hrun⟩ := exec_read (r := r) n hs ha
      exact ⟨_, hrun, pseudoRun_expansion a 0x02 [r, n] n false n.toNat q hs⟩
    · exact hwrite r ds h1 h2
    · exact hwrite r [v] (by simp) (by simp)
    · exact hwrite r [lowByte v, highByte v] (by simp) (by simp)
  obtain ⟨t, hrun, ht⟩ := hrun
  refine ⟨t, hrun, fun hcode => ?failure, fun hcode => (outcome_of_ok ht.ended hcode).2⟩
  case failure =>
    obtain ⟨hrd1, hrd2, hfailure⟩ := outcome_of_failure ht.ended hcode
    rw [ht.instr, ht.devaddr] at hfailure
    exact ⟨hfailure, hrd1, hrd2, _, ht.failed hcode, statusWord_code _⟩

end Sys2Proof.Machine
end

section
/-! PROOFS. The descriptor that a bus instruction writes (43_bus_instructions.md R200 to R204): it is legal, its
frame is the instruction's packet, and what goes over the wire is that packet. -/

namespace Sys2Proof.Machine

/-! ## The payload in PBUF -/

/-- `pay i, p[0]`, ... within PBUF is one `MemWrite`. -/
theorem loadPayload_eq {size i : Nat} {p : List Byte} (h : i + p.length ≤ size) (m : List Host.Cell) :
    loadPayload size m i p = Memory.writeSeq m i p := by
  induction p generalizing m i with
  | nil => rfl
  | cons b p ih =>
    simp only [List.length_cons] at h
    rw [loadPayload, portWrite, if_pos (by omega), ih (by omega), Memory.writeSeq]

section
variable {a i e : Byte} {p : List Byte} {s : State}

theorem loadDescriptor_plen (hp : p.length ≤ 253) :
    (loadDescriptor a i p e s).regs.plen.toNat = p.length := by
  show (BitVec.ofNat 8 p.length).toNat = _
  rw [BitVec.toNat_ofNat]; omega

theorem find_loadDescriptor_pbuf (hc : s.cfg = Config.hdx) (hp : p.length ≤ 253) {j : Nat}
    (hj : j < p.length) : Memory.find (loadDescriptor a i p e s).buf.pbuf j = p[j]? := by
  show Memory.find (loadPayload s.cfg.pmax s.buf.pbuf 0 p) j = _
  have hmax : s.cfg.pmax = 253 := by rw [hc]; rfl
  rw [loadPayload_eq (by omega), Memory.find_writeSeq, if_pos (by omega), Nat.sub_zero]

/-- The descriptor of a bus instruction is legal. -/
theorem loadDescriptor_legal {nr : Bool} (hc : s.cfg = Config.hdx) (ha : a.toNat ≤ 254)
    (hp : p.length ≤ 253) (he : e.toNat ≤ 253) : LegalDescriptor nr (loadDescriptor a i p e s) := by
  refine ⟨?params, ?good, fun j hj => ?written⟩
  case params => show s.cfg.legal = true; rw [hc]; decide
  case good =>
    have hmax : s.cfg.pmax = 253 ∧ s.cfg.emax = 253 := by rw [hc]; exact ⟨rfl, rfl⟩
    rw [← Bool.not_eq_true, badDescriptor_iff, loadDescriptor_plen hp]
    rintro (h | h | ⟨-, h⟩)
    · have : a.toNat = 255 := congrArg BitVec.toNat h
      omega
    · have : s.cfg.pmax < p.length := h
      omega
    · have : s.cfg.emax < e.toNat := h
      omega
  case written =>
    rw [loadDescriptor_plen hp] at hj
    rw [find_loadDescriptor_pbuf hc hp hj, List.getElem?_eq_getElem hj]
    rfl

/-- The frame that the descriptor gives is the packet of its fields (30_encoding.md R90). -/
theorem builtFrame_loadDescriptor (hc : s.cfg = Config.hdx) (hp : p.length ≤ 253) :
    builtFrame (loadDescriptor a i p e s) = frame a i p := by
  have hpayload : payload p.length (loadDescriptor a i p e s) = p := by
    apply List.ext_getElem?
    intro j
    by_cases hj : j < p.length
    · simp [payload, find_loadDescriptor_pbuf hc hp hj, hj]
    · rw [List.getElem?_eq_none (by rw [payload_length]; omega), List.getElem?_eq_none (by omega)]
  rw [builtFrame, loadDescriptor_plen hp, hpayload]
  rfl

end

/-! ## The wire -/

section
variable {nr : Bool} {s : State}

theorem readFrame_buildFrame (op : HostOp) (h : LegalDescriptor nr s) :
    (readFrame (buildFrame (accepted op nr s))).1 = builtFrame s := by
  rw [buildFrame_eq h, readFrame_built]

theorem firstAttempt_wire (op : HostOp) (h : LegalDescriptor nr s) :
    (firstAttempt op nr s).2.bus.wire = s.bus.wire ++ builtFrame s := by
  rw [firstAttempt, attempt_bus, readFrame_buildFrame op h]
  rfl

/-- CMDR of a legal descriptor hands the frame over once, or with a retry twice. -/
theorem runCmdr_wire (h : LegalDescriptor nr s) :
    (runCmdr nr s).bus.wire =
      s.bus.wire ++ builtFrame s ++ if (runCmdr nr s).status.retried then builtFrame s else [] := by
  by_cases hok : (firstAttempt .cmdr nr s).1 = codeOk
  · rw [runCmdr_once_retried h.good hok, runCmdr_once h.good hok, endOperation_bus,
      firstAttempt_wire .cmdr h]
    simp
  · cases nr with
    | true => rw [firstAttempt_noresp .cmdr h] at hok; exact absurd rfl hok
    | false =>
      have hretried : (retriedState false s).bus.wire = s.bus.wire ++ builtFrame s :=
        firstAttempt_wire .cmdr h
      rw [runCmdr_twice_retried h.good hok, runCmdr_twice h.good hok, endOperation_bus, secondAttempt,
        attempt_bus, readFrame_retriedState h, if_pos rfl]
      show (retriedState false s).bus.wire ++ builtFrame s = _
      rw [hretried]

end

/-- An expansion hands over the packet of its fields. -/
theorem expansion_wire {a i e : Byte} {p : List Byte} {nr : Bool} {s : State} (hc : s.cfg = Config.hdx)
    (ha : a.toNat ≤ 254) (hp : p.length ≤ 253) (he : e.toNat ≤ 253) :
    (runCmdr nr (loadDescriptor a i p e s)).bus.wire =
      s.bus.wire ++ frame a i p ++
        if (runCmdr nr (loadDescriptor a i p e s)).status.retried then frame a i p else [] := by
  have h := runCmdr_wire (loadDescriptor_legal (nr := nr) (i := i) hc ha hp he)
  rw [builtFrame_loadDescriptor hc hp] at h
  exact h

/-- Settles O47: the descriptor is legal and its frame is the packet. -/
theorem wireCarriesPacket : Obligations.WireCarriesPacket := by
  intro i s hs hc hwf hi
  have hwrite : ∀ a r ds, busAddress a = true → 1 ≤ ds.length → ds.length ≤ 252 →
      ∃ t, exec (.write a r ds) s = .next t ∧
        t.bus.wire = s.bus.wire ++ frame a 0x03 (r :: ds) ++
          if t.status.retried then frame a 0x03 (r :: ds) else [] := by
    intro a r ds ha h1 h2
    have ha' : a.toNat ≤ 254 := of_decide_eq_true ha
    obtain ⟨q, -, hrun⟩ := exec_write (r := r) hs ha' h1 h2
    exact ⟨_, hrun, expansion_wire hc ha' (by rw [List.length_cons]; omega) (by decide)⟩
  rcases hi with ⟨a, rfl⟩ | ⟨a, r, n, rfl, hn⟩ | ⟨a, r, ds, rfl⟩ | ⟨a, r, v, rfl⟩ | ⟨a, r, v, rfl⟩
  · have ha : a.toNat ≤ 253 := of_decide_eq_true hwf
    obtain ⟨q, -, hrun⟩ := exec_ping hs ha
    exact ⟨_, hrun, expansion_wire hc (by omega) (by simp) (by decide)⟩
  · have ha : a.toNat ≤ 253 := of_decide_eq_true hwf
    obtain ⟨q, -, hrun⟩ := exec_read (r := r) n hs ha
    obtain ⟨-, hstatus, -, hbus, -⟩ := readPayload_keeps n.toNat
      (recordRead rStatus (runCmdr false (loadDescriptor a 0x02 [r, n] n s)))
    refine ⟨_, hrun, ?_⟩
    simp only [hstatus, hbus]
    exact expansion_wire hc (by omega) (by simp) hn
  · simp only [Instr.wellFormed, Bool.and_eq_true, decide_eq_true_eq] at hwf
    obtain ⟨⟨ha, h1⟩, h2⟩ := hwf
    exact hwrite a r ds ha (by omega) h2
  · exact hwrite a r [v] hwf (by simp) (by simp)
  · exact hwrite a r [lowByte v, highByte v] hwf (by simp) (by simp)

end Sys2Proof.Machine
end

section
/-! PROOFS. The value of a READ (43_bus_instructions.md R211, R213, R214): the payload of the response that
succeeded, the first attempt's or the second's. -/

namespace Sys2Proof.Machine

/-! ## CMDR that succeeds -/

/-- What CMDR leaves of a legal descriptor when the response rx succeeded, in the first attempt or, when
`retried`, in the second. -/
structure Succeeded (rx : List Byte) (retried : Bool) (s t : State) : Prop where
  busy : t.status.busy = false
  done : t.status.done = true
  code : t.status.code = codeOk
  retried : t.status.retried = retried
  rxbuf : ∀ j < rx.length, Memory.find t.buf.rxbuf j = rx[j]?
  lasterr : FilesWf s → lastErr t s.regs.devaddr.toNat = 0x00

/-- What is read after the operation leaves its outcome as it is. -/
theorem Succeeded.of_same {rx : List Byte} {retried : Bool} {s t u : State}
    (h : Succeeded rx retried s t) (hcfg : u.cfg = t.cfg) (hstatus : u.status = t.status)
    (hbuf : u.buf = t.buf) : Succeeded rx retried s u :=
  ⟨by rw [hstatus, h.busy], by rw [hstatus, h.done], by rw [hstatus, h.code],
    by rw [hstatus, h.retried], by rw [hbuf]; exact h.rxbuf,
    fun hf => (lastErr_congr hcfg (by rw [hbuf]) _).trans (h.lasterr hf)⟩

theorem Succeeded.opEnded {rx : List Byte} {retried : Bool} {s t : State}
    (h : Succeeded rx retried s t) : opEnded t = true := by
  rw [Machine.opEnded, h.busy, h.done]; rfl

/-- The value of RD1 is the byte at offset 5 of the response (R213). -/
theorem Succeeded.rd1Value {rx : List Byte} {retried : Bool} {s t : State}
    (h : Succeeded rx retried s t) (hlen : 5 < rx.length) : rd1Value t = rx[5]? := by
  rw [(outcome_of_ok h.opEnded h.code).1, h.rxbuf 5 hlen]

/-- The value of RD2 joins the bytes at offsets 5 and 6 (R214). -/
theorem Succeeded.rd2Value {rx : List Byte} {retried : Bool} {s t : State}
    (h : Succeeded rx retried s t) (hlen : 6 < rx.length) :
    rd2Value t = some (join16 (rx.getD 5 0) (rx.getD 6 0)) := by
  have hget : ∀ j < 7, Memory.find t.buf.rxbuf j = some (rx.getD j 0) := by
    intro j hj
    have hjlen : j < rx.length := by omega
    rw [h.rxbuf j hjlen, List.getD_eq_getElem?_getD, List.getElem?_eq_getElem hjlen]
    rfl
  exact rd2Value_of_ok h.opEnded h.code (hget 5 (by omega)) (hget 6 (by omega))

section
variable {s : State}

/-- A response that succeeds has the expected length. -/
theorem verdict_ok_length {c : Config} {n : Nat} {rx : List Byte} (h : verdict c n rx = codeOk) :
    rx.length = n := by
  by_contra hne
  rw [verdict_of_length_ne hne] at h
  exact absurd h (by decide)

theorem runCmdr_succeeded_once (h : LegalDescriptor false s) (hok : firstVerdict s = codeOk) :
    Succeeded (response s) false s (runCmdr false s) := by
  have hrun : runCmdr false s = endOperation codeOk (attempted .cmdr false (lasterrAfter codeOk s) s) := by
    rw [runCmdr_once h.good (by rw [firstAttempt_code .cmdr h, hok]), firstAttempt_response .cmdr h, hok]
  rw [hrun]
  refine ⟨rfl, rfl, rfl, rfl, fun j hj => find_commandEnd_rxbuf 0 _ s _ hj, fun hf => ?_⟩
  have hles : lasterrAfter codeOk s = lasterrWith 0x00 s := by
    rw [lasterrAfter, if_pos (.inl rfl), verdict_ok_errorByte hok, wire_noError (wire_of_legal h.params)]
  rw [hles]
  exact (lastErr_commandEnd h hf 0 0x00 Seq.reset _).trans (if_pos rfl)

theorem runCmdr_succeeded_twice (h : LegalDescriptor false s) (hfail : firstVerdict s ≠ codeOk)
    (hok : firstVerdict (afterFirst s) = codeOk) :
    Succeeded (response (afterFirst s)) true s (runCmdr false s) := by
  have hdevice := fun hf : FilesWf s => lastErr_secondAttempt_device h hf hfail
  have hstate := secondAttempt_response h
  rw [noteError_eq] at hstate
  have hrun := runCmdr_twice h.good (by rw [firstAttempt_code .cmdr h]; exact hfail)
  rw [secondAttempt_code h, hok] at hrun
  rw [hrun]
  generalize secondAttempt false s = x at hdevice hstate
  refine ⟨rfl, rfl, rfl, ?retried, fun j hj => ?rxbuf, fun hf => ?lasterr⟩
  case retried => rw [endOperation_status, hstate, reattempted_status]
  case rxbuf => rw [endOperation_buf, hstate]; exact find_reattempted_rxbuf s hj
  case lasterr => exact (hdevice hf).trans (if_pos hok)

end

/-! ## The reads of the payload -/

/-- Reads of written entries of RXBUF give them one after the other. -/
theorem readBack_reads {bs : List Byte} {i : Nat} {s : State} (hb : s.status.busy = false)
    (hmax : i + bs.length ≤ s.cfg.xmax) (h512 : i + bs.length ≤ 512)
    (h : ∀ j < bs.length, Memory.find s.buf.rxbuf (i + j) = bs[j]?) :
    (readBack i bs.length s).io.reads = s.io.reads ++ bs.map (fun b => b.setWidth 16) := by
  induction bs generalizing i s with
  | nil => exact (List.append_nil _).symm
  | cons b bs ih =>
    simp only [List.length_cons] at hmax h512 h
    have hi : (BitVec.ofNat 9 i).toNat = i := by rw [BitVec.toNat_ofNat]; omega
    have hentry : Memory.find s.buf.rxbuf i = some b := h 0 (by omega)
    have hread : (readReg rRxdata { s with regs.bufidx := BitVec.ofNat 9 i }).1 = b.setWidth 16 := by
      rw [readReg_rxdata_idle (s := { s with regs.bufidx := BitVec.ofNat 9 i }) hb]
      dsimp only
      rw [hi, portRead_written (by omega) hentry]
    rw [List.length_cons, readBack, ih]
    · rw [recordRead_io, hread]
      simp
    · exact hb
    · show i + 1 + bs.length ≤ s.cfg.xmax
      omega
    · omega
    · intro j hj
      have hj' := h (j + 1) (by omega)
      rw [List.getElem?_cons_succ] at hj'
      rw [Nat.add_assoc, Nat.add_comm 1 j]
      exact hj'

/-! ## READ -/

section
variable {a r n : Byte} {s : State}

/-- The reads at the end of READ: the payload of the response, after the operation ended in the state u. -/
theorem readPayload_reads {rx : List Byte} {retried : Bool} {u : State}
    (h : Succeeded rx retried s u) (hc : u.cfg = Config.hdx) (hn : n.toNat ≤ 253)
    (hlen : rx.length = n.toNat + 6) :
    (readPayload n.toNat (recordRead rStatus u)).io.reads =
      u.io.reads ++ [statusWord u.status] ++
        ((rx.drop 5).take n.toNat).map (fun b => b.setWidth 16) := by
  have hbs : ((rx.drop 5).take n.toNat).length = n.toNat := by
    rw [List.length_take, List.length_drop]; omega
  have hmax : u.cfg.xmax = 259 := by rw [hc]; rfl
  have hback := readBack_reads (bs := (rx.drop 5).take n.toNat) (i := 5) (s := recordRead rStatus u)
    h.busy (by show _ ≤ u.cfg.xmax; omega) (by omega) (by
      intro j hj
      rw [hbs] at hj
      rw [List.getElem?_take_of_lt hj, List.getElem?_drop]
      exact h.rxbuf (5 + j) (by omega))
  rw [hbs] at hback
  rw [readPayload_ok (s := recordRead rStatus u) h.code, hback, recordRead_io, readReg_status_idle h.busy]

/-- What READ leaves when the response rx of n + 6 bytes succeeded. -/
theorem read_of_succeeded {rx : List Byte} {retried : Bool} (hs : Ready s) (hc : s.cfg = Config.hdx)
    (hf : FilesWf (loadDescriptor a 0x02 [r, n] n s)) (ha : a.toNat ≤ 253) (hn : n.toNat ≤ 253)
    (hlen : rx.length = n.toNat + 6)
    (h : Succeeded rx retried (loadDescriptor a 0x02 [r, n] n s)
      (runCmdr false (loadDescriptor a 0x02 [r, n] n s))) :
    ∃ t st, exec (.read a r n) s = .next t ∧ t.status.code = 0 ∧ t.status.retried = retried ∧
      t.io.reads = s.io.reads ++ [st] ++ ((rx.drop 5).take n.toNat).map (fun b => b.setWidth 16) ∧
      st.extractLsb' 8 4 = 0#4 ∧ st.getLsbD 3 = retried ∧ st.getLsbD 1 = true ∧
      st.getLsbD 0 = false ∧ lastErr t a.toNat = 0x00 ∧
      (n = 1 → rd1Value t = rx[5]?) ∧
      (n = 2 → rd2Value t = some (join16 (rx.getD 5 0) (rx.getD 6 0))) := by
  obtain ⟨q, -, hrun⟩ := exec_read (r := r) n hs ha
  have hkept := runCmdr_transition false (hs.loadDescriptor a 0x02 [r, n] n)
  have hreads := readPayload_reads h (hkept.cfg.trans hc) hn hlen
  rw [hkept.reads] at hreads
  obtain ⟨hcfg, hstatus, hbuf, -, -⟩ := readPayload_keeps n.toNat
    (recordRead rStatus (runCmdr false (loadDescriptor a 0x02 [r, n] n s)))
  have ht := h.of_same (u := { readPayload n.toNat
    (recordRead rStatus (runCmdr false (loadDescriptor a 0x02 [r, n] n s))) with seq := q })
    hcfg hstatus hbuf
  refine ⟨_, _, hrun, ht.code, ht.retried, hreads, ?code, ?retried, ?done, ?busy, ht.lasterr hf,
    fun h1 => ht.rd1Value ?one, fun h2 => ht.rd2Value ?two⟩
  case code => rw [statusWord_code, h.code]; rfl
  case retried => rw [statusWord_retried, h.retried]
  case done => rw [statusWord_done, h.done]
  case busy => rw [statusWord_busy, h.busy]
  case one => rw [hlen, h1]; decide
  case two => rw [hlen, h2]; decide

/-- The files stay canonical while the descriptor is written. -/
theorem FilesWf.loadDescriptor {i e : Byte} {p : List Byte} (hf : FilesWf s) (hc : s.cfg = Config.hdx)
    (hp : p.length ≤ 253) : FilesWf (loadDescriptor a i p e s) := by
  have hmax : s.cfg.pmax = 253 := by rw [hc]; rfl
  refine ⟨hf.lasterr, ?_, hf.txf, hf.rxbuf⟩
  show Memory.wf none s.cfg.pmax (loadPayload s.cfg.pmax s.buf.pbuf 0 p) = true
  rw [loadPayload_eq (by omega)]
  exact Memory.wf_writeSeq p hf.pbuf (by omega)

end

/-- Settles O45: the response that CMDR ends with stands in RXBUF, from where the payload is read. -/
theorem readYieldsPayload : Obligations.ReadYieldsPayload := by
  intro a r n s retried hs hc hf ha hn e s2 rx hfirst hok
  let d := loadDescriptor a 0x02 [r, n] n s
  have hlegal : LegalDescriptor false d := loadDescriptor_legal hc (by omega) (by simp) hn
  have hplen : d.regs.plen.toNat + 6 = 8 := by rw [loadDescriptor_plen (by simp)]; rfl
  have hframe : builtFrame d = packetBytes (.read a r n) := builtFrame_loadDescriptor hc (by simp)
  have hresp : response d = responseRead 8 e s := by rw [response, hplen]; rfl
  have hresp2 : response (afterFirst d) = responseRead 8 e s2 := by
    rw [response, afterFirst, hframe]
    show responseRead (d.regs.plen.toNat + 6) _ _ = _
    rw [hplen]
    rfl
  have hv : firstVerdict d = verdict s.cfg e (responseRead 8 e s) := by rw [firstVerdict, hresp]; rfl
  have hv2 : firstVerdict (afterFirst d) = verdict s.cfg e (responseRead 8 e s2) := by
    rw [firstVerdict, hresp2]; rfl
  have hsucc : Succeeded rx retried d (runCmdr false d) := by
    cases retried with
    | false =>
      have h := runCmdr_succeeded_once hlegal (hv.trans hok)
      rw [hresp] at h
      exact h
    | true =>
      have h := runCmdr_succeeded_twice hlegal (by rw [hv]; exact hfirst.mpr rfl) (hv2.trans hok)
      rw [hresp2] at h
      exact h
  exact read_of_succeeded hs hc (hf.loadDescriptor hc (by simp)) ha hn (verdict_ok_length hok) hsucc

end Sys2Proof.Machine
end

section
/-! PROOFS. The ideal bus (20_memory.md R72): what one exchange on it reads and leaves, and the round trip of a
register through WR2 and RD2 (43_bus_instructions.md R220). -/

namespace Sys2Proof.Machine

/-! ## One exchange -/

/-- The empty sequence is no request. -/
theorem devAnswer_nil (d : Device) : devAnswer d [] = [] :=
  devAnswer_of_no_frame d fun a i p _ h => by
    have := congrArg List.length h
    rw [frame_length] at this
    exact absurd this (by simp)

/-- An exchange on the ideal bus with an empty queue: a perfect echo, the first bytes of the device's answer, and
the rest of the answer left in the queue. -/
theorem ideal_exchange {s : State} {d : Device} {tx : List Byte} {e : Nat} {rest : List (List Byte)}
    (hq : s.bus.rxq = []) (ha : s.bus.arrivals = idealArrivals d tx e ++ rest) :
    echoRead tx.length s = tx ∧ responseRead tx.length e s = (devAnswer d tx).take e ∧
      (busAfter tx e s).rxq = (devAnswer d tx).drop e ∧ (busAfter tx e s).arrivals = rest := by
  by_cases htx : tx = []
  · subst htx
    rw [devAnswer_nil]
    by_cases he : e = 0 <;>
      simp [echoRead, responseRead, queueAtEcho, queueAfterEcho, arrivalsAfterEcho, busAfter,
        idealArrivals, hq, ha, he]
  · by_cases he : e = 0 <;>
      simp [echoRead, responseRead, queueAtEcho, queueAfterEcho, arrivalsAfterEcho, busAfter,
        idealArrivals, hq, ha, he, htx]

/-- A device at 0 to 253 answers the requests to its own address. -/
theorem devAnswer_request {d : Device} (hd : d.addr.toNat ≤ 253) {a i : Byte} {p : List Byte}
    (hp : p.length ≤ 253) :
    devAnswer d (frame a i p) =
      if a = d.addr then statusPacket d.addr d.err (devPayload d.regs i p) else [] := by
  have hto : d.answersTo a = true ↔ a = d.addr :=
    ⟨fun h => (answersTo_address h).1, fun h => by
      rw [h, Device.answersTo, answeringAddress_of_le hd, beq_self_eq_true]; rfl⟩
  rw [devAnswer_frame d hp]
  exact if_congr hto rfl rfl

/-- Settles O51: XCHG is its exchange in closed form, which on the ideal bus reads the echo and the answer. -/
theorem idealBusExchange : Obligations.IdealBusExchange := by
  intro nr s d rest hs hlen hw hq hd tx e ans ha
  have htx : tx.length = s.regs.xlen.toNat := by simp [tx, txfBytes]
  obtain ⟨hecho, hresp, hrxq, harr⟩ := ideal_exchange hq ha
  obtain ⟨q, -, hrun⟩ := xchgResult nr s hs hlen hw
  refine ⟨_, hrun, ?status, ?rxlen, ?rxbuf, hrxq, harr, fun a i p hp h => ?answered,
    fun h => devAnswer_of_no_frame d h⟩
  case status =>
    show ended (echoRead tx.length s != tx) false 0 = _
    rw [hecho, bne_self_eq_false]
  case rxlen => exact congrArg (fun rx : List Byte => BitVec.ofNat 9 rx.length) hresp
  case rxbuf => exact congrArg (Memory.writeSeq s.buf.rxbuf 0) hresp
  case answered =>
    show devAnswer d tx = _
    rw [h]
    exact devAnswer_request hd hp

/-! ## A command on the ideal bus -/

/-- A status packet with the "no error" byte passes the checks (42_command.md R172). -/
theorem verdict_statusPacket {c : Config} (hc : c.noError = 0x00) (a : Byte) (p : List Byte) :
    verdict c (p.length + 6) (statusPacket a 0x00 p) = codeOk := by
  have hlen : (statusPacket a 0x00 p).length = p.length + 6 := frame_length a 0x00 p
  rw [verdict_of_validated hlen fun _ => ?checksum, hc]
  · rfl
  case checksum =>
    rw [statusPacket, frame_covered]
    exact frame_getD_checksum a 0x00 p

/-- CMDR of a legal descriptor on the ideal bus, when the answer has as many bytes as are expected and succeeds: no
anomaly, no retry, and nothing left in the queue. -/
theorem runCmdr_ideal {s : State} {d : Device} {rest : List (List Byte)} (h : LegalDescriptor false s)
    (hq : s.bus.rxq = []) (ha : s.bus.arrivals = idealArrivals d (builtFrame s) (expected s) ++ rest)
    (hv : verdict s.cfg (expected s) (devAnswer d (builtFrame s)) = codeOk) :
    Succeeded (devAnswer d (builtFrame s)) false s (runCmdr false s) ∧
      (runCmdr false s).status = ended false false 0 ∧ (runCmdr false s).bus.rxq = [] ∧
      (runCmdr false s).bus.arrivals = rest := by
  have hlen := verdict_ok_length hv
  obtain ⟨hecho, hresp, hrxq, harr⟩ := ideal_exchange hq ha
  rw [List.take_of_length_le hlen.le, responseRead_builtFrame] at hresp
  rw [List.drop_eq_nil_of_le hlen.le] at hrxq
  have hok : firstVerdict s = codeOk := by rw [firstVerdict, hresp, hv]
  have hsucc := runCmdr_succeeded_once h hok
  rw [hresp] at hsucc
  have hrun : runCmdr false s = endOperation codeOk (attempted .cmdr false (lasterrAfter codeOk s) s) := by
    rw [runCmdr_once h.good (by rw [firstAttempt_code .cmdr h, hok]), firstAttempt_response .cmdr h, hok]
  refine ⟨hsucc, ?status, ?rxq, ?arrivals⟩ <;> rw [hrun]
  case status =>
    show ended (anomaly (builtFrame s) (echoRead (builtFrame s).length s)) false 0 = _
    rw [hecho, anomaly, bne_self_eq_false]
  case rxq => exact hrxq
  case arrivals => exact harr

/-! ## The round trip -/

/-- What a device stores of two bytes reads back from ascending addresses (R202). -/
theorem devReg_devStore (regs : List Host.Cell) (r lo hi : Byte) :
    devReg (devStore regs 0x03 [r, lo, hi]) r.toNat = lo ∧
      devReg (devStore regs 0x03 [r, lo, hi]) (r.toNat + 1) = hi := by
  have hstore : devStore regs 0x03 [r, lo, hi] = Memory.writeSeq regs r.toNat [lo, hi] := rfl
  rw [hstore]
  constructor <;> simp [devReg, Memory.find_writeSeq]

section
variable {d : Device} (hd : d.addr.toNat ≤ 253)
include hd

/-- WR2 on the ideal bus stores the value in the device and leaves the queue empty. -/
theorem exec_write2_ideal (r : Byte) (v : Word) {s : State} {rest : List (List Byte)} (hs : Ready s)
    (hc : s.cfg = Config.hdx) (herr : d.err = 0x00) (hq : s.bus.rxq = [])
    (ha : s.bus.arrivals = idealArrivals d (packetBytes (.write2 d.addr r v)) 6 ++ rest) :
    ∃ t, exec (.write2 d.addr r v) s = .next t ∧ t.status = ended false false 0 ∧ Ready t ∧
      t.cfg = Config.hdx ∧ t.bus.rxq = [] ∧ t.bus.arrivals = rest := by
  let s1 := loadDescriptor d.addr 0x03 [r, lowByte v, highByte v] 0 s
  have hlegal : LegalDescriptor false s1 :=
    loadDescriptor_legal hc (by omega) (by simp) (by decide)
  have hframe : builtFrame s1 = packetBytes (.write2 d.addr r v) := builtFrame_loadDescriptor hc (by simp)
  have hanswer : devAnswer d (builtFrame s1) = statusPacket d.addr 0x00 [] := by
    rw [hframe]
    show devAnswer d (frame d.addr 0x03 [r, lowByte v, highByte v]) = _
    rw [devAnswer_request hd (by simp), if_pos rfl, herr]
    rfl
  have hv : verdict s1.cfg (expected s1) (devAnswer d (builtFrame s1)) = codeOk := by
    rw [hanswer]
    exact verdict_statusPacket (by show s.cfg.noError = _; rw [hc]; rfl) d.addr []
  obtain ⟨-, hstatus, hrxq, harr⟩ := runCmdr_ideal hlegal hq (by rw [hframe]; exact ha) hv
  have hkept := runCmdr_transition false (hs.loadDescriptor d.addr 0x03 [r, lowByte v, highByte v] 0)
  have hio := (runCmdr_commandKeeps (nr := false) (wire_of_legal hlegal.params)).io
  have hunicast : (d.addr == s.cfg.bcast) = false := by
    rw [hc, beq_eq_false_iff_ne]
    rintro h
    rw [h] at hd
    exact absurd hd (by decide)
  obtain ⟨q, -, hrun⟩ := exec_write (r := r) (ds := [lowByte v, highByte v]) hs
    (Nat.le_succ_of_le hd) (by simp) (by simp)
  rw [hunicast] at hrun
  refine ⟨_, (exec_write2_eq d.addr r v s).trans hrun, hstatus, ⟨?idle, ?pace, ?taken⟩,
    hkept.cfg.trans hc, hrxq, harr⟩
  case idle => exact (runCmdr_ended false s1).1
  case pace => exact (congrArg HostSide.pace hio).trans hs.pace
  case taken => exact hkept.txHung.trans hs.taken

/-- RD2 on the ideal bus yields the device's two registers and leaves the queue empty. -/
theorem exec_rd2_ideal (r : Byte) {s : State} {rest : List (List Byte)} (hs : Ready s)
    (hc : s.cfg = Config.hdx) (herr : d.err = 0x00) (hq : s.bus.rxq = [])
    (ha : s.bus.arrivals = idealArrivals d (packetBytes (rd2 d.addr r)) 8 ++ rest) :
    ∃ u, exec (rd2 d.addr r) s = .next u ∧ u.status = ended false false 0 ∧
      rd2Value u = some (join16 (devReg d.regs r.toNat) (devReg d.regs (r.toNat + 1))) ∧
      u.bus.rxq = [] ∧ u.bus.arrivals = rest := by
  let s1 := loadDescriptor d.addr 0x02 [r, 2] 2 s
  have hlegal : LegalDescriptor false s1 :=
    loadDescriptor_legal hc (by omega) (by simp) (by decide)
  have hframe : builtFrame s1 = packetBytes (rd2 d.addr r) := builtFrame_loadDescriptor hc (by simp)
  have hanswer : devAnswer d (builtFrame s1) =
      statusPacket d.addr 0x00 [devReg d.regs r.toNat, devReg d.regs (r.toNat + 1)] := by
    rw [hframe]
    show devAnswer d (frame d.addr 0x02 [r, 2]) = _
    rw [devAnswer_request hd (by simp), if_pos rfl, herr]
    rfl
  have hv : verdict s1.cfg (expected s1) (devAnswer d (builtFrame s1)) = codeOk := by
    rw [hanswer]
    exact verdict_statusPacket (by show s.cfg.noError = _; rw [hc]; rfl) d.addr _
  obtain ⟨hsucc, hstatus, hrxq, harr⟩ := runCmdr_ideal hlegal hq (by rw [hframe]; exact ha) hv
  rw [hanswer] at hsucc
  obtain ⟨q, -, hrun⟩ := exec_read (r := r) 2 hs hd
  obtain ⟨hcfg, hst, hbuf, hbus, -⟩ := readPayload_keeps 2 (recordRead rStatus (runCmdr false s1))
  have hu := hsucc.of_same (u := { readPayload 2 (recordRead rStatus (runCmdr false s1)) with seq := q })
    hcfg hst hbuf
  refine ⟨_, hrun, hst.trans hstatus, ?value, (congrArg Bus.rxq hbus).trans hrxq,
    (congrArg Bus.arrivals hbus).trans harr⟩
  case value => exact hu.rd2Value (by rw [statusPacket, frame_length]; simp)

end

/-- A device that is written keeps its address and its error byte. -/
theorem devAfter_write {d : Device} (hd : d.addr.toNat ≤ 253) (i : Byte) {p : List Byte}
    (hp : p.length ≤ 253) :
    devAfter d (frame d.addr i p) = { d with regs := devStore d.regs i p } := by
  have hto : d.answersTo d.addr = true := by
    rw [Device.answersTo, answeringAddress_of_le hd, beq_self_eq_true]; rfl
  simp only [devAfter, requestOf_frame hp, hto, true_or, if_true]

/-- Settles O52: WR2 stores the two bytes in the device, and RD2 joins what it reads from there. -/
theorem registerRoundTrip : Obligations.RegisterRoundTrip := by
  intro r v d rest s hs hc hd herr hq ha
  have hafter : devAfter d (packetBytes (.write2 d.addr r v)) =
      { d with regs := devStore d.regs 0x03 [r, lowByte v, highByte v] } :=
    devAfter_write hd 0x03 (by simp)
  simp only [idealRun, hafter, List.append_nil, List.append_assoc] at ha
  obtain ⟨t, hwrite, htstatus, htready, htcfg, htq, htarr⟩ :=
    exec_write2_ideal hd r v hs hc herr hq ha
  obtain ⟨u, hread, hustatus, huvalue, huq, huarr⟩ :=
    exec_rd2_ideal (d := { d with regs := devStore d.regs 0x03 [r, lowByte v, highByte v] }) hd r
      htready htcfg herr htq htarr
  obtain ⟨hlow, hhigh⟩ := devReg_devStore d.regs r (lowByte v) (highByte v)
  rw [hlow, hhigh, join16_split] at huvalue
  exact ⟨t, u, hwrite, htstatus, hread, hustatus, huvalue, huq, huarr⟩

end Sys2Proof.Machine
end
